-- ==== Sys2Proof/Word.lean ====
section
/-! DEFINITION. The widths the block moves: a wire byte, a decoded movement, the microsecond count (R6, R8). -/

namespace Sys2Proof

/-- A data byte of one frame, 8 bits (R6). -/
abbrev Byte := BitVec 8

/-- A decoded X or Y movement, 16-bit two's complement (R6, R98). -/
abbrev Movement := BitVec 16

/-- The time source's count of microseconds: `W_TIME` = 32 bits, wrapping (R8, R132). -/
abbrev Time := BitVec 32

end Sys2Proof
end

