-- ==== Sys2Proof/Machine/Bits.lean ====
section
/-! DEFINITION. The block's arithmetic on bits: parity, frames, the sign extension of a movement, the bit fields of the op
word, the command bytes (R90, R91, R94, R95, R98, R99, R100). -/

namespace Sys2Proof

/-- `v[0] XOR … XOR v[7]` (R91). -/
def xorBits (v : Byte) : Bool :=
  v.getLsbD 0 ^^ v.getLsbD 1 ^^ v.getLsbD 2 ^^ v.getLsbD 3 ^^ v.getLsbD 4 ^^ v.getLsbD 5 ^^ v.getLsbD 6 ^^ v.getLsbD 7

/-- The odd parity bit P(v) = 1 XOR (v[0] XOR … XOR v[7]) (R91). -/
def oddParity (v : Byte) : Bool := !xorBits v

/-- The number of 1 bits of `v` (notation of 00_scope.md). -/
def popcount (v : Byte) : Nat :=
  (v.getLsbD 0).toNat + (v.getLsbD 1).toNat + (v.getLsbD 2).toNat + (v.getLsbD 3).toNat +
  (v.getLsbD 4).toNat + (v.getLsbD 5).toNat + (v.getLsbD 6).toNat + (v.getLsbD 7).toNat

/-- `sext9_16(s, m)`: the magnitude with bits 8 to 15 set to the sign (R98). -/
def sext9to16 (s : Bool) (m : Byte) : Movement :=
  if s then 0xFF#8 ++ m else 0x00#8 ++ m

/-- A frame from its slots: bit k is slot k, slot 0 the start slot (R90). -/
def frameOf (start : Bool) (v : Byte) (parity stop : Bool) : BitVec 11 :=
  BitVec.ofBool stop ++ (BitVec.ofBool parity ++ (v ++ BitVec.ofBool start))

/-- The well-formed frame of `v`: start 0, `v` least significant bit first, odd parity, stop 1 (R90). -/
def goodFrame (v : Byte) : BitVec 11 := frameOf false v (oddParity v) true

/-- Slots 1 to 8 of a frame as a byte: what RECEIVE_BYTE returns on the seen-low path (R93, R152). -/
def frameByte (slots : BitVec 11) : Byte := slots.extractLsb' 1 8

/-- Slots 0 to 7 of a frame as a byte: what RECEIVE_BYTE returns on the timed-out path (R152). -/
def lateByte (slots : BitVec 11) : Byte := slots.extractLsb' 0 8

/-- `v` with bit `i` written (the assembly of RX.4, R99, R149). -/
def writeBit (v : Byte) (i : Nat) (b : Bool) : Byte :=
  if b then v ||| (1#8 <<< i) else v &&& ~~~(1#8 <<< i)

/-- The op word `{code, arg}` (R100). -/
def opWord (code : BitVec 4) (arg : Byte) : BitVec 12 := code ++ arg

/-- The `code` field of an op word (R100). -/
def opCodeOf (op : BitVec 12) : BitVec 4 := op.extractLsb' 8 4

/-- The `arg` field of an op word (R100). -/
def opArgOf (op : BitVec 12) : Byte := op.extractLsb' 0 8

/-- Byte `i` of a word at a port. -/
def byteOf (w : BitVec 24) (i : Nat) : Byte := w.extractLsb' (8 * i) 8

/-- The ten bytes that the HOST sends of its own: the complete set, argument bytes apart (R94, R108). -/
def commandBytes : List Byte :=
  [0xFF#8, 0xF0#8, 0xEA#8, 0xE7#8, 0xE6#8, 0xE8#8, 0xF3#8, 0xF4#8, 0xF5#8, 0xEB#8]

/-- The command bytes that an argument byte follows (R95). -/
def takesArgument (c : Byte) : Bool := c == 0xE8#8 || c == 0xF3#8

end Sys2Proof
end

