-- ==== Sys2Proof/Config.lean ====
section
/-! DEFINITION. What an instantiation fixes (R7, R8), the input ports of the block (decision D1) and the free values of the
environment agents DEVICE, TIME and CALLER (R9). -/

namespace Sys2Proof

/-- The host's belief about the device's mode, and the construction argument `CFG_MODE` (R8, R23). -/
inductive Mode where
  | remote
  | stream
deriving DecidableEq, Repr, Inhabited

/-- `TIMEOUT_POLICY` (R8, R245, R250). -/
inductive TimeoutPolicy where
  | unbounded
  | bounded
deriving DecidableEq, Repr

/-- `TOGGLE_GUARD` (R8, R191, decision D16). -/
inductive ToggleGuard where
  | streamAndEnabled
  | streamOnly
deriving DecidableEq, Repr

/-- The parameters of one instantiation (R7, R8). A model takes each as an argument: `State.cfg` holds them and no step
writes them. -/
structure Params where
  tTxSettle     : Time
  tTxInhibit    : Time
  tTxStart      : Time
  tTxPost       : Time
  tRxSettle     : Time
  tRxSoft       : Time
  tRxSkew       : Time
  tInitPowerup  : Time
  tInitPostBat  : Time
  tInitFinal    : Time
  tModeSettle   : Time
  timeoutPolicy : TimeoutPolicy
  tTimeout      : Time
  toggleGuard   : ToggleGuard
deriving DecidableEq, Repr

/-- The document's literals (R7) and the default policies (R8). `T_TIMEOUT_US` is open and is not read under the default
policy: DESIGN CHOICE, log entry 2. -/
def Params.default : Params where
  tTxSettle     := 300#32
  tTxInhibit    := 300#32
  tTxStart      := 10#32
  tTxPost       := 50#32
  tRxSettle     := 50#32
  tRxSoft       := 25#32
  tRxSkew       := 5#32
  tInitPowerup  := 20000#32
  tInitPostBat  := 20000#32
  tInitFinal    := 100#32
  tModeSettle   := 100#32
  timeoutPolicy := .unbounded
  tTimeout      := 1000#32
  toggleGuard   := .streamAndEnabled

/-- Every wait is shorter than half the range of the counter, so that some later count ends it (R132; the bound is the
domain that the summary of decisions gives for `T_TIMEOUT_US`). -/
abbrev Params.Legal (p : Params) : Prop :=
  p.tTxSettle < 0x80000000#32 ∧ p.tTxInhibit < 0x80000000#32 ∧ p.tTxStart < 0x80000000#32 ∧
  p.tTxPost < 0x80000000#32 ∧ p.tRxSettle < 0x80000000#32 ∧ p.tRxSkew < 0x80000000#32 ∧
  p.tInitPowerup < 0x80000000#32 ∧ p.tInitPostBat < 0x80000000#32 ∧ p.tInitFinal < 0x80000000#32 ∧
  p.tModeSettle < 0x80000000#32

/-- The input ports at one rising edge of `clk_sys` (decision D1, R21). `devClock` and `devData` are the DEVICE's side of
the two lines: `true` when it leaves the line released, `false` when it pulls it low. -/
structure Sample where
  rst      : Bool
  cfgMode  : Mode
  nowUs    : Time
  devClock : Bool
  devData  : Bool
  opValid  : Bool
  op       : BitVec 12
deriving DecidableEq, Repr, Inhabited

/-- Ports with nothing presented, at time `t`: no reset, no op word, both lines released by the device. -/
def Sample.quietAt (t : Time) : Sample :=
  ⟨false, .remote, t, true, true, false, 0#12⟩

/-- What DEVICE, TIME and CALLER put on the ports at the `n`-th clock edge when `State.inputs` names no sample for it: a
free value of the environment (R9, U20; log entry 3). No proof can know anything of it. -/
opaque Config.freeSample : Nat → Sample

end Sys2Proof
end

