-- ==== Sys2Proof/Syntax.lean ====
section
/-! DEFINITION. The operations of the block: one constructor per row of spec/opcode_table.json, and the words that select
them. -/

namespace Sys2Proof

/-- Where a word of the opcode table stands: the table's "format" column, with the three responses and the two
pseudo-operations told apart (their position, not their bits, tells which one a byte is; R96, R107). -/
inductive Port where
  | op12         -- OP12: the op word of the CALLER (R100)
  | wireCmd8     -- WIRE_CMD8: a command byte to the device, then its argument byte (R94, R95)
  | respBat8     -- WIRE_RESP8 in the place of the BAT byte (R185)
  | respAck8     -- WIRE_RESP8 in the place of an ack byte (R190)
  | respId8      -- WIRE_RESP8 in the place of the device ID (R183)
  | frameH2D11   -- FRAME11, host to device (R92)
  | frameD2H11   -- FRAME11, device to host (R93)
  | report24     -- REPORT24 (R97)
  | tReq2        -- MICRO_TREQ2: t_req, then t_byte in the next byte (R103)
  | tState5      -- MICRO_TSTATE5: an entry of the flat transport sequencer (R103, R160)
  | decSel1      -- MICRO_DECSEL1: the decoder select (R103)
  | cmd8         -- PSEUDO_BYTE8: CMD(c) (R107)
  | toggled8     -- PSEUDO_BYTE8: CMD_TOGGLED(c) (R107, R191)
deriving DecidableEq, Repr

/-- A word at a port, bit 0 its least significant bit; bits the port does not have are 0. -/
structure PortWord where
  port : Port
  bits : BitVec 24
deriving DecidableEq, Repr

/-- The operations, in the opcode table's order. Every caller op carries the `arg` field of its op word, ignored where the
spec ignores it (R100). -/
inductive Instr where
  | initializeLink (arg : Byte)          -- INITIALIZE, R180
  | setRemoteMode (arg : Byte)           -- R193
  | setStreamMode (arg : Byte)           -- R194
  | setScaling21 (arg : Byte)            -- R195
  | setScaling11 (arg : Byte)            -- R196
  | setResolution (r : Byte)             -- R197
  | setSampleRate (n : Byte)             -- R198
  | enableDataReporting (arg : Byte)     -- R199
  | disableDataReporting (arg : Byte)    -- R200
  | report (arg : Byte)                  -- R220
  | reservedA (arg : Byte)               -- R104
  | reservedB (arg : Byte)
  | reservedC (arg : Byte)
  | reservedD (arg : Byte)
  | reservedE (arg : Byte)
  | reservedF (arg : Byte)
  | wireReset                            -- R94, R182
  | wireSetRemoteMode                    -- R94, R193
  | wireSetStreamMode                    -- R94, R194
  | wireSetScaling21                     -- R94, R195
  | wireSetScaling11                     -- R94, R196
  | wireSetResolution (r : Byte)         -- R94, R95, R197
  | wireSetSampleRate (n : Byte)         -- R94, R95, R198
  | wireEnableDataReporting              -- R94, R199
  | wireDisableDataReporting             -- R94, R200
  | wireReadData                         -- R94, R221
  | respBatPass                          -- R185
  | respAck (v : Byte)                   -- R190
  | respDeviceId (v : Byte)              -- R183
  | frameH2D (v : Byte) (parity : Bool)  -- R92
  | frameD2H (slots : BitVec 11)         -- R93, bit k is slot k
  | movementReport (status x y : Byte)   -- R97
  | transmitByte (v : Byte)              -- R136
  | receiveByte                          -- R146
  | readBit                              -- R153
  | decodeX                              -- R222
  | decodeY                              -- R223
  | cmd (c : Byte)                       -- R107, R190
  | cmdToggled (c : Byte)                -- R107, R191
deriving DecidableEq, Repr

end Sys2Proof
end

