-- ==== Sys2Proof/WellFormed.lean ====
section
/-! DEFINITION. Which terms of `Instr` are operations of the block. Operand ranges are carried by the types, but for two: the
parity slot of a host-to-device frame, and the command byte of the reporting toggle. -/

namespace Sys2Proof

/-- A host-to-device frame's slot 9 is the odd parity of its data slots (R91, R92); the byte of CMD_TOGGLED is a command of the
table (R94, R108, R191); every other term is well formed. -/
def Instr.wellFormed : Instr → Bool
  | .frameH2D v p => p == oddParity v
  | .cmdToggled c => decide (c ∈ commandBytes)
  | .initializeLink _ | .setRemoteMode _ | .setStreamMode _ | .setScaling21 _ | .setScaling11 _ | .setResolution _
  | .setSampleRate _ | .enableDataReporting _ | .disableDataReporting _ | .report _ => true
  | .reservedA _ | .reservedB _ | .reservedC _ | .reservedD _ | .reservedE _ | .reservedF _ => true
  | .wireReset | .wireSetRemoteMode | .wireSetStreamMode | .wireSetScaling21 | .wireSetScaling11 | .wireSetResolution _
  | .wireSetSampleRate _ | .wireEnableDataReporting | .wireDisableDataReporting | .wireReadData => true
  | .respBatPass | .respAck _ | .respDeviceId _ => true
  | .frameD2H _ | .movementReport _ _ _ => true
  | .transmitByte _ | .receiveByte | .readBit | .decodeX | .decodeY | .cmd _ => true

end Sys2Proof
end

