-- ==== Sys2Proof/Decode.lean ====
section
/-! DEFINITION. From the words at the ports to operations and back (30_encoding.md): `decode` is total and rejects by name;
`encode` is written from the same tables. -/

namespace Sys2Proof

/-- Why a word at a port is no operation. -/
inductive Reject where
  | strayBits            -- a bit is set that the port does not have
  | unknownWireCommand   -- a command byte outside R94: no operation sends it (R108)
  | strayArgument        -- an argument byte after a command that has none (R95)
  | notBatPass           -- a byte other than 0xAA in the row RESP_BAT_PASS (R185)
  | badStart             -- slot 0 of a host-to-device frame is not 0 (R90)
  | badParity            -- slot 9 of a host-to-device frame is not P(v) (R92)
  | badStop              -- slot 10 of a host-to-device frame is not 1 (R90)
  | noTransportRequest   -- t_req = 0b00: none (R103)
  | unusedTransportCode  -- t_req = 0b11: never generated (R103, U13)
  | notAnEntryState      -- a t_state code other than 14: no operation is entered there (R103)
deriving DecidableEq, Repr

/-- What the decoder answers. -/
inductive Decoded where
  | instr (i : Instr)
  | reject (r : Reject)
deriving DecidableEq, Repr

/-- The ten operations and the six reserved codes of the op word (R101, R104); `arg` is carried along. -/
def decodeOp (op : BitVec 12) : Instr :=
  let arg := opArgOf op
  match opCodeOf op with
  | 0x0#4 => .initializeLink arg
  | 0x1#4 => .setRemoteMode arg
  | 0x2#4 => .setStreamMode arg
  | 0x3#4 => .setScaling21 arg
  | 0x4#4 => .setScaling11 arg
  | 0x5#4 => .setResolution arg
  | 0x6#4 => .setSampleRate arg
  | 0x7#4 => .enableDataReporting arg
  | 0x8#4 => .disableDataReporting arg
  | 0x9#4 => .report arg
  | 0xA#4 => .reservedA arg
  | 0xB#4 => .reservedB arg
  | 0xC#4 => .reservedC arg
  | 0xD#4 => .reservedD arg
  | 0xE#4 => .reservedE arg
  | _ => .reservedF arg   -- 0xF, the one code left

/-- A command byte that takes no argument byte. -/
def noArgument (a : Byte) (i : Instr) : Decoded :=
  if a = 0#8 then .instr i else .reject .strayArgument

/-- The wire commands (R94): command byte `c`, next byte `a`. -/
def decodeWire (c a : Byte) : Decoded :=
  if c = 0xFF#8 then noArgument a .wireReset
  else if c = 0xF0#8 then noArgument a .wireSetRemoteMode
  else if c = 0xEA#8 then noArgument a .wireSetStreamMode
  else if c = 0xE7#8 then noArgument a .wireSetScaling21
  else if c = 0xE6#8 then noArgument a .wireSetScaling11
  else if c = 0xE8#8 then .instr (.wireSetResolution a)
  else if c = 0xF3#8 then .instr (.wireSetSampleRate a)
  else if c = 0xF4#8 then noArgument a .wireEnableDataReporting
  else if c = 0xF5#8 then noArgument a .wireDisableDataReporting
  else if c = 0xEB#8 then noArgument a .wireReadData
  else .reject .unknownWireCommand

/-- A host-to-device frame: start 0, stop 1 and the right parity (R90, R92). -/
def decodeFrameH2D (slots : BitVec 11) : Decoded :=
  if slots.getLsbD 0 then .reject .badStart
  else if !slots.getLsbD 10 then .reject .badStop
  else if slots.getLsbD 9 != oddParity (frameByte slots) then .reject .badParity
  else .instr (.frameH2D (frameByte slots) (slots.getLsbD 9))

/-- The internal select `t_req` with the operand `t_byte` (R103). RECEIVE_BYTE has no operand: that its word has `t_byte` = 0,
which R103 does not require, is DESIGN CHOICE, log entry 10. -/
def decodeTReq (req : BitVec 2) (tByte : Byte) : Decoded :=
  if req = 0b01#2 then .instr (.transmitByte tByte)
  else if req = 0b10#2 then noArgument tByte .receiveByte
  else if req = 0b00#2 then .reject .noTransportRequest
  else .reject .unusedTransportCode

/-- `k` if no bit of `w` from bit `n` on is set. -/
def within (n : Nat) (w : BitVec 24) (k : Decoded) : Decoded :=
  if w >>> n = 0#24 then k else .reject .strayBits

/-- The decoder. -/
def decode (w : PortWord) : Decoded :=
  match w.port with
  | .op12 => within 12 w.bits (.instr (decodeOp (w.bits.setWidth 12)))
  | .wireCmd8 => within 16 w.bits (decodeWire (byteOf w.bits 0) (byteOf w.bits 1))
  | .respBat8 => within 8 w.bits (if byteOf w.bits 0 = 0xAA#8 then .instr .respBatPass else .reject .notBatPass)
  | .respAck8 => within 8 w.bits (.instr (.respAck (byteOf w.bits 0)))
  | .respId8 => within 8 w.bits (.instr (.respDeviceId (byteOf w.bits 0)))
  | .frameH2D11 => within 11 w.bits (decodeFrameH2D (w.bits.setWidth 11))
  | .frameD2H11 => within 11 w.bits (.instr (.frameD2H (w.bits.setWidth 11)))
  | .report24 => .instr (.movementReport (byteOf w.bits 0) (byteOf w.bits 1) (byteOf w.bits 2))
  | .tReq2 =>
    if w.bits.extractLsb' 2 6 = 0#6 then
      within 16 w.bits (decodeTReq (w.bits.setWidth 2) (byteOf w.bits 1))
    else .reject .strayBits
  | .tState5 => within 5 w.bits (if w.bits.setWidth 5 = 14#5 then .instr .readBit else .reject .notAnEntryState)
  | .decSel1 => within 1 w.bits (if w.bits.getLsbD 0 then .instr .decodeY else .instr .decodeX)
  | .cmd8 => within 8 w.bits (.instr (.cmd (byteOf w.bits 0)))
  | .toggled8 =>
    within 8 w.bits
      (if byteOf w.bits 0 ∈ commandBytes then .instr (.cmdToggled (byteOf w.bits 0)) else .reject .unknownWireCommand)

/-- An op word at the op port (R100, R101). -/
def opPortWord (code : BitVec 4) (arg : Byte) : PortWord := ⟨.op12, (opWord code arg).setWidth 24⟩

/-- One byte at a port. -/
def bytePortWord (p : Port) (v : Byte) : PortWord := ⟨p, v.setWidth 24⟩

/-- A wire command byte and its argument byte (R95). -/
def wirePortWord (c a : Byte) : PortWord := ⟨.wireCmd8, (a ++ c).setWidth 24⟩

/-- The encoder: the word of a well-formed operation, from the tables of R90, R94, R97, R101, R103. -/
def encode : Instr → PortWord
  | .initializeLink a => opPortWord 0x0#4 a
  | .setRemoteMode a => opPortWord 0x1#4 a
  | .setStreamMode a => opPortWord 0x2#4 a
  | .setScaling21 a => opPortWord 0x3#4 a
  | .setScaling11 a => opPortWord 0x4#4 a
  | .setResolution r => opPortWord 0x5#4 r
  | .setSampleRate n => opPortWord 0x6#4 n
  | .enableDataReporting a => opPortWord 0x7#4 a
  | .disableDataReporting a => opPortWord 0x8#4 a
  | .report a => opPortWord 0x9#4 a
  | .reservedA a => opPortWord 0xA#4 a
  | .reservedB a => opPortWord 0xB#4 a
  | .reservedC a => opPortWord 0xC#4 a
  | .reservedD a => opPortWord 0xD#4 a
  | .reservedE a => opPortWord 0xE#4 a
  | .reservedF a => opPortWord 0xF#4 a
  | .wireReset => wirePortWord 0xFF#8 0#8
  | .wireSetRemoteMode => wirePortWord 0xF0#8 0#8
  | .wireSetStreamMode => wirePortWord 0xEA#8 0#8
  | .wireSetScaling21 => wirePortWord 0xE7#8 0#8
  | .wireSetScaling11 => wirePortWord 0xE6#8 0#8
  | .wireSetResolution r => wirePortWord 0xE8#8 r
  | .wireSetSampleRate n => wirePortWord 0xF3#8 n
  | .wireEnableDataReporting => wirePortWord 0xF4#8 0#8
  | .wireDisableDataReporting => wirePortWord 0xF5#8 0#8
  | .wireReadData => wirePortWord 0xEB#8 0#8
  | .respBatPass => bytePortWord .respBat8 0xAA#8
  | .respAck v => bytePortWord .respAck8 v
  | .respDeviceId v => bytePortWord .respId8 v
  | .frameH2D v p => ⟨.frameH2D11, (frameOf false v p true).setWidth 24⟩
  | .frameD2H f => ⟨.frameD2H11, f.setWidth 24⟩
  | .movementReport st x y => ⟨.report24, y ++ (x ++ st)⟩
  | .transmitByte v => ⟨.tReq2, (v ++ 0b01#8).setWidth 24⟩
  | .receiveByte => ⟨.tReq2, 0b10#24⟩
  | .readBit => ⟨.tState5, 14#24⟩
  | .decodeX => ⟨.decSel1, 0#24⟩
  | .decodeY => ⟨.decSel1, 1#24⟩
  | .cmd c => bytePortWord .cmd8 c
  | .cmdToggled c => bytePortWord .toggled8 c

/-- The port at which a table word of `nbits` bits stands (log entry 10). The table's rows stand at different ports, and
the same number is a word of several: an op word has 12 bits (16 in whole bytes); of the byte-wide rows the wire commands
(R94), the BAT byte and then the select codes are told apart by their values, and any other byte is an ack byte. -/
def tablePort (nbits w : Nat) : Option Port :=
  match nbits with
  | 1 => some .decSel1
  | 2 => some .tReq2
  | 5 => some .tState5
  | 8 =>
    if w ∈ [0xFF, 0xF0, 0xEA, 0xE7, 0xE6, 0xE8, 0xF3, 0xF4, 0xF5, 0xEB] then some .wireCmd8
    else if w = 0xAA then some .respBat8
    else if w ∈ [1, 2] then some .tReq2
    else if w = 14 then some .tState5
    else if w = 0 then some .decSel1
    else some .respAck8
  | 11 => some .frameD2H11
  | 12 => some .op12
  | 16 => some .op12
  | 24 => some .report24
  | _ => none

/-- The word at its port, if the number fits the table's bits. -/
def tableWord (nbits w : Nat) : Option PortWord :=
  if w < 2 ^ nbits then (tablePort nbits w).map (fun p => ⟨p, BitVec.ofNat 24 w⟩) else none

/-- The operation the decoder reads from a row's bits, numbered as the opcode table numbers them. -/
def decodeTableWord (nbits w : Nat) : Option Instr :=
  match tableWord nbits w with
  | none => none
  | some pw =>
    match decode pw with
    | .instr i => some i
    | .reject _ => none

end Sys2Proof
end

