-- ==== Sys2Proof/Machine/State.lean ====
section
/-! DEFINITION. The state of the block (10_state.md), the reasons a step can stop, and the state after reset (R34). -/

namespace Sys2Proof.Machine

/-- The two lines, selected by role (R61). -/
inductive Line where
  | clock
  | data
deriving DecidableEq, Repr

/-- The two drive states of a line: released, driven low. The host never drives a line high (R22). -/
inductive Drv where
  | rel
  | low
deriving DecidableEq, Repr

/-- `err[1:0]` (R27): code 3 does not exist (U13). -/
inductive ErrCode where
  | none
  | timeout
  | illegalOp
deriving DecidableEq, Repr

/-- A byte on the wire (R106): sent by the host (one TRANSMIT_BYTE) or received by it (one RECEIVE_BYTE). -/
inductive WireEvent where
  | h2d (v : Byte)
  | d2h (v : Byte)
deriving DecidableEq, Repr

/-- The two movements of a report (R97). -/
inductive Axis where
  | x
  | y
deriving DecidableEq, Repr

/-- Positions of TRANSMIT_BYTE: the states 1 to 8 of R160, named after the steps TX.1 to TX.8. -/
inductive TxPos where
  | settle     -- TX.1, code 1
  | inhibit    -- TX.2, code 2
  | start      -- TX.3, code 3
  | grant      -- TX.4, code 4
  | slotLow    -- TX.5 to TX.7, first wait of a ClockCycle, code 5
  | slotHigh   -- TX.5 to TX.7, second wait of a ClockCycle, code 6
  | post       -- TX.8, code 7
  | ack        -- TX.8, code 8
deriving DecidableEq, Repr

/-- Positions of RECEIVE_BYTE: the states 10 to 13 of R160, and the place where a READ_BIT returns (RX.4, RX.5). -/
inductive RxPos where
  | settle     -- RX.1, code 10
  | soft       -- RX.2, code 11
  | skew       -- RX.3, code 12
  | eat        -- RX.3, code 13
  | bit        -- RX.4, RX.5: a READ_BIT is running
deriving DecidableEq, Repr

/-- Positions of READ_BIT: RB.1 to RB.3, the states 14 to 16 of R160. -/
inductive RbPos where
  | waitLow    -- RB.1, code 14
  | sample     -- RB.2, code 15
  | waitHigh   -- RB.3, code 16
deriving DecidableEq, Repr

/-- Positions of INITIALIZE (R180): a `Wait`, or the place where a call returns. -/
inductive InitPos where
  | powerup        -- INIT.1, the wait
  | afterReset     -- INIT.2, TRANSMIT_BYTE(0xFF) is running
  | afterAck       -- INIT.2, RECEIVE_BYTE of the ack is running
  | afterBat       -- INIT.3, RECEIVE_BYTE of the BAT byte is running
  | afterId        -- INIT.3, RECEIVE_BYTE of the device ID is running
  | postBat        -- INIT.4, the wait
  | afterSetUp     -- INIT.6, the called operation is running
  | final          -- INIT.7, the wait
deriving DecidableEq, Repr

/-- Positions of SET_REMOTE_MODE and SET_STREAM_MODE (R193, R194). -/
inductive ModePos where
  | afterHelper    -- CMD_TOGGLED is running
  | settle         -- the wait of R192
deriving DecidableEq, Repr

/-- Positions of CMD_TOGGLED (R191). -/
inductive ToggledPos where
  | afterSuspend   -- H.2, DISABLE_DATA_REPORTING is running
  | afterCommand   -- H.3, TRANSMIT_BYTE is running
  | afterAck       -- H.3, RECEIVE_BYTE is running
  | afterResume    -- H.4, ENABLE_DATA_REPORTING is running
deriving DecidableEq, Repr

/-- Positions of SET_RESOLUTION and SET_SAMPLE_RATE (R197, R198). -/
inductive ArgPos where
  | afterFirstToggle   -- S.2
  | afterCommand       -- S.3, TRANSMIT_BYTE is running
  | afterCommandAck    -- S.3, RECEIVE_BYTE is running
  | afterArgument      -- S.4, TRANSMIT_BYTE is running
  | afterArgumentAck   -- S.4, RECEIVE_BYTE is running
  | afterLastToggle    -- S.5
deriving DecidableEq, Repr

/-- Positions of `CMD(c)`: what ENABLE_ and DISABLE_DATA_REPORTING consist of as well (R190, R199, R200). -/
inductive CmdPos where
  | afterByte      -- TRANSMIT_BYTE is running
  | afterAck       -- RECEIVE_BYTE is running
deriving DecidableEq, Repr

/-- Positions of REPORT (R220). -/
inductive ReportPos where
  | afterPoll      -- RP.1, TRANSMIT_BYTE(0xEB) is running
  | afterPollAck   -- RP.1, RECEIVE_BYTE of the ack is running
  | afterStatus    -- RP.2
  | afterX         -- RP.3, DECODE_X is running
  | afterY         -- RP.4, DECODE_Y is running
deriving DecidableEq, Repr

/-- One frame of the sequencer's stack (R28): an operation and its position. `cmd`, `cmdThenArg` and `batResponse`
stand on the stack only when a pseudo-operation, a wire command or a response runs on its own (log entries 5, 7, 8). -/
inductive Frame where
  | initLink (p : InitPos)
  | setRemoteMode (p : ModePos)
  | setStreamMode (p : ModePos)
  | setScaling21
  | setScaling11
  | setResolution (p : ArgPos)
  | setSampleRate (p : ArgPos)
  | enableReporting (p : CmdPos)
  | disableReporting (p : CmdPos)
  | report (p : ReportPos)
  | toggled (c : Byte) (p : ToggledPos)
  | decode (a : Axis)
  | transmit (p : TxPos)
  | receive (p : RxPos)
  | readBit (p : RbPos)
  | cmd (p : CmdPos)
  | cmdThenArg (a : Byte) (p : CmdPos)
  | batResponse
deriving DecidableEq, Repr

/-- Why the machine stops. -/
inductive Fault where
  /-- `bitidx` holds 10 to 15 where a frame slot ends, a code the spec never generates (U13). Raised by the slot steps of
  TRANSMIT_BYTE and RECEIVE_BYTE. Safe: no state that the invariant admits raises it. -/
  | unusedBitidx
deriving DecidableEq, Repr

/-- Why an operation is given no meaning. -/
inductive Refusal where
  /-- An instruction whose meaning is not written. Raised by `exec` only. Safe. -/
  | notModelled (mnemonic : String)
  /-- The word at a port is no operation (R103, R108, U10, U13). Raised by `step` for a select word the decoder rejects.
  Safe: nothing of the machine raises such a word. -/
  | noSuchWord (r : Reject)
  /-- A host-to-device frame with the wrong parity slot, which TRANSMIT_BYTE never produces (R92). Raised by
  `execFrameH2D`. Safe: the decoder never answers such a term. -/
  | notAHostFrame
  /-- A byte that is no command of the table, and no argument of one that waits for it: no operation sends it (R94, R108, U10).
  Raised by `execCmd` and `execCmdToggled`. Safe: no caller operation passes such a byte. -/
  | unsentCommand (c : Byte)
deriving DecidableEq, Repr

/-- The state. INVENTORY.md lists every field with its rule and its reset value. -/
@[ext]
structure State where
  clockDrv         : Drv                  -- R22
  dataDrv          : Drv                  -- R22
  mode             : Mode                 -- R23
  initialized      : Bool                 -- R24
  reportingEnabled : Bool                 -- R25
  sh               : Byte                 -- R26
  par              : Bool                 -- R26
  bitidx           : BitVec 4             -- R26
  samp             : Bool                 -- R26
  arg              : Byte                 -- R27
  bat              : Byte                 -- R27
  status           : Byte                 -- R27
  mag              : Byte                 -- R27
  dx               : Movement             -- R27
  dy               : Movement             -- R27
  ok               : Bool                 -- R27
  err              : ErrCode              -- R27
  stack            : List Frame           -- R28, innermost frame first
  opCode           : Option (BitVec 4)    -- R28
  busy             : Bool                 -- R29
  resumeLatch      : Bool                 -- R30
  t0               : Time                 -- R32
  tResult          : Byte                 -- R103, R160
  cfg              : Params               -- R7, R8
  pins             : Sample               -- R21, decision D1
  inputs           : List Sample          -- the model's own, log entry 3
  clk              : Nat                  -- the model's own, log entry 3
  sel              : Option PortWord      -- the model's own, log entry 5
  wire             : List WireEvent       -- the model's own, log entry 11, newest first
  drives           : List (Line × Drv)    -- the model's own, log entry 11, newest first
deriving DecidableEq, Repr

/-- The state after reset (R34) of an instantiation `p` constructed with mode `m`. Registers the spec gives no reset value
are 0: DESIGN CHOICE, log entry 1. -/
def State.afterReset (p : Params) (m : Mode) : State where
  clockDrv         := .rel
  dataDrv          := .rel
  mode             := m
  initialized      := false
  reportingEnabled := false
  sh               := 0#8
  par              := false
  bitidx           := 0#4
  samp             := false
  arg              := 0#8
  bat              := 0#8
  status           := 0#8
  mag              := 0#8
  dx               := 0#16
  dy               := 0#16
  ok               := false
  err              := .none
  stack            := []
  opCode           := none
  busy             := false
  resumeLatch      := false
  t0               := 0#32
  tResult          := 0#8
  cfg              := p
  pins             := Sample.quietAt 0#32
  inputs           := []
  clk              := 0
  sel              := none
  wire             := []
  drives           := []

/-- The machine right after reset: default parameters, constructed with `CFG_MODE` = Remote (DESIGN CHOICE, log
entry 2). -/
def State.reset : State := State.afterReset Params.default .remote

end Sys2Proof.Machine
end

