-- ==== Sys2Proof/Machine/Ops.lean ====
section
/-! DEFINITION. The named operations on lines, time and the sequencer (40_transport.md section 1, R28), the ends of an
operation (R102, R250, R251) and reset (R280). -/

namespace Sys2Proof.Machine

/-- The host drive state of a line (R22). -/
def State.drv (s : State) : Line → Drv
  | .clock => s.clockDrv
  | .data => s.dataDrv

/-- What the DEVICE does to a line now: `true` leaves it released (R21). -/
def State.dev (s : State) : Line → Bool
  | .clock => s.pins.devClock
  | .data => s.pins.devData

/-- `Drive(L, d)` (R130). -/
def drive (l : Line) (d : Drv) (s : State) : State :=
  match l with
  | .clock => { s with clockDrv := d, drives := (.clock, d) :: s.drives }
  | .data => { s with dataDrv := d, drives := (.data, d) :: s.drives }

/-- The drive state of a slot value: 1 releases, 0 drives low (R130). -/
def bitDrv (b : Bool) : Drv := if b then .rel else .low

/-- `DriveBit(L, b)` (R130). -/
def driveBit (l : Line) (b : Bool) (s : State) : State := drive l (bitDrv b) s

/-- `Level(L)`: 0 while the host drives the line low, else what the device does to it (R131, decision D15). -/
def level (l : Line) (s : State) : Bool :=
  match s.drv l with
  | .low => false
  | .rel => s.dev l

/-- `Now()` (R132). -/
def now (s : State) : Time := s.pins.nowUs

/-- `(Now() − t0) mod 2^W_TIME` (R132). -/
def elapsed (s : State) : Time := now s - s.t0

/-- `t0 <- Now()` (R32, R132). -/
def armTimer (s : State) : State := { s with t0 := now s }

/-- The capture at entry to a `WaitWhile`, made under the Bounded policy only (R32, R250). -/
def armPoll (s : State) : State :=
  match s.cfg.timeoutPolicy with
  | .unbounded => s
  | .bounded => armTimer s

/-- What one position of an operation comes to at one clock edge. -/
inductive Ctl where
  | block (fs : List Frame)   -- the operation goes on at these frames, innermost first
  | ret                       -- `return`: the caller continues at its next step within the same edge
  | hold                      -- `return` of a byte exchange: the caller continues at the next edge (R160: T_IDLE)
  | timeout                   -- `raise Timeout` (R250)
  | unused                    -- a code the spec never generates (U13)
deriving DecidableEq, Repr

/-- The state an operation's step leaves and how it goes on. -/
abbrev Ran := State × Ctl

/-- Stay at or go to a position. -/
def goto (f : Frame) (s : State) : Ran := (s, .block [f])

/-- Entry of a `Wait` or of RX.2: `t0 <- Now()` (R132, R147). -/
def enterWait (f : Frame) (s : State) : Ran := goto f (armTimer s)

/-- Entry of a `WaitWhile` (R133). -/
def enterPoll (f : Frame) (s : State) : Ran := goto f (armPoll s)

/-- `Wait(n)` at one edge: it stays while the elapsed time is at most `n` (R132). -/
def waitThen (n : Time) (f : Frame) (k : State → Ran) (s : State) : Ran :=
  if elapsed s ≤ n then goto f s else k s

/-- The limit of the Bounded policy has passed (R250). -/
def expired (s : State) : Bool :=
  match s.cfg.timeoutPolicy with
  | .unbounded => false
  | .bounded => decide (s.cfg.tTimeout < elapsed s)

/-- `WaitWhile(c)` at one poll: the awaited level wins, then the limit, else it stays (R133, R247, R250). -/
def pollThen (c : Bool) (f : Frame) (k : State → Ran) (s : State) : Ran :=
  if c then (if expired s then (s, .timeout) else goto f s) else k s

/-- `call Op` (R28): the callee's first step runs at once; `f` is where the caller stands meanwhile, `k` what it does if
the callee has already returned. -/
def callThen (callee : State → Ran) (f : Frame) (k : State → Ran) (s : State) : Ran :=
  match callee s with
  | (s', .block fs) => (s', .block (fs ++ [f]))
  | (s', .ret) => k s'
  | (s', .hold) => (s', .block [f])
  | (s', .timeout) => (s', .timeout)
  | (s', .unused) => (s', .unused)

/-- `return` from the outermost operation: `busy` falls; `err` is 0 on the normal completion of a caller op (R29, R102). -/
def opEnd (s : State) : State :=
  { s with
    stack := []
    busy := false
    opCode := none
    err := match s.opCode with
      | some _ => .none
      | none => s.err }

/-- `raise Timeout` (R250): the bus-hold state, the whole stack abandoned, `err <- 1`, `ok <- 0` if the caller op is
INITIALIZE, `busy <- 0`, nothing else written. -/
def raiseTimeout (s : State) : State :=
  let s := drive .clock .low (drive .data .rel s)
  { s with
    stack := []
    busy := false
    opCode := none
    err := .timeout
    ok := if s.opCode = some 0x0#4 then false else s.ok }

/-- An op word with a reserved code (R104, R251): `err <- 2` and nothing else. -/
def illegalOp (s : State) : State := { s with err := .illegalOp }

/-- `rst` at a clock edge (R280): the state of R34 with `mode` = `cfg_mode`. The parameters, the queued samples and the
edge count are not the block's to reset. -/
def resetEdge (s : State) : State :=
  { State.afterReset s.cfg s.pins.cfgMode with
    pins := s.pins
    inputs := s.inputs
    clk := s.clk }

/-- A clock edge samples the input ports (decision D2). -/
def sampled (x : Sample) (s : State) : State := { s with pins := x, clk := s.clk + 1 }

/-- The sample of the next clock edge and the samples after it: the queue's first, or the free value (log entry 3). -/
def nextSample (s : State) : Sample × List Sample :=
  match s.inputs with
  | [] => (Config.freeSample s.clk, [])
  | x :: xs => (x, xs)

/-- Record a byte exchange in the wire log (log entry 11). -/
def logWire (e : WireEvent) (s : State) : State := { s with wire := e :: s.wire }

/-- Codes of `err` on `res_err` (R27). -/
def ErrCode.code : ErrCode → BitVec 2
  | .none => 0#2
  | .timeout => 1#2
  | .illegalOp => 2#2

/-- 1 bit of `mode`: 0 Remote, 1 Stream (R23). -/
def modeBit : Mode → Bool
  | .remote => false
  | .stream => true

/-- The output ports (decision D1, R102). -/
structure Outputs where
  ps2ClkLow     : Bool
  ps2DatLow     : Bool
  opReady       : Bool
  busy          : Bool
  resOk         : Bool
  resStatus     : Byte
  resDx         : Movement
  resDy         : Movement
  resErr        : BitVec 2
  stMode        : Bool
  stInitialized : Bool
  stReporting   : Bool
deriving DecidableEq, Repr

/-- What the output ports show (R22, R102, R105). The result fields are valid while `busy` = 0. -/
def State.outputs (s : State) : Outputs where
  ps2ClkLow     := s.clockDrv == .low
  ps2DatLow     := s.dataDrv == .low
  opReady       := !s.busy
  busy          := s.busy
  resOk         := s.ok
  resStatus     := s.status
  resDx         := s.dx
  resDy         := s.dy
  resErr        := s.err.code
  stMode        := modeBit s.mode
  stInitialized := s.initialized
  stReporting   := s.reportingEnabled

/-- The flat transport code `t_state` of R160; 0 (T_IDLE) while no transport step is the innermost. The states 9 (TX8_HOLD) and
17 (RX6_HOLD) have no position: their one action and the return are made at the edge that leaves 8 and 16, so those codes
never show. DESIGN CHOICE, log entry 6. -/
def State.tState (s : State) : BitVec 5 :=
  match s.stack with
  | .transmit .settle :: _ => 1#5
  | .transmit .inhibit :: _ => 2#5
  | .transmit .start :: _ => 3#5
  | .transmit .grant :: _ => 4#5
  | .transmit .slotLow :: _ => 5#5
  | .transmit .slotHigh :: _ => 6#5
  | .transmit .post :: _ => 7#5
  | .transmit .ack :: _ => 8#5
  | .receive .settle :: _ => 10#5
  | .receive .soft :: _ => 11#5
  | .receive .skew :: _ => 12#5
  | .receive .eat :: _ => 13#5
  | .readBit .waitLow :: _ => 14#5
  | .readBit .sample :: _ => 15#5
  | .readBit .waitHigh :: _ => 16#5
  | _ => 0#5

end Sys2Proof.Machine
end

