-- ==== Sys2Proof/Machine/Flags.lean ====
section
/-! DEFINITION. The flag-like bits: the running parity, the toggle guard and its latch, the control bits (R23 to R26, R30,
R191). -/

namespace Sys2Proof.Machine

/-- `par <- par ^ b` (R140). -/
def accumulateParity (b : Bool) (s : State) : State := { s with par := s.par ^^ b }

/-- The guard G of the reporting toggle (R191; the alternative of `TOGGLE_GUARD`, decision D16). -/
def guardG (s : State) : Bool :=
  match s.cfg.toggleGuard with
  | .streamAndEnabled => s.mode == .stream && s.reportingEnabled
  | .streamOnly => s.mode == .stream

/-- `resume_latch <- G` (R30, R191). -/
def latchGuard (s : State) : State := { s with resumeLatch := guardG s }

/-- `mode <- m` (R193, R194). -/
def setMode (m : Mode) (s : State) : State := { s with mode := m }

/-- `reporting_enabled <- b` (R199, R200). -/
def setReporting (b : Bool) (s : State) : State := { s with reportingEnabled := b }

/-- `ok <- 0` (R185). -/
def failInit (s : State) : State := { s with ok := false }

/-- `initialized <- 1; ok <- 1` (R187). -/
def passInit (s : State) : State := { s with initialized := true, ok := true }

end Sys2Proof.Machine
end

