-- ==== Sys2Proof/Machine/Operands.lean ====
section
/-! DEFINITION. Where operands come from and results go: the argument latch, the slot value a transmit step drives, the bit a
receive step writes, the bytes the protocol layer keeps (R26, R27, R98, R99). -/

namespace Sys2Proof.Machine

/-- `arg` latched from the op word of SET_RESOLUTION and SET_SAMPLE_RATE (R27, R100). -/
def latchArg (v : Byte) (s : State) : State := { s with arg := v }

/-- `sh <- v; par <- 0`: TX.1 loads the byte to send (R26, R137). -/
def loadByte (v : Byte) (s : State) : State := { s with sh := v, par := false }

/-- `sh <- 0x00`: RX.1 clears the byte to assemble (R146). -/
def clearByte (s : State) : State := { s with sh := 0#8 }

/-- `bitidx <- i`. -/
def setBitidx (i : BitVec 4) (s : State) : State := { s with bitidx := i }

/-- `samp <- Level(Data)`: RB.2 (R153). -/
def takeSample (s : State) : State := { s with samp := level .data s }

/-- The sample of a READ_BIT goes to `sh[bitidx]` in slots 0 to 7 and nowhere in slots 8 and 9 (R149, R150). -/
def storeSample (s : State) : State :=
  if s.bitidx < 8#4 then { s with sh := writeBit s.sh s.bitidx.toNat s.samp } else s

/-- `t_result <- sh`: RX.6 (R151, R160). -/
def returnByte (s : State) : State := { s with tResult := s.sh }

/-- `bat <- call RECEIVE_BYTE()`: INIT.3 (R183). -/
def keepBat (s : State) : State := { s with bat := s.tResult }

/-- `status <- call RECEIVE_BYTE()`: RP.2 (R220). -/
def keepStatus (s : State) : State := { s with status := s.tResult }

/-- The sign bit of an axis: `status[4]` for X, `status[5]` for Y (R97, R222, R223). -/
def signOf (a : Axis) (status : Byte) : Bool :=
  match a with
  | .x => status.getLsbD 4
  | .y => status.getLsbD 5

/-- `mag <- call RECEIVE_BYTE(); dx` (or `dy`) `<- sext9_16(sign, mag)` (R222, R223). -/
def keepMovement (a : Axis) (s : State) : State :=
  match a with
  | .x => { s with mag := s.tResult, dx := sext9to16 (signOf .x s.status) s.tResult }
  | .y => { s with mag := s.tResult, dy := sext9to16 (signOf .y s.status) s.tResult }

/-- A command that takes an argument has been sent and its ack received, and no argument byte since: the bytes exchanged so
far, newest first (R95; log entry 21). -/
def argumentDueAfter (es : List WireEvent) : Bool :=
  match es with
  | .d2h _ :: .h2d c :: es => takesArgument c && !argumentDueAfter es
  | _ => false

/-- The next byte to the device is the argument of 0xE8 or 0xF3 (R95). -/
def argumentDue (s : State) : Bool := argumentDueAfter s.wire

end Sys2Proof.Machine
end

