-- ==== Sys2Proof/Machine/Transport.lean ====
section
/-! DEFINITION. The steps of the transport micro-operations TRANSMIT_BYTE, RECEIVE_BYTE and READ_BIT (40_transport.md). Each
`…Start` is the first step of a call; each `…Step` is one clock edge at a position, with the entry of the position it goes to
(the grouping of R160). -/

namespace Sys2Proof.Machine

/-- TX.1: `sh <- v; par <- 0; Drive(Data, Rel); Drive(Clock, Rel); Wait(T_TX_SETTLE)` (R137). -/
def transmitStart (v : Byte) (s : State) : Ran :=
  enterWait (.transmit .settle) (drive .clock .rel (drive .data .rel (loadByte v s)))

/-- What the host puts on Data for the slot `bitidx` names: a data bit with the parity it adds (TX.5), the parity bit (TX.6),
the released stop bit (TX.7) (R140 to R142). -/
def driveSlot (s : State) : State :=
  if s.bitidx < 8#4 then
    let b := s.sh.getLsbD s.bitidx.toNat
    accumulateParity b (driveBit .data b s)
  else if s.bitidx = 8#4 then driveBit .data (!s.par) s
  else drive .data .rel s

/-- Enter slot `i`: drive Data, then wait for Clock low (R140). -/
def enterSlot (i : BitVec 4) (s : State) : Ran :=
  enterPoll (.transmit .slotLow) (driveSlot (setBitidx i s))

/-- After the rising edge that ends a slot: the next slot, or the acknowledge after slot 9 (R140 to R143). -/
def nextSlot (s : State) : Ran :=
  if s.bitidx < 9#4 then enterSlot (s.bitidx + 1#4) s
  else if s.bitidx = 9#4 then enterWait (.transmit .post) s
  else (s, .unused)

/-- The acknowledge has been seen: `Drive(Clock, Low); return` (R143). -/
def transmitDone (s : State) : Ran :=
  (logWire (.h2d s.sh) (drive .clock .low s), .hold)

/-- One edge of TRANSMIT_BYTE (R136 to R143). -/
def transmitStep (p : TxPos) (s : State) : Ran :=
  match p with
  | .settle =>
    waitThen s.cfg.tTxSettle (.transmit .settle)
      (fun s => enterWait (.transmit .inhibit) (drive .clock .low s)) s
  | .inhibit =>
    waitThen s.cfg.tTxInhibit (.transmit .inhibit)
      (fun s => enterWait (.transmit .start) (drive .data .low s)) s
  | .start =>
    waitThen s.cfg.tTxStart (.transmit .start)
      (fun s => enterPoll (.transmit .grant) (drive .clock .rel s)) s
  | .grant => pollThen (level .clock s) (.transmit .grant) (enterSlot 0#4) s
  | .slotLow => pollThen (level .clock s) (.transmit .slotLow) (enterPoll (.transmit .slotHigh)) s
  | .slotHigh => pollThen (!level .clock s) (.transmit .slotHigh) nextSlot s
  | .post => waitThen s.cfg.tTxPost (.transmit .post) (enterPoll (.transmit .ack)) s
  | .ack => pollThen (level .clock s || level .data s) (.transmit .ack) transmitDone s

/-- READ_BIT's first step: RB.1 (R153). -/
def readBitStart (s : State) : Ran := enterPoll (.readBit .waitLow) s

/-- One edge of READ_BIT: RB.1, RB.2 (in the step after the poll that saw Clock low), RB.3, RB.4 (R153, decision D14). -/
def readBitStep (p : RbPos) (s : State) : Ran :=
  match p with
  | .waitLow => pollThen (level .clock s) (.readBit .waitLow) (goto (.readBit .sample)) s
  | .sample => enterPoll (.readBit .waitHigh) (takeSample s)
  | .waitHigh => pollThen (!level .clock s) (.readBit .waitHigh) (fun s => (s, .ret)) s

/-- `call READ_BIT()` for slot `i` of RX.4 and RX.5 (R149, R150). -/
def readSlot (i : BitVec 4) (s : State) : Ran :=
  callThen readBitStart (.receive .bit) (fun s => (s, .ret)) (setBitidx i s)

/-- RX.6: `Drive(Clock, Low); return sh` (R151). -/
def receiveDone (s : State) : Ran :=
  (logWire (.d2h s.sh) (returnByte (drive .clock .low s)), .hold)

/-- A READ_BIT has returned: its bit is stored, and the next slot is read or the byte is complete (R149 to R151). -/
def slotRead (s : State) : Ran :=
  if s.bitidx < 9#4 then readSlot (s.bitidx + 1#4) (storeSample s)
  else if s.bitidx = 9#4 then receiveDone s
  else (s, .unused)

/-- RX.1: `sh <- 0x00; Drive(Clock, Rel); Drive(Data, Rel); Wait(T_RX_SETTLE)` (R146). -/
def receiveStart (s : State) : Ran :=
  enterWait (.receive .settle) (drive .data .rel (drive .clock .rel (clearByte s)))

/-- One edge of RECEIVE_BYTE (R146 to R151). RX.2 leaves by either exit to the same place and records neither (R147). -/
def receiveStep (p : RxPos) (s : State) : Ran :=
  match p with
  | .settle => waitThen s.cfg.tRxSettle (.receive .settle) (enterWait (.receive .soft)) s
  | .soft =>
    if level .clock s && decide (elapsed s < s.cfg.tRxSoft) then goto (.receive .soft) s
    else enterWait (.receive .skew) s
  | .skew => waitThen s.cfg.tRxSkew (.receive .skew) (enterPoll (.receive .eat)) s
  | .eat => pollThen (!level .clock s) (.receive .eat) (readSlot 0#4) s
  | .bit => slotRead s

/-- `call TRANSMIT_BYTE(v)`; the caller stands at `f` meanwhile. -/
def callTransmit (v : Byte) (f : Frame) (s : State) : Ran :=
  callThen (transmitStart v) f (fun s => (s, .ret)) s

/-- `call RECEIVE_BYTE()`; the caller stands at `f` meanwhile. -/
def callReceive (f : Frame) (s : State) : Ran :=
  callThen receiveStart f (fun s => (s, .ret)) s

end Sys2Proof.Machine
end

