-- ==== Sys2Proof/Machine/Configure.lean ====
section
/-! DEFINITION. The steps of the mode and configuration commands and of the helpers they share (42_config.md). -/

namespace Sys2Proof.Machine

/-- `return`. -/
def return' (s : State) : Ran := (s, .ret)

/-- ENABLE_DATA_REPORTING: nothing at all if reporting is enabled, else `CMD(0xF4)` (R199). -/
def enableStart (s : State) : Ran :=
  if s.reportingEnabled then return' s else callTransmit 0xF4#8 (.enableReporting .afterByte) s

/-- The rest of ENABLE_DATA_REPORTING: the ack byte, then the flag (R199, decision D17). -/
def enableStep (p : CmdPos) (s : State) : Ran :=
  match p with
  | .afterByte => callReceive (.enableReporting .afterAck) s
  | .afterAck => return' (setReporting true s)

/-- DISABLE_DATA_REPORTING: nothing at all if reporting is disabled, else `CMD(0xF5)` (R200). -/
def disableStart (s : State) : Ran :=
  if s.reportingEnabled then callTransmit 0xF5#8 (.disableReporting .afterByte) s else return' s

/-- The rest of DISABLE_DATA_REPORTING: the ack byte, then the flag (R200, decision D17). -/
def disableStep (p : CmdPos) (s : State) : Ran :=
  match p with
  | .afterByte => callReceive (.disableReporting .afterAck) s
  | .afterAck => return' (setReporting false s)

/-- H.3: `CMD(c)` begins (R191). -/
def toggledCommand (c : Byte) (s : State) : Ran := callTransmit c (.toggled c .afterCommand) s

/-- `CMD_TOGGLED(c)`: H.1 and H.2 (R191). -/
def toggledStart (c : Byte) (s : State) : Ran :=
  let s := latchGuard s
  if s.resumeLatch then callThen disableStart (.toggled c .afterSuspend) (toggledCommand c) s
  else toggledCommand c s

/-- The rest of `CMD_TOGGLED(c)`: H.3 and H.4 (R191). -/
def toggledStep (c : Byte) (p : ToggledPos) (s : State) : Ran :=
  match p with
  | .afterSuspend => toggledCommand c s
  | .afterCommand => callReceive (.toggled c .afterAck) s
  | .afterAck => if s.resumeLatch then callThen enableStart (.toggled c .afterResume) return' s else return' s
  | .afterResume => return' s

/-- The end of a mode set: `mode <- m; if initialized = 1: Wait(T_MODE_SETTLE)` (R192, R193, R194). -/
def finishMode (m : Mode) (f : Frame) (s : State) : Ran :=
  let s := setMode m s
  if s.initialized then enterWait f s else return' s

/-- SET_REMOTE_MODE: `call CMD_TOGGLED(0xF0)` (R193). -/
def setRemoteModeStart (s : State) : Ran :=
  callThen (toggledStart 0xF0#8) (.setRemoteMode .afterHelper) (finishMode .remote (.setRemoteMode .settle)) s

/-- The rest of SET_REMOTE_MODE (R193, R192). -/
def setRemoteModeStep (p : ModePos) (s : State) : Ran :=
  match p with
  | .afterHelper => finishMode .remote (.setRemoteMode .settle) s
  | .settle => waitThen s.cfg.tModeSettle (.setRemoteMode .settle) return' s

/-- SET_STREAM_MODE: `call CMD_TOGGLED(0xEA)` (R194). -/
def setStreamModeStart (s : State) : Ran :=
  callThen (toggledStart 0xEA#8) (.setStreamMode .afterHelper) (finishMode .stream (.setStreamMode .settle)) s

/-- The rest of SET_STREAM_MODE (R194, R192). -/
def setStreamModeStep (p : ModePos) (s : State) : Ran :=
  match p with
  | .afterHelper => finishMode .stream (.setStreamMode .settle) s
  | .settle => waitThen s.cfg.tModeSettle (.setStreamMode .settle) return' s

/-- SET_SCALING_2_1: `call CMD_TOGGLED(0xE7)` (R195). -/
def setScaling21Start (s : State) : Ran := callThen (toggledStart 0xE7#8) .setScaling21 return' s

/-- SET_SCALING_1_1: `call CMD_TOGGLED(0xE6)` (R196). -/
def setScaling11Start (s : State) : Ran := callThen (toggledStart 0xE6#8) .setScaling11 return' s

/-- S.3 of SET_RESOLUTION: `CMD(0xE8)` begins (R197). -/
def resolutionCommand (s : State) : Ran := callTransmit 0xE8#8 (.setResolution .afterCommand) s

/-- SET_RESOLUTION: the argument latch, S.1, S.2 (enable before; R197). -/
def setResolutionStart (r : Byte) (s : State) : Ran :=
  let s := latchGuard (latchArg r s)
  if s.resumeLatch then callThen enableStart (.setResolution .afterFirstToggle) resolutionCommand s
  else resolutionCommand s

/-- The rest of SET_RESOLUTION: S.3 to S.5 (disable after; R197). -/
def setResolutionStep (p : ArgPos) (s : State) : Ran :=
  match p with
  | .afterFirstToggle => resolutionCommand s
  | .afterCommand => callReceive (.setResolution .afterCommandAck) s
  | .afterCommandAck => callTransmit s.arg (.setResolution .afterArgument) s
  | .afterArgument => callReceive (.setResolution .afterArgumentAck) s
  | .afterArgumentAck =>
    if s.resumeLatch then callThen disableStart (.setResolution .afterLastToggle) return' s else return' s
  | .afterLastToggle => return' s

/-- S.3 of SET_SAMPLE_RATE: `CMD(0xF3)` begins (R198). -/
def sampleRateCommand (s : State) : Ran := callTransmit 0xF3#8 (.setSampleRate .afterCommand) s

/-- SET_SAMPLE_RATE: the argument latch, S.1, S.2 (disable before; R198). -/
def setSampleRateStart (n : Byte) (s : State) : Ran :=
  let s := latchGuard (latchArg n s)
  if s.resumeLatch then callThen disableStart (.setSampleRate .afterFirstToggle) sampleRateCommand s
  else sampleRateCommand s

/-- The rest of SET_SAMPLE_RATE: S.3 to S.5 (enable after; R198). -/
def setSampleRateStep (p : ArgPos) (s : State) : Ran :=
  match p with
  | .afterFirstToggle => sampleRateCommand s
  | .afterCommand => callReceive (.setSampleRate .afterCommandAck) s
  | .afterCommandAck => callTransmit s.arg (.setSampleRate .afterArgument) s
  | .afterArgument => callReceive (.setSampleRate .afterArgumentAck) s
  | .afterArgumentAck =>
    if s.resumeLatch then callThen enableStart (.setSampleRate .afterLastToggle) return' s else return' s
  | .afterLastToggle => return' s

/-- `CMD(c)` on its own: the byte, then its ack (R107, R190). -/
def cmdStart (c : Byte) (s : State) : Ran := callTransmit c (.cmd .afterByte) s

/-- The rest of `CMD(c)`: the ack byte is written nowhere and compared with nothing (R190). -/
def cmdStep (p : CmdPos) (s : State) : Ran :=
  match p with
  | .afterByte => callReceive (.cmd .afterAck) s
  | .afterAck => return' s

/-- A command byte and its argument byte, each with its ack: `CMD(c); CMD(a)` (R95). -/
def cmdThenArgStart (c a : Byte) (s : State) : Ran := callTransmit c (.cmdThenArg a .afterByte) s

/-- The rest of `CMD(c); CMD(a)` (R95). -/
def cmdThenArgStep (a : Byte) (p : CmdPos) (s : State) : Ran :=
  match p with
  | .afterByte => callReceive (.cmdThenArg a .afterAck) s
  | .afterAck => cmdStart a s

end Sys2Proof.Machine
end

