-- ==== Sys2Proof/Machine/Initialization.lean ====
section
/-! DEFINITION. The steps of INITIALIZE (41_init.md), and of the BAT response on its own. -/

namespace Sys2Proof.Machine

/-- INIT.1: `Drive(Clock, Rel); Drive(Data, Rel); Wait(T_INIT_POWERUP)` (R181). -/
def initStart (s : State) : Ran :=
  enterWait (.initLink .powerup) (drive .data .rel (drive .clock .rel s))

/-- INIT.7 begins: `Wait(T_INIT_FINAL)` (R187). -/
def initFinal (s : State) : Ran := enterWait (.initLink .final) s

/-- INIT.6: set up the configured mode (R186). -/
def initSetUp (s : State) : Ran :=
  match s.mode with
  | .remote => callThen setRemoteModeStart (.initLink .afterSetUp) initFinal s
  | .stream => callThen enableStart (.initLink .afterSetUp) initFinal s

/-- INIT.5: fail unless the BAT byte is 0xAA (R185). -/
def initTest (s : State) : Ran :=
  if s.bat = 0xAA#8 then initSetUp s else return' (failInit s)

/-- One step of INITIALIZE (R180 to R187). -/
def initStep (p : InitPos) (s : State) : Ran :=
  match p with
  | .powerup =>
    waitThen s.cfg.tInitPowerup (.initLink .powerup) (callTransmit 0xFF#8 (.initLink .afterReset)) s
  | .afterReset => callReceive (.initLink .afterAck) s
  | .afterAck => callReceive (.initLink .afterBat) s
  | .afterBat => callReceive (.initLink .afterId) (keepBat s)
  | .afterId => enterWait (.initLink .postBat) s
  | .postBat => waitThen s.cfg.tInitPostBat (.initLink .postBat) initTest s
  | .afterSetUp => initFinal s
  | .final => waitThen s.cfg.tInitFinal (.initLink .final) (fun s => return' (passInit s)) s

/-- The BAT response on its own: `bat <- call RECEIVE_BYTE()` (R183; log entry 8). -/
def batResponseStart (s : State) : Ran := callReceive .batResponse s

/-- The byte is kept in `bat` (R183). -/
def batResponseStep (s : State) : Ran := return' (keepBat s)

end Sys2Proof.Machine
end

