-- ==== Sys2Proof/Machine/Reporting.lean ====
section
/-! DEFINITION. The steps of REPORT and of the movement-report decoders (43_report.md). -/

namespace Sys2Proof.Machine

/-- DECODE_X and DECODE_Y: the magnitude byte is read (R222, R223). -/
def decodeStart (a : Axis) (s : State) : Ran := callReceive (.decode a) s

/-- The rest of a decoder: the sign extension (R98, R222, R223). -/
def decodeStep (a : Axis) (s : State) : Ran := return' (keepMovement a s)

/-- RP.2: `call RECEIVE_BYTE()` for the status byte (R220). -/
def reportRead (s : State) : Ran := callReceive (.report .afterStatus) s

/-- REPORT: RP.1, the poll in Remote mode only (R220, R221). -/
def reportStart (s : State) : Ran :=
  match s.mode with
  | .remote => callTransmit 0xEB#8 (.report .afterPoll) s
  | .stream => reportRead s

/-- RP.4: `call DECODE_Y` (R220). -/
def reportY (s : State) : Ran := callThen (decodeStart .y) (.report .afterY) return' s

/-- The rest of REPORT: RP.1 to RP.5 (R220). -/
def reportStep (p : ReportPos) (s : State) : Ran :=
  match p with
  | .afterPoll => callReceive (.report .afterPollAck) s
  | .afterPollAck => reportRead s
  | .afterStatus => callThen (decodeStart .x) (.report .afterX) reportY (keepStatus s)
  | .afterX => reportY s
  | .afterY => return' s

end Sys2Proof.Machine
end

