-- ==== Sys2Proof/Machine/Sequencer.lean ====
section
/-! DEFINITION. The sequencer (R28): one clock edge of the HOST, the start of an operation, and an operation run as far as
the queued samples carry it. -/

namespace Sys2Proof.Machine

/-- The outcomes of this machine. -/
abbrev Result := Host.Outcome State Fault Refusal

/-- One step of the innermost operation. -/
def frameStep (f : Frame) (s : State) : Ran :=
  match f with
  | .initLink p => initStep p s
  | .setRemoteMode p => setRemoteModeStep p s
  | .setStreamMode p => setStreamModeStep p s
  | .setScaling21 => return' s
  | .setScaling11 => return' s
  | .setResolution p => setResolutionStep p s
  | .setSampleRate p => setSampleRateStep p s
  | .enableReporting p => enableStep p s
  | .disableReporting p => disableStep p s
  | .report p => reportStep p s
  | .toggled c p => toggledStep c p s
  | .decode a => decodeStep a s
  | .transmit p => transmitStep p s
  | .receive p => receiveStep p s
  | .readBit p => readBitStep p s
  | .cmd p => cmdStep p s
  | .cmdThenArg a p => cmdThenArgStep a p s
  | .batResponse => batResponseStep s

/-- The operation whose frames are the stack goes on at this edge: a `return` lets the caller continue at once, the end of a
byte exchange lets it continue at the next edge (R28, R160). -/
def resume (stack : List Frame) (s : State) : Result :=
  match stack with
  | [] => .next (opEnd s)
  | f :: k =>
    match frameStep f s with
    | (s', .block fs) => .next { s' with stack := fs ++ k }
    | (s', .ret) => resume k s'
    | (s', .hold) =>
      match k with
      | [] => .next (opEnd s')
      | _ :: _ => .next { s' with stack := k }
    | (s', .timeout) => .next (raiseTimeout s')
    | (_, .unused) => .fault .unusedBitidx

/-- One clock edge of a busy HOST: the ports are sampled, `rst` abandons everything (R280), else the innermost operation
takes one step. An op word presented at this edge is not accepted (R105). -/
def edge (x : Sample) (s : State) : Result :=
  let s := sampled x s
  if x.rst then .next (resetEdge s) else resume s.stack s

/-- The operation runs over the queued samples, one clock edge a sample, until it ends or the queue is used up; in the
second case it is left at its position, for `step` to go on with. -/
def run (xs : List Sample) (s : State) : Result :=
  match xs with
  | [] => .next { s with inputs := [] }
  | x :: xs =>
    if s.busy then
      match edge x s with
      | .next s' => run xs s'
      | .fault r => .fault r
      | .refused r => .refused r
    else .next { s with inputs := x :: xs }

/-- Start an operation on an idle HOST and run it. `code` is the operation code to latch, for a caller op. While the HOST is
busy no operation is accepted: no effect (R29, R105). -/
def start (code : Option (BitVec 4)) (op : State → Ran) (s : State) : Result :=
  if s.busy then .next s
  else
    match op { s with busy := true, opCode := code } with
    | (s', .block fs) => run s'.inputs { s' with stack := fs }
    | (s', .ret) => .next (opEnd s')
    | (s', .hold) => .next (opEnd s')
    | (s', .timeout) => .next (raiseTimeout s')
    | (_, .unused) => .fault .unusedBitidx

/-- Start a pseudo-operation that sends the byte `c`, if the block sends such a byte at all (R94, R108). -/
def startCommand (c : Byte) (sends : Bool) (op : State → Ran) (s : State) : Result :=
  if s.busy then .next s
  else if sends then start none op s
  else .refused (.unsentCommand c)

/-- An op word with a reserved code: accepted by an idle HOST, completes at once (R104, R105, R251). -/
def startIllegal (s : State) : Result :=
  if s.busy then .next s else .next (illegalOp s)

end Sys2Proof.Machine
end

