-- ==== Sys2Proof/Machine/CallerOps.lean ====
section
/-! DEFINITION. The meanings of the ten caller operations (R101): the operation code is latched, the operation's first step
runs at the accepting edge, and the operation goes on over the queued samples. -/

namespace Sys2Proof.Machine

/-- INITIALIZE (R180 to R188); `arg` is ignored (R100). -/
def execInitialize (_arg : Byte) (s : State) : Result := start (some 0x0#4) initStart s

/-- SET_REMOTE_MODE (R193); `arg` is ignored. -/
def execSetRemoteMode (_arg : Byte) (s : State) : Result := start (some 0x1#4) setRemoteModeStart s

/-- SET_STREAM_MODE (R194); `arg` is ignored. -/
def execSetStreamMode (_arg : Byte) (s : State) : Result := start (some 0x2#4) setStreamModeStart s

/-- SET_SCALING_2_1 (R195); `arg` is ignored. -/
def execSetScaling21 (_arg : Byte) (s : State) : Result := start (some 0x3#4) setScaling21Start s

/-- SET_SCALING_1_1 (R196); `arg` is ignored. -/
def execSetScaling11 (_arg : Byte) (s : State) : Result := start (some 0x4#4) setScaling11Start s

/-- SET_RESOLUTION(r) (R197). -/
def execSetResolution (r : Byte) (s : State) : Result := start (some 0x5#4) (setResolutionStart r) s

/-- SET_SAMPLE_RATE(n) (R198). -/
def execSetSampleRate (n : Byte) (s : State) : Result := start (some 0x6#4) (setSampleRateStart n) s

/-- ENABLE_DATA_REPORTING (R199); `arg` is ignored. -/
def execEnableDataReporting (_arg : Byte) (s : State) : Result := start (some 0x7#4) enableStart s

/-- DISABLE_DATA_REPORTING (R200); `arg` is ignored. -/
def execDisableDataReporting (_arg : Byte) (s : State) : Result := start (some 0x8#4) disableStart s

/-- REPORT (R220 to R226); `arg` is ignored. -/
def execReport (_arg : Byte) (s : State) : Result := start (some 0x9#4) reportStart s

end Sys2Proof.Machine
end

