-- ==== Sys2Proof/Machine/Device.lean ====
section
/-! DEFINITION. The DEVICE's side of a byte exchange as samples of the ports: the reference shape in which the rows of the
opcode table that name what the DEVICE sends are presented to the HOST (log entry 8). It is the shortest exchange that meets
the device's contract (R290): every level is there for exactly one poll, every `Wait` is lifted by one sample. -/

namespace Sys2Proof.Machine

/-- A sample at time `t` in which the device's lines are at these levels. -/
def linesAt (t : Time) (clock data : Bool) : Sample :=
  { Sample.quietAt t with devClock := clock, devData := data }

/-- The first count that ends `Wait(n)` entered at `t` (R132). -/
def lift (t n : Time) : Time := t + n + 1#32

/-- One device clock pulse read by READ_BIT: Clock low seen, Data sampled, Clock high seen (R153). -/
def pulse (t : Time) (b : Bool) : List Sample :=
  [linesAt t false b, linesAt t false b, linesAt t true b]

/-- The pulses of slots 1 to 10. -/
def pulses (t : Time) (slots : BitVec 11) : List Sample :=
  pulse t (slots.getLsbD 1) ++ pulse t (slots.getLsbD 2) ++ pulse t (slots.getLsbD 3) ++ pulse t (slots.getLsbD 4) ++
  pulse t (slots.getLsbD 5) ++ pulse t (slots.getLsbD 6) ++ pulse t (slots.getLsbD 7) ++ pulse t (slots.getLsbD 8) ++
  pulse t (slots.getLsbD 9) ++ pulse t (slots.getLsbD 10)

/-- The time at which `deviceFrame` ends. -/
def deviceFrameEnd (p : Params) (t : Time) : Time := lift (lift t p.tRxSettle) p.tRxSkew

/-- The samples in which the device sends these eleven slots to a RECEIVE_BYTE entered at time `t`, its start pulse inside
the soft window (R93, R147, R290). -/
def deviceFrame (p : Params) (t : Time) (slots : BitVec 11) : List Sample :=
  let t1 := lift t p.tRxSettle
  let t2 := deviceFrameEnd p t
  [linesAt t1 true true, linesAt t1 false (slots.getLsbD 0), linesAt t2 false (slots.getLsbD 0),
   linesAt t2 true (slots.getLsbD 0)] ++ pulses t2 slots

/-- The edge between two byte exchanges, with both lines released by the device. -/
def betweenBytes (t : Time) : List Sample := [linesAt t true true]

/-- The device sends `v` in a well-formed frame (R90) and the HOST's caller takes its step after it. -/
def deviceByte (p : Params) (t : Time) (v : Byte) : List Sample :=
  deviceFrame p t (goodFrame v) ++ betweenBytes (deviceFrameEnd p t)

/-- The device sends the three bytes of a movement report (R64, R97). -/
def deviceReport (p : Params) (t : Time) (status x y : Byte) : List Sample :=
  let t1 := deviceFrameEnd p t
  let t2 := deviceFrameEnd p t1
  deviceByte p t status ++ deviceByte p t1 x ++ deviceByte p t2 y

/-- Put what the device sends in front of the samples queued already. -/
def present (xs : List Sample) (s : State) : State := { s with inputs := xs ++ s.inputs }

/-- Start an operation that consumes what the device sends. -/
def startWith (xs : List Sample) (op : State → Ran) (s : State) : Result :=
  if s.busy then .next s else start none op (present xs s)

end Sys2Proof.Machine
end

