-- ==== Sys2Proof/Machine/DeviceBytes.lean ====
section
/-! DEFINITION. The meanings of the rows that name what travels from the DEVICE, and of the frame the HOST produces: the DEVICE
presents the bytes in frames of the reference shape and the HOST consumes them as the spec says (log entries 8 and 9). -/

namespace Sys2Proof.Machine

/-- The BAT byte 0xAA: received and kept in `bat` (R96, R183, R185). -/
def execRespBatPass (s : State) : Result :=
  startWith (deviceByte s.cfg (now s) 0xAA#8) batResponseStart s

/-- An ack byte: consumed by one RECEIVE_BYTE and compared with nothing (R96, R190). -/
def execRespAck (v : Byte) (s : State) : Result :=
  startWith (deviceFrame s.cfg (now s) (goodFrame v)) receiveStart s

/-- A device ID byte: consumed by one RECEIVE_BYTE and discarded (R96, R183). -/
def execRespDeviceId (v : Byte) (s : State) : Result :=
  startWith (deviceFrame s.cfg (now s) (goodFrame v)) receiveStart s

/-- A host-to-device frame: what TRANSMIT_BYTE(v) produces (R92). A wrong parity slot is no such frame. -/
def execFrameH2D (v : Byte) (parity : Bool) (s : State) : Result :=
  if parity = oddParity v then start none (transmitStart v) s else .refused .notAHostFrame

/-- A device-to-host frame: what RECEIVE_BYTE consumes, whatever its slots hold (R93, R152). -/
def execFrameD2H (slots : BitVec 11) (s : State) : Result :=
  startWith (deviceFrame s.cfg (now s) slots) receiveStart s

/-- A movement report: the three bytes are read and decoded as RP.2 to RP.5 do (R97, R98, R220). -/
def execMovementReport (status x y : Byte) (s : State) : Result :=
  startWith (deviceReport s.cfg (now s) status x y) reportRead s

end Sys2Proof.Machine
end

