-- ==== Sys2Proof/Machine/MicroOps.lean ====
section
/-! DEFINITION. The meanings of the micro-operations and pseudo-operations run on their own (R103, R107). -/

namespace Sys2Proof.Machine

/-- TRANSMIT_BYTE(v) (R136 to R145). -/
def execTransmitByte (v : Byte) (s : State) : Result := start none (transmitStart v) s

/-- RECEIVE_BYTE (R146 to R152). -/
def execReceiveByte (s : State) : Result := start none receiveStart s

/-- READ_BIT (R153). -/
def execReadBit (s : State) : Result := start none readBitStart s

/-- DECODE_X (R222). -/
def execDecodeX (s : State) : Result := start none (decodeStart .x) s

/-- DECODE_Y (R223). -/
def execDecodeY (s : State) : Result := start none (decodeStart .y) s

/-- CMD(c) (R107, R190): `c` is a command of the table, or any byte where an argument is due (R94, R95, R108; log entry
21). -/
def execCmd (c : Byte) (s : State) : Result := startCommand c (decide (c ∈ commandBytes) || argumentDue s) (cmdStart c) s

/-- CMD_TOGGLED(c) (R107, R191): `c` is a command of the table (R94, R108; log entry 21). -/
def execCmdToggled (c : Byte) (s : State) : Result := startCommand c (decide (c ∈ commandBytes)) (toggledStart c) s

end Sys2Proof.Machine
end

