-- ==== Sys2Proof/Machine/ReservedOps.lean ====
section
/-! DEFINITION. The meanings of the reserved op codes 0xA to 0xF: accepted, `err <- 2`, nothing else (R104, R251). -/

namespace Sys2Proof.Machine

/-- Op code 0xA (R104). -/
def execReservedA (_arg : Byte) (s : State) : Result := startIllegal s

/-- Op code 0xB (R104). -/
def execReservedB (_arg : Byte) (s : State) : Result := startIllegal s

/-- Op code 0xC (R104). -/
def execReservedC (_arg : Byte) (s : State) : Result := startIllegal s

/-- Op code 0xD (R104). -/
def execReservedD (_arg : Byte) (s : State) : Result := startIllegal s

/-- Op code 0xE (R104). -/
def execReservedE (_arg : Byte) (s : State) : Result := startIllegal s

/-- Op code 0xF (R104). -/
def execReservedF (_arg : Byte) (s : State) : Result := startIllegal s

end Sys2Proof.Machine
end

