-- ==== Sys2Proof/Machine/WireCommands.lean ====
section
/-! DEFINITION. The meanings of the wire commands (R94): each byte is sent in its own frame and followed by its ack byte, which
is discarded (R95, R190; log entry 7). -/

namespace Sys2Proof.Machine

/-- 0xFF and its ack (R182). The BAT and ID bytes that follow are INITIALIZE's to read (R183). -/
def execWireReset (s : State) : Result := start none (cmdStart 0xFF#8) s

/-- 0xF0 and its ack (R193). -/
def execWireSetRemoteMode (s : State) : Result := start none (cmdStart 0xF0#8) s

/-- 0xEA and its ack (R194). -/
def execWireSetStreamMode (s : State) : Result := start none (cmdStart 0xEA#8) s

/-- 0xE7 and its ack (R195). -/
def execWireSetScaling21 (s : State) : Result := start none (cmdStart 0xE7#8) s

/-- 0xE6 and its ack (R196). -/
def execWireSetScaling11 (s : State) : Result := start none (cmdStart 0xE6#8) s

/-- 0xE8, its ack, `r`, its ack (R95, R197). -/
def execWireSetResolution (r : Byte) (s : State) : Result := start none (cmdThenArgStart 0xE8#8 r) s

/-- 0xF3, its ack, `n`, its ack (R95, R198). -/
def execWireSetSampleRate (n : Byte) (s : State) : Result := start none (cmdThenArgStart 0xF3#8 n) s

/-- 0xF4 and its ack (R199). -/
def execWireEnableDataReporting (s : State) : Result := start none (cmdStart 0xF4#8) s

/-- 0xF5 and its ack (R200). -/
def execWireDisableDataReporting (s : State) : Result := start none (cmdStart 0xF5#8) s

/-- 0xEB and its ack (R221). The report bytes that follow are REPORT's to read (R220). -/
def execWireReadData (s : State) : Result := start none (cmdStart 0xEB#8) s

end Sys2Proof.Machine
end

