-- ==== Sys2Proof/Machine/Dispatch.lean ====
section
/-! DEFINITION. The dispatch: one arm per operation. -/

namespace Sys2Proof.Machine

def exec (i : Instr) (s : State) : Host.Outcome State Fault Refusal :=
  match i with
  | .initializeLink arg => Sys2Proof.Machine.execInitialize arg s
  | .setRemoteMode arg => Sys2Proof.Machine.execSetRemoteMode arg s
  | .setStreamMode arg => Sys2Proof.Machine.execSetStreamMode arg s
  | .setScaling21 arg => Sys2Proof.Machine.execSetScaling21 arg s
  | .setScaling11 arg => Sys2Proof.Machine.execSetScaling11 arg s
  | .setResolution r => Sys2Proof.Machine.execSetResolution r s
  | .setSampleRate n => Sys2Proof.Machine.execSetSampleRate n s
  | .enableDataReporting arg => Sys2Proof.Machine.execEnableDataReporting arg s
  | .disableDataReporting arg => Sys2Proof.Machine.execDisableDataReporting arg s
  | .report arg => Sys2Proof.Machine.execReport arg s
  | .reservedA arg => Sys2Proof.Machine.execReservedA arg s
  | .reservedB arg => Sys2Proof.Machine.execReservedB arg s
  | .reservedC arg => Sys2Proof.Machine.execReservedC arg s
  | .reservedD arg => Sys2Proof.Machine.execReservedD arg s
  | .reservedE arg => Sys2Proof.Machine.execReservedE arg s
  | .reservedF arg => Sys2Proof.Machine.execReservedF arg s
  | .wireReset => Sys2Proof.Machine.execWireReset s
  | .wireSetRemoteMode => Sys2Proof.Machine.execWireSetRemoteMode s
  | .wireSetStreamMode => Sys2Proof.Machine.execWireSetStreamMode s
  | .wireSetScaling21 => Sys2Proof.Machine.execWireSetScaling21 s
  | .wireSetScaling11 => Sys2Proof.Machine.execWireSetScaling11 s
  | .wireSetResolution r => Sys2Proof.Machine.execWireSetResolution r s
  | .wireSetSampleRate n => Sys2Proof.Machine.execWireSetSampleRate n s
  | .wireEnableDataReporting => Sys2Proof.Machine.execWireEnableDataReporting s
  | .wireDisableDataReporting => Sys2Proof.Machine.execWireDisableDataReporting s
  | .wireReadData => Sys2Proof.Machine.execWireReadData s
  | .respBatPass => Sys2Proof.Machine.execRespBatPass s
  | .respAck v => Sys2Proof.Machine.execRespAck v s
  | .respDeviceId v => Sys2Proof.Machine.execRespDeviceId v s
  | .frameH2D v parity => Sys2Proof.Machine.execFrameH2D v parity s
  | .frameD2H slots => Sys2Proof.Machine.execFrameD2H slots s
  | .movementReport status x y => Sys2Proof.Machine.execMovementReport status x y s
  | .transmitByte v => Sys2Proof.Machine.execTransmitByte v s
  | .receiveByte => Sys2Proof.Machine.execReceiveByte s
  | .readBit => Sys2Proof.Machine.execReadBit s
  | .decodeX => Sys2Proof.Machine.execDecodeX s
  | .decodeY => Sys2Proof.Machine.execDecodeY s
  | .cmd c => Sys2Proof.Machine.execCmd c s
  | .cmdToggled c => Sys2Proof.Machine.execCmdToggled c s

end Sys2Proof.Machine
end

