-- ==== Sys2Proof/Machine/Fetch.lean ====
section
/-! DEFINITION. Where the next operation comes from: the op port at a clock edge (R100), or a select word (log entry 5). -/

namespace Sys2Proof.Machine

/-- The word the CALLER presents at this edge (R100). -/
def presented (x : Sample) : Option PortWord :=
  if x.opValid then some ⟨.op12, x.op.setWidth 24⟩ else none

/-- The sample in which the CALLER presents an op word, the other ports as they are. -/
def presenting (x : Sample) (op : BitVec 12) : Sample :=
  { x with rst := false, opValid := true, op := op }

/-- The next clock edge of a busy HOST. -/
def busyStep (s : State) : Result :=
  edge (nextSample s).1 { s with inputs := (nextSample s).2 }

/-- The state in which an idle HOST has sampled the ports of the next clock edge. -/
def idleSampled (s : State) : State :=
  sampled (nextSample s).1 { s with inputs := (nextSample s).2 }

/-- An idle HOST with no select word. -/
def idled (s : State) : State :=
  { s with stack := [], busy := false, opCode := none, sel := none }

/-- The select word of a number the opcode table has no row for: a wire command byte that R94 does not list. -/
def noRow : PortWord := ⟨.wireCmd8, 0#24⟩

/-- Place a word where the next step takes its operation from: an op word at the op port of the next clock edge, any other
word as the select word. -/
def placeWord (w : Option PortWord) (s : State) : State :=
  match w with
  | none => { idled s with sel := some noRow }
  | some pw =>
    if pw.port = .op12 ∧ pw.bits >>> 12 = 0#24 then
      { idled s with inputs := presenting s.pins (pw.bits.setWidth 12) :: s.inputs }
    else { idled s with sel := some pw }

end Sys2Proof.Machine
end

