-- ==== Sys2Proof/Machine/Step.lean ====
section
/-! DEFINITION. One step of the machine (log entry 6), and the state in which the next step runs a given table word. -/

namespace Sys2Proof.Machine

/-- The operation a word selects, run. -/
def execWord (w : PortWord) (s : State) : Host.Outcome State Fault Refusal :=
  match decode w with
  | .instr i => exec i s
  | .reject r => .refused (.noSuchWord r)

/-- One step. A busy HOST takes one clock edge. An idle HOST runs the select word if there is one; else it samples the
ports: `rst` resets it, an op word presented is run as far as the queued samples carry it, and with nothing presented it
stays idle (R29, R100, R105, R280, R281). -/
def step (s : State) : Host.Outcome State Fault Refusal :=
  if s.busy then busyStep s
  else
    match s.sel with
    | some w => execWord w { s with sel := none }
    | none =>
      let s' := idleSampled s
      if s'.pins.rst then .next (resetEdge s')
      else
        match presented s'.pins with
        | some w => execWord w s'
        | none => .next s'

/-- `s` with the table word placed where `step` takes its next operation from (log entries 4 and 10). -/
def State.withFetchWord (s : State) (nbits w : Nat) : State := placeWord (tableWord nbits w) s

end Sys2Proof.Machine
end

