-- ==== Sys2Proof/Machine/Contract.lean ====
section
/-! DEFINITION. The device's contract behind every wait (R290), as the premise of the claims that an operation completes. A
segment says which samples of the ports take the HOST from one place of an operation to the next: it relates the time at entry,
the samples, and the time at exit. Every level may be there for any number of polls and every `Wait` may last as long as it
likes; under the Bounded policy each poll comes within the limit (R250). -/

namespace Sys2Proof.Machine

/-- Time at entry, samples, time at exit. -/
abbrev Seg := Time → List Sample → Time → Prop

/-- One segment after another. -/
def segSeq (a b : Seg) : Seg := fun t xs t' =>
  ∃ ys zs u, xs = ys ++ zs ∧ a t ys u ∧ b u zs t'

/-- The segments of a list one after another. -/
def segAll (as : List Seg) : Seg :=
  match as with
  | [] => fun t xs t' => xs = [] ∧ t' = t
  | a :: as => segSeq a (segAll as)

/-- `Wait(n)`: samples within `n` of the entry, then one beyond (R132). -/
def waitSeg (n : Time) : Seg := fun t xs t' =>
  ∃ ys x, xs = ys ++ [x] ∧ (∀ y ∈ ys, y.rst = false ∧ y.nowUs - t ≤ n) ∧
    x.rst = false ∧ n < x.nowUs - t ∧ t' = x.nowUs

/-- A poll at `y` of a `WaitWhile` entered at `t` does not time out (R250). -/
def withinLimit (p : Params) (t : Time) (y : Sample) : Prop :=
  p.timeoutPolicy = .bounded → y.nowUs - t ≤ p.tTimeout

/-- `WaitWhile(c)`: polls at which the device keeps the condition true, then one at which it is false (R133). -/
def pollSeg (p : Params) (c : Sample → Bool) : Seg := fun t xs t' =>
  ∃ ys x, xs = ys ++ [x] ∧ (∀ y ∈ ys, y.rst = false ∧ c y = true ∧ withinLimit p t y) ∧
    x.rst = false ∧ c x = false ∧ t' = x.nowUs

/-- The device leaves Clock released. -/
def clockHigh (x : Sample) : Bool := x.devClock

/-- The device pulls Clock low. -/
def clockLow (x : Sample) : Bool := !x.devClock

/-- The device does not pull both lines low: the condition of TX.8 (R143). -/
def notBothLow (x : Sample) : Bool := x.devClock || x.devData

/-- One clock edge at which the HOST reads no line. -/
def edgeSeg : Seg := fun _ xs t' => ∃ x, xs = [x] ∧ x.rst = false ∧ t' = x.nowUs

/-- RB.2: the device shows `b` on Data (R153). -/
def dataSeg (b : Bool) : Seg := fun _ xs t' => ∃ x, xs = [x] ∧ x.rst = false ∧ x.devData = b ∧ t' = x.nowUs

/-- RX.2 left by the seen-low exit (R147): a poll finds Clock low, the polls before it are inside the window. -/
def softSeenSeg (p : Params) : Seg := fun t xs t' =>
  ∃ ys x, xs = ys ++ [x] ∧ (∀ y ∈ ys, y.rst = false ∧ y.devClock = true ∧ y.nowUs - t < p.tRxSoft) ∧
    x.rst = false ∧ x.devClock = false ∧ t' = x.nowUs

/-- RX.2 left by the timed-out exit (R147): the window ends with Clock still high. -/
def softExpiredSeg (p : Params) : Seg := fun t xs t' =>
  ∃ ys x, xs = ys ++ [x] ∧ (∀ y ∈ ys, y.rst = false ∧ y.devClock = true ∧ y.nowUs - t < p.tRxSoft) ∧
    x.rst = false ∧ x.devClock = true ∧ ¬ (x.nowUs - t < p.tRxSoft) ∧ t' = x.nowUs

/-- RX.3 after the timed-out exit: Clock is high, the wait ends at once (R148, R243). -/
def highSeg : Seg := fun _ xs t' => ∃ x, xs = [x] ∧ x.rst = false ∧ x.devClock = true ∧ t' = x.nowUs

/-- One `ClockCycle()` (R134). -/
def cycleSeg (p : Params) : Seg := segAll [pollSeg p clockHigh, pollSeg p clockLow]

/-- `n` device clock cycles. -/
def cyclesSeg (p : Params) (n : Nat) : Seg := segAll (List.replicate n (cycleSeg p))

/-- The device takes one byte from the HOST: it grants, clocks ten pulses and acknowledges (R290, rows TX.1 to TX.8). -/
def transmitSeg (p : Params) : Seg :=
  segAll [waitSeg p.tTxSettle, waitSeg p.tTxInhibit, waitSeg p.tTxStart, pollSeg p clockHigh, cyclesSeg p 10,
    waitSeg p.tTxPost, pollSeg p notBothLow]

/-- One READ_BIT that reads `b` (R153). -/
def bitSeg (p : Params) (b : Bool) : Seg := segAll [pollSeg p clockHigh, dataSeg b, pollSeg p clockLow]

/-- READ_BITs that read these bits in order. -/
def bitsSeg (p : Params) (bs : List Bool) : Seg := segAll (bs.map (bitSeg p))

/-- `n` slots of a frame from slot `i` on. -/
def slotBits (slots : BitVec 11) (i n : Nat) : List Bool := (List.range n).map (fun k => slots.getLsbD (i + k))

/-- The device sends these eleven slots and its start pulse is seen inside the soft window (R290, rows RX.1 to READ_BIT). -/
def receiveSeg (p : Params) (slots : BitVec 11) : Seg :=
  segAll [waitSeg p.tRxSettle, softSeenSeg p, waitSeg p.tRxSkew, pollSeg p clockLow, bitsSeg p (slotBits slots 1 10)]

/-- The device sends these eleven slots after the soft window (R152, R243): slots 0 to 9 are sampled. -/
def receiveLateSeg (p : Params) (slots : BitVec 11) : Seg :=
  segAll [waitSeg p.tRxSettle, softExpiredSeg p, waitSeg p.tRxSkew, highSeg, bitsSeg p (slotBits slots 0 10)]

/-- One RECEIVE_BYTE that returns `v`, by either path of RX.2 (R152). -/
def byteSeg (p : Params) (v : Byte) : Seg := fun t xs t' =>
  ∃ slots, (frameByte slots = v ∧ receiveSeg p slots t xs t') ∨ (lateByte slots = v ∧ receiveLateSeg p slots t xs t')

/-- One byte exchange (R106). -/
def eventSeg (p : Params) (e : WireEvent) : Seg :=
  match e with
  | .h2d _ => transmitSeg p
  | .d2h v => byteSeg p v

/-- Byte exchanges in order, each followed by the edge at which the HOST's caller goes on. -/
def talkSeg (p : Params) (es : List WireEvent) : Seg := segAll (es.map (fun e => segSeq (eventSeg p e) edgeSeg))

/-- The `Drive` calls of TRANSMIT_BYTE(v), in order: TX.1 to TX.4, the ten slots, TX.8 (R136). -/
def transmitDrives (v : Byte) : List (Line × Drv) :=
  [(.data, .rel), (.clock, .rel), (.clock, .low), (.data, .low), (.clock, .rel),
   (.data, bitDrv (v.getLsbD 0)), (.data, bitDrv (v.getLsbD 1)), (.data, bitDrv (v.getLsbD 2)),
   (.data, bitDrv (v.getLsbD 3)), (.data, bitDrv (v.getLsbD 4)), (.data, bitDrv (v.getLsbD 5)),
   (.data, bitDrv (v.getLsbD 6)), (.data, bitDrv (v.getLsbD 7)), (.data, bitDrv (oddParity v)), (.data, .rel),
   (.clock, .low)]

/-- The `Drive` calls of RECEIVE_BYTE, in order: RX.1 and RX.6 (R146, R151). -/
def receiveDrives : List (Line × Drv) := [(.clock, .rel), (.data, .rel), (.clock, .low)]

/-- The `Drive` calls of one byte exchange. -/
def eventDrives (e : WireEvent) : List (Line × Drv) :=
  match e with
  | .h2d v => transmitDrives v
  | .d2h _ => receiveDrives

/-- The registers that live inside a byte exchange (R26, R32: "their values between micro-ops are not observable"), and the
model's own record of the ports: what an operation leaves in them is no result of it. -/
structure Scratch where
  sh      : Byte
  par     : Bool
  bitidx  : BitVec 4
  samp    : Bool
  t0      : Time
  tResult : Byte
  pins    : Sample
  clk     : Nat
deriving DecidableEq, Repr

/-- `s` with other registers of a byte exchange. -/
def State.withScratch (c : Scratch) (s : State) : State :=
  { s with
    sh := c.sh
    par := c.par
    bitidx := c.bitidx
    samp := c.samp
    t0 := c.t0
    tResult := c.tResult
    pins := c.pins
    clk := c.clk }

/-- `s` after the byte exchanges `es`: Clock held low, Data released (the bus hold, R33), the exchanges and exactly their
`Drive` calls on record, the registers of a byte exchange as `c` says, EVERY other field as it was. -/
def exchanged (es : List WireEvent) (c : Scratch) (s : State) : State :=
  { s.withScratch c with
    clockDrv := .low
    dataDrv := .rel
    wire := es.reverse ++ s.wire
    drives := (es.flatMap eventDrives).reverse ++ s.drives }

/-- `s` idle, with the samples `rest` still to come. -/
def idleWith (rest : List Sample) (s : State) : State :=
  { s with stack := [], opCode := none, busy := false, inputs := rest }

/-- `s` idle again after the byte exchanges `es`, with the samples `rest` still to come. -/
def afterExchange (s : State) (es : List WireEvent) (rest : List Sample) (c : Scratch) : State :=
  idleWith rest (exchanged es c s)

end Sys2Proof.Machine
end

