-- ==== Sys2Proof/Machine/Scripts.lean ====
section
/-! DEFINITION. The byte exchanges that the spec gives each operation, from each start state, as the terms of the claims about
the operations (R182 to R187, R191, R193 to R200, R202, R221). An ack byte is whatever the device sends. -/

namespace Sys2Proof.Machine

/-- A byte and its ack (R190). -/
def command (c a : Byte) : List WireEvent := [.h2d c, .d2h a]

/-- The guard G (R191), and its alternative `StreamOnly` (decision D16). -/
def toggles (s : State) : Bool := s.mode == .stream && (s.reportingEnabled || s.cfg.toggleGuard == .streamOnly)

/-- `if resume_latch: call DISABLE_DATA_REPORTING`, from the start state (R191, R200). -/
def suspension (s : State) (a : Byte) : List WireEvent :=
  if toggles s && s.reportingEnabled then command 0xF5#8 a else []

/-- `if resume_latch: call ENABLE_DATA_REPORTING`, after the suspension (R191, R199). -/
def resumption (s : State) (a : Byte) : List WireEvent := if toggles s then command 0xF4#8 a else []

/-- CMD_TOGGLED(c) (R191). -/
def toggledTalk (s : State) (c a0 a a1 : Byte) : List WireEvent :=
  suspension s a0 ++ (command c a ++ resumption s a1)

/-- SET_RESOLUTION(r): enable before, disable after (R197, R202). -/
def resolutionTalk (s : State) (r a0 a1 a2 a3 : Byte) : List WireEvent :=
  (if toggles s && !s.reportingEnabled then command 0xF4#8 a0 else []) ++ (command 0xE8#8 a1 ++ (command r a2 ++
    (if toggles s then command 0xF5#8 a3 else [])))

/-- SET_SAMPLE_RATE(n): disable before, enable after (R198, R202). -/
def sampleRateTalk (s : State) (n a0 a1 a2 a3 : Byte) : List WireEvent :=
  suspension s a0 ++ (command 0xF3#8 a1 ++ (command n a2 ++ resumption s a3))

/-- REPORT: the poll in Remote mode only, then the three report bytes (R220, R221). -/
def reportTalk (s : State) (a status x y : Byte) : List WireEvent :=
  (match s.mode with
    | .remote => command 0xEB#8 a
    | .stream => []) ++ [.d2h status, .d2h x, .d2h y]

/-- The wait after a mode change, if the driver is initialized (R192). -/
def settleSeg (s : State) : Seg :=
  segAll (if s.initialized then [waitSeg s.cfg.tModeSettle] else [])

/-- INIT.2 and INIT.3: the reset command, its ack, the BAT byte, the device ID (R182, R183). -/
def resetTalk (a bat id : Byte) : List WireEvent := command 0xFF#8 a ++ [.d2h bat, .d2h id]

/-- INIT.6: what sets up the configured mode (R186). -/
def setUpTalk (s : State) (a : Byte) : List WireEvent :=
  match s.mode with
  | .remote => command 0xF0#8 a
  | .stream => if s.reportingEnabled then [] else command 0xF4#8 a

/-- INIT.6: the wait that SET_REMOTE_MODE adds on a repeated INITIALIZE (R186, R192). -/
def setUpSettle (s : State) : Seg :=
  match s.mode with
  | .remote => settleSeg s
  | .stream => segAll []

/-- INITIALIZE up to the test of the BAT byte (R181 to R184). -/
def untilBat (s : State) (a bat id : Byte) : Seg :=
  segAll [waitSeg s.cfg.tInitPowerup, talkSeg s.cfg (resetTalk a bat id), waitSeg s.cfg.tInitPostBat]

/-- INITIALIZE after a passed BAT (R186, R187). -/
def afterBat (s : State) (a : Byte) : Seg :=
  segAll [talkSeg s.cfg (setUpTalk s a), setUpSettle s, waitSeg s.cfg.tInitFinal]

end Sys2Proof.Machine
end

