-- ==== Sys2Proof/Safety.lean ====
section
/-! DEFINITION. What counts as a sound state of the block, in the terms claims use: the sequencer's stack is a legal chain of
calls (R28), the lines are as the position says (R33, R92, R131), and nothing but the op port starts an operation. -/

namespace Sys2Proof.Machine

/-- The first operation of a stack stands where it has called the second (R28): who calls whom, and where. -/
def awaits (caller callee : Frame) : Bool :=
  match caller, callee with
  | .initLink .afterReset, .transmit _ => true
  | .initLink .afterAck, .receive _ => true
  | .initLink .afterBat, .receive _ => true
  | .initLink .afterId, .receive _ => true
  | .initLink .afterSetUp, .setRemoteMode _ => true
  | .initLink .afterSetUp, .enableReporting _ => true
  | .setRemoteMode .afterHelper, .toggled c _ => c == 0xF0#8
  | .setStreamMode .afterHelper, .toggled c _ => c == 0xEA#8
  | .setScaling21, .toggled c _ => c == 0xE7#8
  | .setScaling11, .toggled c _ => c == 0xE6#8
  | .toggled _ .afterSuspend, .disableReporting _ => true
  | .toggled _ .afterCommand, .transmit _ => true
  | .toggled _ .afterAck, .receive _ => true
  | .toggled _ .afterResume, .enableReporting _ => true
  | .setResolution .afterFirstToggle, .enableReporting _ => true
  | .setResolution .afterCommand, .transmit _ => true
  | .setResolution .afterCommandAck, .receive _ => true
  | .setResolution .afterArgument, .transmit _ => true
  | .setResolution .afterArgumentAck, .receive _ => true
  | .setResolution .afterLastToggle, .disableReporting _ => true
  | .setSampleRate .afterFirstToggle, .disableReporting _ => true
  | .setSampleRate .afterCommand, .transmit _ => true
  | .setSampleRate .afterCommandAck, .receive _ => true
  | .setSampleRate .afterArgument, .transmit _ => true
  | .setSampleRate .afterArgumentAck, .receive _ => true
  | .setSampleRate .afterLastToggle, .enableReporting _ => true
  | .enableReporting .afterByte, .transmit _ => true
  | .enableReporting .afterAck, .receive _ => true
  | .disableReporting .afterByte, .transmit _ => true
  | .disableReporting .afterAck, .receive _ => true
  | .report .afterPoll, .transmit _ => true
  | .report .afterPollAck, .receive _ => true
  | .report .afterStatus, .receive _ => true
  | .report .afterX, .decode .x => true
  | .report .afterY, .decode .y => true
  | .decode _, .receive _ => true
  | .receive .bit, .readBit _ => true
  | _, _ => false

/-- The operation code of a caller operation's frame (R101). -/
def callerCode (f : Frame) : Option (BitVec 4) :=
  match f with
  | .initLink _ => some 0x0#4
  | .setRemoteMode _ => some 0x1#4
  | .setStreamMode _ => some 0x2#4
  | .setScaling21 => some 0x3#4
  | .setScaling11 => some 0x4#4
  | .setResolution _ => some 0x5#4
  | .setSampleRate _ => some 0x6#4
  | .enableReporting _ => some 0x7#4
  | .disableReporting _ => some 0x8#4
  | .report _ => some 0x9#4
  | _ => none

/-- A caller operation called by nobody, whose code is the latched one, with everything above it called by what stands
below it (R28). -/
def legalChain (code : Option (BitVec 4)) (stack : List Frame) : Bool :=
  match stack with
  | [] => false
  | [f] => (callerCode f).isSome && callerCode f == code
  | f :: g :: k => awaits g f && legalChain code (g :: k)

/-- The innermost position is one at which the HOST polls a line, waits, or goes on after a byte exchange. -/
def legalTop (f : Frame) : Bool :=
  match f with
  | .transmit _ => true
  | .receive p => p != .bit
  | .readBit _ => true
  | .initLink p => p != .afterSetUp
  | .setRemoteMode p => p == .settle
  | .setStreamMode p => p == .settle
  | f => awaits f (.transmit .ack) || awaits f (.receive .bit)

/-- The value the host holds on Data during the slot `bitidx` names: that of slot `bitidx` + 1 of the frame of `sh` (R92). -/
def slotValue (s : State) : Bool := (goodFrame s.sh).getLsbD (s.bitidx.toNat + 1)

/-- The XOR of the first `n` bits of `v`. -/
def xorUpTo (v : Byte) (n : Nat) : Bool :=
  match n with
  | 0 => false
  | n + 1 => xorUpTo v n ^^ v.getLsbD n

/-- The line drives, the slot counter and the running parity that belong to each position (R33, R92, R131, R136 to R151). -/
def linesFit (s : State) : Prop :=
  match s.stack with
  | [] => s.dataDrv = .rel ∧ (s.wire ≠ [] → s.clockDrv = .low)
  | f :: _ =>
    match f with
    | .transmit .inhibit => s.clockDrv = .low ∧ s.dataDrv = .rel
    | .transmit .start => s.clockDrv = .low ∧ s.dataDrv = .low
    | .transmit .grant => s.clockDrv = .rel ∧ s.dataDrv = .low
    | .transmit .slotLow | .transmit .slotHigh =>
      s.clockDrv = .rel ∧ s.bitidx ≤ 9#4 ∧ s.dataDrv = bitDrv (slotValue s) ∧
        s.par = xorUpTo s.sh (min (s.bitidx.toNat + 1) 8)
    | .transmit .settle | .transmit .post | .transmit .ack => s.clockDrv = .rel ∧ s.dataDrv = .rel
    | .receive _ => s.clockDrv = .rel ∧ s.dataDrv = .rel
    | .readBit _ => s.clockDrv = .rel ∧ s.dataDrv = .rel ∧ s.bitidx ≤ 9#4
    | .initLink .powerup => s.clockDrv = .rel ∧ s.dataDrv = .rel
    | _ => s.clockDrv = .low ∧ s.dataDrv = .rel

/-- A sound state: idle with an empty stack, or busy with a legal one; the lines fit; no select word is raised. -/
structure Sound (s : State) : Prop where
  idle  : s.busy = false → s.stack = [] ∧ s.opCode = none
  busy  : s.busy = true → legalChain s.opCode s.stack = true ∧ ∃ f k, s.stack = f :: k ∧ legalTop f = true
  lines : linesFit s
  noSel : s.sel = none

/-- The positions at which the HOST reads a line: the polls and the sample of RB.2 (R135, R291). -/
def sampling (f : Frame) : Bool :=
  match f with
  | .transmit .grant | .transmit .slotLow | .transmit .slotHigh | .transmit .ack => true
  | .receive .soft | .receive .eat => true
  | .readBit _ => true
  | _ => false

/-- The positions of the `WaitWhile`s that can hang: all but RX.2 (R145, R242). -/
def polling (f : Frame) : Bool :=
  match f with
  | .transmit .grant | .transmit .slotLow | .transmit .slotHigh | .transmit .ack => true
  | .receive .eat => true
  | .readBit .waitLow | .readBit .waitHigh => true
  | _ => false

/-- At this sample the DEVICE does not produce the level that the position waits for (R242). -/
def lacking (f : Frame) (x : Sample) : Bool :=
  match f with
  | .transmit .grant | .transmit .slotLow | .readBit .waitLow => x.devClock
  | .transmit .slotHigh | .receive .eat | .readBit .waitHigh => !x.devClock
  | .transmit .ack => x.devClock || x.devData
  | _ => false

/-- The byte that an operation has been handed to send as an argument (R95), or as it is, by the transport layer's caller
(R136). -/
def handedByte (i : Instr) (s : State) : Option Byte :=
  match i with
  | .setResolution v | .setSampleRate v | .wireSetResolution v | .wireSetSampleRate v => some v
  | .cmd v => if argumentDue s then some v else none
  | .transmitByte v | .frameH2D v _ => some v
  | _ => none

/-- The operations that write `mode` (R201). -/
def writesMode (i : Instr) : Bool :=
  match i with
  | .initializeLink _ | .setRemoteMode _ | .setStreamMode _ => true
  | _ => false

/-- The operation that writes `initialized` and `ok` (R24, R102). -/
def writesOk (i : Instr) : Bool :=
  match i with
  | .initializeLink _ => true
  | _ => false

/-- The operations that write `resume_latch` (R30). -/
def writesLatch (i : Instr) : Bool :=
  match i with
  | .initializeLink _ | .setRemoteMode _ | .setStreamMode _ | .setScaling21 _ | .setScaling11 _ => true
  | .setResolution _ | .setSampleRate _ | .cmdToggled _ => true
  | _ => false

/-- The operations that write `reporting_enabled`, by calling ENABLE_ or DISABLE_DATA_REPORTING or being one (R25). -/
def writesReporting (i : Instr) : Bool :=
  match i with
  | .enableDataReporting _ | .disableDataReporting _ => true
  | i => writesLatch i

/-- The operations that write `arg` (R27). -/
def writesArg (i : Instr) : Bool :=
  match i with
  | .setResolution _ | .setSampleRate _ => true
  | _ => false

/-- The operations that write `bat` (R27). -/
def writesBat (i : Instr) : Bool :=
  match i with
  | .initializeLink _ | .respBatPass => true
  | _ => false

/-- The operations that write `status` (R27). -/
def writesStatus (i : Instr) : Bool :=
  match i with
  | .report _ | .movementReport _ _ _ => true
  | _ => false

/-- The operations that write `dx` (R27). -/
def writesDx (i : Instr) : Bool :=
  match i with
  | .decodeX => true
  | i => writesStatus i

/-- The operations that write `dy` (R27). -/
def writesDy (i : Instr) : Bool :=
  match i with
  | .decodeY => true
  | i => writesStatus i

/-- The operation that a word selects, if it selects one. -/
def selected (w : PortWord) : Option Instr :=
  match decode w with
  | .instr i => some i
  | .reject _ => none

/-- The operation that the next step of an idle HOST starts, if it starts one (R100, R103, R280, R281). -/
def started (s : State) : Option Instr :=
  match s.busy, s.sel with
  | true, _ => none
  | false, some w => selected w
  | false, none => if (nextSample s).1.rst then none else (presented (nextSample s).1).bind selected

/-- A step that neither faults nor refuses. -/
def Goes (r : Result) : Prop := ∃ s', r = .next s'

end Sys2Proof.Machine
end

