-- ==== Sys2Proof/Certificates/Slice0/Obligations.lean ====
section
/-! DEFINITION. The statements about the block. A statement that an operation completes takes the device's contract (R290) as
its premise: the queued samples of the ports are, in any timing the contract allows, those in which the DEVICE does what the
operation waits for. The state it ends in is given field by field: `afterExchange` keeps every field that the statement does
not name. -/

open Sys2Proof Sys2Proof.Machine

/-- Decoding the word of a well-formed operation gives the operation back, with every operand (R90, R94, R97, R100, R101,
R103). -/
def Obligations.DecodeEncode : Prop :=
  ∀ i : Instr, i.wellFormed = true → decode (encode i) = .instr i

/-- A word that decodes at all is the word of the operation it decodes to, and that operation is well formed: no reserved
encoding falls through to a neighbour (R90, R94, R101, R103, R108). That stray bits are no operation's (a stray argument byte, a
`t_byte` beside the request of RECEIVE_BYTE), and that a frame of wrong parity is none, is the model's choice (log entries 9, 10
and 16). -/
def Obligations.DecodedWordsAreEncodings : Prop :=
  ∀ (w : PortWord) (i : Instr), decode w = .instr i → encode i = w ∧ i.wellFormed = true

/-- Words written out from the tables decode to what they stand for. The bits are the tables' own; the places of operand bytes in
a word of several bytes (the argument above the command byte, `t_byte` in bits 15 to 8, the report bytes, bit k = slot k) are
the model's choice (log entry 10), and so is that the unused request 0b11 is rejected (log entry 16). -/
def Obligations.WordsOfTheTablesDecode : Prop :=
  decode ⟨.op12, 0b0000_0000_0000#24⟩ = .instr (.initializeLink 0x00#8) ∧
  decode ⟨.op12, 0b0110_0110_0100#24⟩ = .instr (.setSampleRate 0x64#8) ∧
  decode ⟨.op12, 0b1111_0000_0001#24⟩ = .instr (.reservedF 0x01#8) ∧
  decode ⟨.wireCmd8, 0b00000011_11101000#24⟩ = .instr (.wireSetResolution 0x03#8) ∧
  decode ⟨.wireCmd8, 0b11110010#24⟩ = .reject .unknownWireCommand ∧
  decode ⟨.frameH2D11, 0b1_0_11110100_0#24⟩ = .instr (.frameH2D 0xF4#8 false) ∧
  decode ⟨.frameD2H11, 0b1_1_10101010_0#24⟩ = .instr (.frameD2H 0b1_1_10101010_0#11) ∧
  decode ⟨.report24, 0b00000101_10000000_00011000#24⟩ = .instr (.movementReport 0x18#8 0x80#8 0x05#8) ∧
  decode ⟨.tReq2, 0b11110100_00000001#24⟩ = .instr (.transmitByte 0xF4#8) ∧
  decode ⟨.tReq2, 0b10#24⟩ = .instr .receiveByte ∧
  decode ⟨.tReq2, 0b11#24⟩ = .reject .unusedTransportCode ∧
  decode ⟨.tState5, 0b01110#24⟩ = .instr .readBit ∧
  decode ⟨.decSel1, 0b1#24⟩ = .instr .decodeY

/-- The well-formed frame of a byte: start 0, the data bits least significant first, a parity that makes the count of ones
odd, stop 1 (R90, R91). -/
def Obligations.FrameOfAByte : Prop :=
  ∀ v : Byte, (goodFrame v).getLsbD 0 = false ∧
    (∀ k : Fin 8, (goodFrame v).getLsbD (k + 1) = v.getLsbD k) ∧
    (goodFrame v).getLsbD 9 = oddParity v ∧ (goodFrame v).getLsbD 10 = true ∧
    (popcount v + (oddParity v).toNat) % 2 = 1

/-- The assembly of a movement: the low byte is the magnitude, the high byte the sign, and the number is m − 256·s (R98). -/
def Obligations.MovementAssembly : Prop :=
  ∀ (s : Bool) (m : Byte), (sext9to16 s m).extractLsb' 0 8 = m ∧
    (sext9to16 s m).extractLsb' 8 8 = (if s then 0xFF#8 else 0x00#8) ∧
    (sext9to16 s m).toInt = (m.toNat : Int) - (if s then 256 else 0)

/-- The order of the `Drive`s of TRANSMIT_BYTE(v), whatever the device does (R136 to R143, R242, R250): while it runs, or hangs,
it has made the first `n` of its sixteen calls; where it ends, all of them; where it times out, the first `n` and the two of
`raise Timeout`. -/
def Obligations.TransmitDriveOrder : Prop :=
  ∀ (v : Byte) (s t : State), s.busy = false → (∀ x ∈ s.inputs, x.rst = false) → exec (.transmitByte v) s = .next t →
    (t.busy = false ∧ t.drives = (transmitDrives v).reverse ++ s.drives) ∨
    ∃ n : Nat, n < 16 ∧
      ((t.busy = true ∧ t.drives = ((transmitDrives v).take n).reverse ++ s.drives) ∨
       (t.busy = false ∧ t.err = .timeout ∧ s.cfg.timeoutPolicy = .bounded ∧
        t.drives = (.clock, .low) :: (.data, .rel) :: (((transmitDrives v).take n).reverse ++ s.drives)))

/-- TRANSMIT_BYTE(v) against a device that grants, clocks and acknowledges: it ends in the bus hold, `v` is on the wire, the
`Drive`s are the sixteen given here in their order, it returns nothing, and every other register is as it was (R136 to R145).
That the row FRAME_H2D is the same operation is the model's reading (log entry 9), and the records of the wire and of the
`Drive`s are the model's own (log entry 11). -/
def Obligations.TransmitByteCompletes : Prop :=
  ∀ (v : Byte) (s : State) (xs rest : List Sample) (t' : Time),
    s.busy = false → s.inputs = xs ++ rest → transmitSeg s.cfg (now s) xs t' →
    ∃ (pins : Sample) (clk : Nat) (t0 : Time), pins.nowUs = t' ∧
      let t : State := { afterExchange s [.h2d v] rest ⟨v, xorBits v, 9#4, s.samp, t0, s.tResult, pins, clk⟩ with
        drives :=
          [(.data, .rel), (.clock, .rel), (.clock, .low), (.data, .low), (.clock, .rel),
           (.data, bitDrv (v.getLsbD 0)), (.data, bitDrv (v.getLsbD 1)), (.data, bitDrv (v.getLsbD 2)),
           (.data, bitDrv (v.getLsbD 3)), (.data, bitDrv (v.getLsbD 4)), (.data, bitDrv (v.getLsbD 5)),
           (.data, bitDrv (v.getLsbD 6)), (.data, bitDrv (v.getLsbD 7)), (.data, bitDrv (oddParity v)), (.data, .rel),
           (.clock, .low)].reverse ++ s.drives }
      exec (.transmitByte v) s = .next t ∧ exec (.frameH2D v (oddParity v)) s = .next t

/-- A host-to-device frame with the wrong parity slot is no frame of TRANSMIT_BYTE and is refused by name (R92; log entry
9). -/
def Obligations.WrongParityRefused : Prop :=
  ∀ (v : Byte) (p : Bool) (s : State), p ≠ oddParity v → exec (.frameH2D v p) s = .refused .notAHostFrame

/-- RECEIVE_BYTE on the seen-low path: bit i of the result is slot i + 1, whatever slots 0, 9 and 10 hold; it ends in the bus
hold, and every other register is as it was (R93, R146 to R152; that RX.3 waits for the start pulse to end is the spec's decision
D12). -/
def Obligations.ReceiveByteSeenLow : Prop :=
  ∀ (slots : BitVec 11) (s : State) (xs rest : List Sample) (t' : Time),
    s.busy = false → s.inputs = xs ++ rest → receiveSeg s.cfg slots (now s) xs t' →
    ∃ (v : Byte) (pins : Sample) (clk : Nat) (t0 : Time), (∀ k : Fin 8, v.getLsbD k = slots.getLsbD (k + 1)) ∧
      pins.nowUs = t' ∧ exec .receiveByte s =
        .next (afterExchange s [.d2h v] rest ⟨v, s.par, 9#4, slots.getLsbD 10, t0, v, pins, clk⟩)

/-- RECEIVE_BYTE on the timed-out path: bit i of the result is slot i, so a well-formed frame of `u` comes back as `u << 1`;
no error is recorded, and every other register is as it was (R152, R243). -/
def Obligations.ReceiveByteTimedOut : Prop :=
  ∀ (slots : BitVec 11) (s : State) (xs rest : List Sample) (t' : Time),
    s.busy = false → s.inputs = xs ++ rest → receiveLateSeg s.cfg slots (now s) xs t' →
    ∃ (v : Byte) (pins : Sample) (clk : Nat) (t0 : Time), (∀ k : Fin 8, v.getLsbD k = slots.getLsbD k) ∧
      (∀ u : Byte, slots = goodFrame u → v = u <<< 1) ∧
      pins.nowUs = t' ∧ exec .receiveByte s =
        .next (afterExchange s [.d2h v] rest ⟨v, s.par, 9#4, slots.getLsbD 9, t0, v, pins, clk⟩)

/-- READ_BIT with both lines released by the host: it returns the level of Data in the step after the poll that found Clock
low, and writes nothing else but the timer (R153). -/
def Obligations.ReadBitCompletes : Prop :=
  ∀ (b : Bool) (s : State) (xs rest : List Sample) (t' : Time),
    s.busy = false → s.clockDrv = .rel → s.dataDrv = .rel → s.inputs = xs ++ rest →
    bitSeg s.cfg b (now s) xs t' →
    ∃ (pins : Sample) (clk : Nat) (t0 : Time), pins.nowUs = t' ∧
      exec .readBit s = .next (idleWith rest { s with samp := b, t0 := t0, pins := pins, clk := clk })

/-- The frames and single responses of the opcode table, sent by the device in the reference shape: one RECEIVE_BYTE consumes
each, keeps the data slots, compares the byte with nothing and ends in the bus hold (R93, R96, R190; log entry 8). -/
def Obligations.DeviceBytesConsumed : Prop :=
  ∀ (slots : BitVec 11) (v : Byte) (s : State), s.cfg.Legal → s.busy = false →
    (∃ (pins : Sample) (clk : Nat) (t0 : Time), exec (.frameD2H slots) s =
      .next (afterExchange s [.d2h (frameByte slots)] s.inputs
        ⟨frameByte slots, s.par, 9#4, slots.getLsbD 10, t0, frameByte slots, pins, clk⟩)) ∧
    (∃ (pins : Sample) (clk : Nat) (t0 : Time), exec (.respAck v) s =
      .next (afterExchange s [.d2h v] s.inputs ⟨v, s.par, 9#4, true, t0, v, pins, clk⟩)) ∧
    (∃ (pins : Sample) (clk : Nat) (t0 : Time), exec (.respDeviceId v) s =
      .next (afterExchange s [.d2h v] s.inputs ⟨v, s.par, 9#4, true, t0, v, pins, clk⟩))

/-- The BAT byte 0xAA, sent by the device in the reference shape, is kept in `bat` (R96, R183; log entry 8). -/
def Obligations.BatByteKept : Prop :=
  ∀ s : State, s.cfg.Legal → s.busy = false →
    ∃ c : Scratch, exec .respBatPass s = .next { afterExchange s [.d2h 0xAA#8] s.inputs c with bat := 0xAA#8 }

/-- A movement report, sent by the device in the reference shape: `status` verbatim, the two magnitudes extended by bits 4 and
5 of `status` (R97, R98, R220; log entry 8). -/
def Obligations.MovementReportDecoded : Prop :=
  ∀ (status x y : Byte) (s : State), s.cfg.Legal → s.busy = false →
    ∃ c : Scratch, exec (.movementReport status x y) s =
      .next { afterExchange s [.d2h status, .d2h x, .d2h y] s.inputs c with
        status := status
        mag := y
        dx := if status.getLsbD 4 then 0xFF#8 ++ x else 0x00#8 ++ x
        dy := if status.getLsbD 5 then 0xFF#8 ++ y else 0x00#8 ++ y }

/-- CMD(c) and each one-byte wire command: the byte, then one received byte that changes nothing (R107, R190, R94). The byte
is a command of the table, or any byte where the argument of 0xE8 or 0xF3 is due (R95, R108; that the wire tells when it is due
is the model's choice, log entry 21). That the row of a wire command alone is CMD of its byte, and ends after the ack, is the
model's reading (log entry 7). -/
def Obligations.CommandCompletes : Prop :=
  ∀ (c a : Byte) (i : Instr) (s : State) (xs rest : List Sample) (t' : Time),
    (i, c) ∈ [(.cmd c, c), (.wireReset, 0xFF#8), (.wireSetRemoteMode, 0xF0#8), (.wireSetStreamMode, 0xEA#8),
      (.wireSetScaling21, 0xE7#8), (.wireSetScaling11, 0xE6#8), (.wireEnableDataReporting, 0xF4#8),
      (.wireDisableDataReporting, 0xF5#8), (.wireReadData, 0xEB#8)] →
    (c ∈ commandBytes ∨ argumentDue s = true) → s.busy = false → s.inputs = xs ++ rest →
    talkSeg s.cfg [.h2d c, .d2h a] (now s) xs t' →
    ∃ k : Scratch, exec i s = .next (afterExchange s [.h2d c, .d2h a] rest k)

/-- The two-byte wire commands: the command byte, its ack, the argument byte verbatim, its ack (R95, R190). That the row alone
sends both bytes and consumes both acks is the model's reading (log entry 7). -/
def Obligations.TwoByteCommandCompletes : Prop :=
  ∀ (v a1 a2 c : Byte) (i : Instr) (s : State) (xs rest : List Sample) (t' : Time),
    (i, c) ∈ [(.wireSetResolution v, 0xE8#8), (.wireSetSampleRate v, 0xF3#8)] →
    s.busy = false → s.inputs = xs ++ rest →
    talkSeg s.cfg [.h2d c, .d2h a1, .h2d v, .d2h a2] (now s) xs t' →
    ∃ k : Scratch, exec i s = .next (afterExchange s [.h2d c, .d2h a1, .h2d v, .d2h a2] rest k)

/-- CMD_TOGGLED(c): suspend if G, the command, resume if G; G is latched; reporting ends as it began, or enabled where the
guard `StreamOnly` lets G hold with reporting disabled (R191). The byte is a command of the table (R94, R108); any other
is refused (UnknownCommandRefused). -/
def Obligations.CommandToggledCompletes : Prop :=
  ∀ (c a0 a a1 : Byte) (s : State) (xs rest : List Sample) (t' : Time), c ∈ commandBytes →
    s.busy = false → s.inputs = xs ++ rest → talkSeg s.cfg (toggledTalk s c a0 a a1) (now s) xs t' →
    ∃ k : Scratch, exec (.cmdToggled c) s =
      .next { afterExchange s (toggledTalk s c a0 a a1) rest k with
        resumeLatch := toggles s
        reportingEnabled := toggles s || s.reportingEnabled }

/-- SET_REMOTE_MODE: CMD_TOGGLED(0xF0), `mode <- Remote`, and the settle wait if initialized (R192, R193). -/
def Obligations.SetRemoteModeCompletes : Prop :=
  ∀ (arg a0 a a1 : Byte) (s : State) (xs rest : List Sample) (t' : Time),
    s.busy = false → s.inputs = xs ++ rest →
    segSeq (talkSeg s.cfg (toggledTalk s 0xF0#8 a0 a a1)) (settleSeg s) (now s) xs t' →
    ∃ k : Scratch, exec (.setRemoteMode arg) s =
      .next { afterExchange s (toggledTalk s 0xF0#8 a0 a a1) rest k with
        mode := .remote
        resumeLatch := toggles s
        reportingEnabled := toggles s || s.reportingEnabled
        err := .none }

/-- SET_STREAM_MODE: CMD_TOGGLED(0xEA), `mode <- Stream`, and the settle wait if initialized (R191, R192, R194, R102). Where the
guard is `StreamOnly` (decision D16, R202) an operation entered in Stream mode with reporting disabled ends with it enabled. -/
def Obligations.SetStreamModeCompletes : Prop :=
  ∀ (arg a0 a a1 : Byte) (s : State) (xs rest : List Sample) (t' : Time),
    s.busy = false → s.inputs = xs ++ rest →
    segSeq (talkSeg s.cfg (toggledTalk s 0xEA#8 a0 a a1)) (settleSeg s) (now s) xs t' →
    ∃ k : Scratch, exec (.setStreamMode arg) s =
      .next { afterExchange s (toggledTalk s 0xEA#8 a0 a a1) rest k with
        mode := .stream
        resumeLatch := toggles s
        reportingEnabled := toggles s || s.reportingEnabled
        err := .none }

/-- The scaling commands: CMD_TOGGLED(0xE7) and CMD_TOGGLED(0xE6), no mode change, no settle wait (R191, R195, R196,
R102). Where the guard is `StreamOnly` (decision D16, R202) an operation entered in Stream mode with reporting disabled ends with
it enabled. -/
def Obligations.ScalingCompletes : Prop :=
  ∀ (arg a0 a a1 c : Byte) (i : Instr) (s : State) (xs rest : List Sample) (t' : Time),
    (i, c) ∈ [(.setScaling21 arg, 0xE7#8), (.setScaling11 arg, 0xE6#8)] →
    s.busy = false → s.inputs = xs ++ rest → talkSeg s.cfg (toggledTalk s c a0 a a1) (now s) xs t' →
    ∃ k : Scratch, exec i s =
      .next { afterExchange s (toggledTalk s c a0 a a1) rest k with
        resumeLatch := toggles s
        reportingEnabled := toggles s || s.reportingEnabled
        err := .none }

/-- SET_RESOLUTION(r): enable before, `0xE8` and `r` each with its ack, disable after; an operation entered with G leaves
reporting disabled (R197). -/
def Obligations.SetResolutionCompletes : Prop :=
  ∀ (r a0 a1 a2 a3 : Byte) (s : State) (xs rest : List Sample) (t' : Time),
    s.busy = false → s.inputs = xs ++ rest → talkSeg s.cfg (resolutionTalk s r a0 a1 a2 a3) (now s) xs t' →
    ∃ k : Scratch, exec (.setResolution r) s =
      .next { afterExchange s (resolutionTalk s r a0 a1 a2 a3) rest k with
        arg := r
        resumeLatch := toggles s
        reportingEnabled := !toggles s && s.reportingEnabled
        err := .none }

/-- SET_SAMPLE_RATE(n): disable before, `0xF3` and `n` each with its ack, enable after (R191, R198, R102).
Where the guard is `StreamOnly` (decision D16, R202) an operation entered in Stream mode with reporting disabled ends with it
enabled. -/
def Obligations.SetSampleRateCompletes : Prop :=
  ∀ (n a0 a1 a2 a3 : Byte) (s : State) (xs rest : List Sample) (t' : Time),
    s.busy = false → s.inputs = xs ++ rest → talkSeg s.cfg (sampleRateTalk s n a0 a1 a2 a3) (now s) xs t' →
    ∃ k : Scratch, exec (.setSampleRate n) s =
      .next { afterExchange s (sampleRateTalk s n a0 a1 a2 a3) rest k with
        arg := n
        resumeLatch := toggles s
        reportingEnabled := toggles s || s.reportingEnabled
        err := .none }

/-- ENABLE_DATA_REPORTING: 0xF4 and its ack, then the flag; nothing on the lines where reporting is
enabled (R199). That the call with nothing to do writes `err` = 0 all the same is the model's reading of R102 (log entry 20). -/
def Obligations.EnableDataReportingCompletes : Prop :=
  ∀ (arg a : Byte) (s : State) (xs rest : List Sample) (t' : Time), s.busy = false →
    (s.reportingEnabled = true → exec (.enableDataReporting arg) s =
      .next { idleWith s.inputs s with err := .none }) ∧
    (s.reportingEnabled = false → s.inputs = xs ++ rest → talkSeg s.cfg [.h2d 0xF4#8, .d2h a] (now s) xs t' →
      ∃ k : Scratch, exec (.enableDataReporting arg) s =
        .next { afterExchange s [.h2d 0xF4#8, .d2h a] rest k with reportingEnabled := true, err := .none })

/-- DISABLE_DATA_REPORTING: 0xF5 and its ack, then the flag; nothing on the lines where reporting is
disabled (R200). That the call with nothing to do writes `err` = 0 all the same is the model's reading of R102 (log entry 20). -/
def Obligations.DisableDataReportingCompletes : Prop :=
  ∀ (arg a : Byte) (s : State) (xs rest : List Sample) (t' : Time), s.busy = false →
    (s.reportingEnabled = false → exec (.disableDataReporting arg) s =
      .next { idleWith s.inputs s with err := .none }) ∧
    (s.reportingEnabled = true → s.inputs = xs ++ rest → talkSeg s.cfg [.h2d 0xF5#8, .d2h a] (now s) xs t' →
      ∃ k : Scratch, exec (.disableDataReporting arg) s =
        .next { afterExchange s [.h2d 0xF5#8, .d2h a] rest k with reportingEnabled := false, err := .none })

/-- DECODE_X and DECODE_Y: one magnitude byte, extended by the sign bit of the `status` register (R222, R223). -/
def Obligations.DecodersComplete : Prop :=
  ∀ (m : Byte) (s : State) (xs rest : List Sample) (t' : Time),
    s.busy = false → s.inputs = xs ++ rest → talkSeg s.cfg [.d2h m] (now s) xs t' →
    (∃ k : Scratch, exec .decodeX s = .next { afterExchange s [.d2h m] rest k with
      mag := m
      dx := if s.status.getLsbD 4 then 0xFF#8 ++ m else 0x00#8 ++ m }) ∧
    (∃ k : Scratch, exec .decodeY s = .next { afterExchange s [.d2h m] rest k with
      mag := m
      dy := if s.status.getLsbD 5 then 0xFF#8 ++ m else 0x00#8 ++ m })

/-- REPORT: the poll and its ack in Remote mode only, then the status byte and the two decoders (R220, R221). -/
def Obligations.ReportCompletes : Prop :=
  ∀ (arg a status x y : Byte) (s : State) (xs rest : List Sample) (t' : Time),
    s.busy = false → s.inputs = xs ++ rest → talkSeg s.cfg (reportTalk s a status x y) (now s) xs t' →
    ∃ k : Scratch, exec (.report arg) s =
      .next { afterExchange s (reportTalk s a status x y) rest k with
        status := status
        mag := y
        dx := if status.getLsbD 4 then 0xFF#8 ++ x else 0x00#8 ++ x
        dy := if status.getLsbD 5 then 0xFF#8 ++ y else 0x00#8 ++ y
        err := .none }

/-- INITIALIZE with a passed self-test: the reset exchange, the set-up of the mode the register names, `initialized` and `ok`
set (R180 to R187, R191, R102). On a repeated call in Remote mode the settle wait of R192 belongs to the set-up (R186, decision
D19); INIT.1 releases Clock before Data (decision D14). -/
def Obligations.InitializePasses : Prop :=
  ∀ (arg a id a2 : Byte) (s : State) (xs rest : List Sample) (t' : Time),
    s.busy = false → s.inputs = xs ++ rest →
    segSeq (untilBat s a 0xAA#8 id) (afterBat s a2) (now s) xs t' →
    ∃ k : Scratch, exec (.initializeLink arg) s =
      .next { afterExchange (drive .data .rel (drive .clock .rel s)) (resetTalk a 0xAA#8 id ++ setUpTalk s a2) rest k with
        bat := 0xAA#8
        ok := true
        initialized := true
        reportingEnabled := s.mode == .stream || s.reportingEnabled
        resumeLatch := s.mode == .stream && s.resumeLatch
        err := .none }

/-- INITIALIZE with a failed self-test: it returns `false` after the reset exchange and the second wait, sends nothing more and
writes nothing else (R185, R241). -/
def Obligations.InitializeFails : Prop :=
  ∀ (arg a bat id : Byte) (s : State) (xs rest : List Sample) (t' : Time), bat ≠ 0xAA#8 →
    s.busy = false → s.inputs = xs ++ rest → untilBat s a bat id (now s) xs t' →
    ∃ k : Scratch, exec (.initializeLink arg) s =
      .next { afterExchange (drive .data .rel (drive .clock .rel s)) (resetTalk a bat id) rest k with
        bat := bat
        ok := false
        err := .none }

/-- A reserved op code completes at once with `err` = 2 and no other effect (R104, R251). -/
def Obligations.ReservedCodesComplete : Prop :=
  ∀ (arg : Byte) (i : Instr) (s : State),
    i ∈ [.reservedA arg, .reservedB arg, .reservedC arg, .reservedD arg, .reservedE arg, .reservedF arg] →
    s.busy = false → exec i s = .next { s with err := .illegalOp } ∧
      (State.outputs { s with err := .illegalOp }).resErr = 2#2

/-- A busy HOST accepts no operation: no effect, and `op_ready` = 0 (R29, R105). R105 says so of op words; that
it holds of the other rows too is the model's choice (log entry 15). -/
def Obligations.BusyAcceptsNothing : Prop :=
  ∀ (i : Instr) (s : State), i.wellFormed = true → s.busy = true →
    exec i s = .next s ∧ s.outputs.opReady = false

/-- At a clock edge of a busy HOST the op port has no effect (R105). -/
def Obligations.OpPortIgnoredWhileBusy : Prop :=
  ∀ (x : Sample) (valid : Bool) (op : BitVec 12) (s t : State), s.busy = true → edge x s = .next t →
    edge { x with opValid := valid, op := op } s = .next { t with pins := { x with opValid := valid, op := op } }

/-- What reset leaves, for any parameters and construction argument (R34). -/
def Obligations.ResetValues : Prop :=
  ∀ (p : Params) (m : Mode), let s := State.afterReset p m
    s.mode = m ∧ s.initialized = false ∧ s.reportingEnabled = false ∧ s.clockDrv = .rel ∧ s.dataDrv = .rel ∧
    s.busy = false ∧ s.err = .none ∧ s.stack = [] ∧ State.reset = State.afterReset Params.default .remote

/-- `rst` at a clock edge, busy or idle: the state of R34 with `mode` from the port, nothing sent, the operation abandoned
(R280). The registers that R34 leaves open are 0, and the parameters, the queued samples and the edge count stand: the model's
choice (log entries 1 and 12). -/
def Obligations.ResetAtAnEdge : Prop :=
  ∀ (x : Sample) (xs : List Sample) (s : State), x.rst = true → s.inputs = x :: xs → (s.busy = true ∨ s.sel = none) →
    step s = .next { State.afterReset s.cfg x.cfgMode with pins := x, inputs := xs, clk := s.clk + 1 }

/-- A hang: while the device does not produce the awaited level (and, under the Bounded policy, the limit has not passed) the
HOST stays busy at its position and changes nothing (R242). -/
def Obligations.MissingLevelHolds : Prop :=
  ∀ (f : Frame) (k : List Frame) (x : Sample) (s : State), Sound s → s.stack = f :: k → s.busy = true →
    x.rst = false → polling f = true → lacking f x = true →
    (s.cfg.timeoutPolicy = .bounded → x.nowUs - s.t0 ≤ s.cfg.tTimeout) →
    edge x s = .next { s with pins := x, clk := s.clk + 1 }

/-- Timeout under the Bounded policy: the bus hold, the stack abandoned, `err` = 1, `ok` = 0 for INITIALIZE, `busy` = 0, no
other register written (R250). -/
def Obligations.TimeoutRaised : Prop :=
  ∀ (f : Frame) (k : List Frame) (x : Sample) (s : State), Sound s → s.stack = f :: k → s.busy = true →
    x.rst = false → polling f = true → lacking f x = true →
    s.cfg.timeoutPolicy = .bounded → s.cfg.tTimeout < x.nowUs - s.t0 →
    edge x s = .next { s with
      pins := x
      clk := s.clk + 1
      dataDrv := .rel
      clockDrv := .low
      drives := (.clock, .low) :: (.data, .rel) :: s.drives
      stack := []
      opCode := none
      busy := false
      err := .timeout
      ok := if s.opCode = some 0x0#4 then false else s.ok }

/-- At a poll where the awaited level is present no Timeout is raised, however late it is: the operation goes on, or ends
normally (R247). -/
def Obligations.AwaitedLevelWins : Prop :=
  ∀ (f : Frame) (k : List Frame) (x : Sample) (s : State), Sound s → s.stack = f :: k → s.busy = true →
    x.rst = false → polling f = true → lacking f x = false →
    ∃ t : State, edge x s = .next t ∧ (t.busy = true ∨ t.err = .none)

/-- No line is sampled outside the polls and RB.2: at every other position the device's levels change nothing (R132, R135,
R291). -/
def Obligations.UnsampledWindows : Prop :=
  ∀ (f : Frame) (k : List Frame) (x : Sample) (clock data : Bool) (s : State), Sound s → s.stack = f :: k →
    s.busy = true → sampling f = false →
    ∃ t : State, edge x s = .next { t with pins := x } ∧
      edge { x with devClock := clock, devData := data } s =
        .next { t with pins := { x with devClock := clock, devData := data } }

/-- No line is read while the host drives it: wherever Clock is read it is released, and wherever Data is read it is released,
so that the level read is the device's (R131). -/
def Obligations.LevelIsTheDevices : Prop :=
  ∀ (f : Frame) (k : List Frame) (s : State), Sound s → s.stack = f :: k → sampling f = true →
    level .clock s = s.pins.devClock ∧
    ((f = .transmit .ack ∨ f = .readBit .sample) → level .data s = s.pins.devData)

/-- The bus hold: an idle HOST that has exchanged a byte since reset holds Clock low and releases Data (R33). -/
def Obligations.IdleHoldsTheBus : Prop :=
  ∀ s : State, Sound s → s.busy = false → s.wire ≠ [] → s.clockDrv = .low ∧ s.dataDrv = .rel

/-- The stack never exceeds six frames (R28). -/
def Obligations.StackDepth : Prop := ∀ s : State, Sound s → s.stack.length ≤ 6

/-- The state after reset is sound, for any parameters and construction argument (R28, R33, R34). -/
def Obligations.SoundReset : Prop := ∀ (p : Params) (m : Mode), Sound (State.afterReset p m)

/-- Every step keeps a sound state sound: a legal chain of calls with the latched operation at its foot (R28), and lines, slot
counter and parity that fit the position (R33, R92, R131). -/
def Obligations.SoundStep : Prop := ∀ s s' : State, Sound s → step s = .next s' → Sound s'

/-- From a sound state every step answers a next state: no fault and no refusal is reachable (U13). -/
def Obligations.SoundGoes : Prop := ∀ s : State, Sound s → Goes (step s)

/-- The parameters of the instantiation never change (R8, R21). -/
def Obligations.ParametersFixed : Prop := ∀ s s' : State, step s = .next s' → s'.cfg = s.cfg

/-- A step runs the decoded operation: an idle HOST that samples an op word with no reset takes the word, and the meaning of
the operation is its effect (R100). That one step is the whole operation over the queued samples is the model's choice (log entry
6). -/
def Obligations.StepRunsTheOpWord : Prop :=
  ∀ (x : Sample) (xs : List Sample) (s : State), s.busy = false → s.sel = none → s.inputs = x :: xs → x.rst = false →
    x.opValid = true →
    step s = exec (decodeOp x.op) { s with pins := x, inputs := xs, clk := s.clk + 1 }

/-- A step runs the operation that a select word selects (log entry 5). -/
def Obligations.StepRunsTheSelectWord : Prop :=
  ∀ (w : PortWord) (i : Instr) (s : State), s.busy = false → s.sel = some w → decode w = .instr i →
    step s = exec i { s with sel := none }

/-- An idle HOST runs nothing until an op word is presented (R281); a busy HOST takes one clock edge (R28; log entry 6). -/
def Obligations.StepWithoutAnOpWord : Prop :=
  ∀ (x : Sample) (xs : List Sample) (s : State), s.inputs = x :: xs →
    (s.busy = false → s.sel = none → x.rst = false → x.opValid = false →
      step s = .next { s with pins := x, inputs := xs, clk := s.clk + 1 }) ∧
    (s.busy = true → step s = edge x { s with inputs := xs })

/-- A caller operation run over the queued samples is its acceptance followed by single steps over the same samples (R28,
R29; log entry 6). -/
def Obligations.ExecIsSteps : Prop :=
  ∀ (w : BitVec 12) (s t : State), s.busy = false → exec (decodeOp w) s = .next t →
    ∃ (s1 : State) (n : Nat), exec (decodeOp w) { s with inputs := [] } = .next s1 ∧ n ≤ s.inputs.length ∧
      Host.Core.run Sys2Proof.core n ({ s1 with inputs := s.inputs } : State) = .next t

/-- The control bits: without a reset, `mode` is written by INITIALIZE, SET_REMOTE_MODE and SET_STREAM_MODE only,
`initialized` by INITIALIZE only, `reporting_enabled` by ENABLE_ and DISABLE_DATA_REPORTING and their callers only, whether
the operation completes, hangs or times out (R24, R25, R201). -/
def Obligations.ControlBitsFrame : Prop :=
  ∀ (i : Instr) (s s' : State), (∀ x ∈ s.inputs, x.rst = false) → exec i s = .next s' →
    (writesMode i = false → s'.mode = s.mode) ∧
    (writesOk i = false → s'.initialized = s.initialized) ∧
    (writesReporting i = false → s'.reportingEnabled = s.reportingEnabled)

/-- The results: without a reset, `ok` is written by INITIALIZE only, `status`, `mag`, `dx`, `dy` by REPORT and the report and
decoder rows only (R102, R220, R222, R223). -/
def Obligations.ResultsFrame : Prop :=
  ∀ (i : Instr) (s s' : State), (∀ x ∈ s.inputs, x.rst = false) → exec i s = .next s' →
    (writesOk i = false → s'.ok = s.ok) ∧
    (writesStatus i = false → s'.status = s.status) ∧
    (writesDx i = false → s'.dx = s.dx) ∧
    (writesDy i = false → s'.dy = s.dy) ∧
    (writesDx i = false → writesDy i = false → s'.mag = s.mag)

/-- The protocol registers: without a reset, `arg`, `bat` and `resume_latch` are written by the operations that R27 and R30
name only. -/
def Obligations.ProtocolRegistersFrame : Prop :=
  ∀ (i : Instr) (s s' : State), (∀ x ∈ s.inputs, x.rst = false) → exec i s = .next s' →
    (writesArg i = false → s'.arg = s.arg) ∧
    (writesBat i = false → s'.bat = s.bat) ∧
    (writesLatch i = false → s'.resumeLatch = s.resumeLatch)

/-- No operation sends a byte but those of R94 and an argument byte, whatever the device does (R94, R95, R108): of the caller
operations only SET_RESOLUTION and SET_SAMPLE_RATE have one; the rows run on their own send the argument they carry, CMD any
byte only where an argument is due (log entry 21), and the transport layer alone (TRANSMIT_BYTE, FRAME_H2D) the byte that it is
handed (R136). -/
def Obligations.BytesTheHostSends : Prop :=
  (∀ (i : Instr) (s s' : State) (v : Byte), exec i s = .next s' → .h2d v ∈ s'.wire →
    .h2d v ∈ s.wire ∨ v ∈ commandBytes ∨ handedByte i s = some v) ∧
  (∀ (w : BitVec 12) (s : State) (v : Byte), handedByte (decodeOp w) s = some v →
    (opCodeOf w = 0x5#4 ∨ opCodeOf w = 0x6#4) ∧ v = opArgOf w)

/-- `mode` changes in a step only by a reset at one of the samples the step may take, to that sample's `cfg_mode`, or by
SET_REMOTE_MODE or SET_STREAM_MODE, running or started by the step, to the mode it sets (R201). INITIALIZE does not change it:
in Remote mode it writes Remote over Remote. -/
def Obligations.ModeTransitions : Prop :=
  ∀ s t : State, step s = .next t → t.mode ≠ s.mode →
    (∃ x ∈ (nextSample s).1 :: (nextSample s).2, x.rst = true ∧ t.mode = x.cfgMode) ∨
    (t.mode = .remote ∧ ((s.busy = true ∧ .setRemoteMode .afterHelper ∈ s.stack) ∨
      ∃ arg, started s = some (.setRemoteMode arg))) ∨
    (t.mode = .stream ∧ ((s.busy = true ∧ .setStreamMode .afterHelper ∈ s.stack) ∨
      ∃ arg, started s = some (.setStreamMode arg)))

/-- `initialized` is never cleared but by a reset: not at a clock edge, and not by an operation that completes, fails, hangs or
times out, INITIALIZE itself among them (R24, decision D19). -/
def Obligations.InitializedNeverCleared : Prop :=
  (∀ (x : Sample) (s t : State), x.rst = false → edge x s = .next t → s.initialized = true → t.initialized = true) ∧
  (∀ (i : Instr) (s t : State), (∀ x ∈ s.inputs, x.rst = false) → exec i s = .next t → s.initialized = true →
    t.initialized = true)

/-- A select word that is no operation's is refused by name, and the refusal says what the decoder found (R103, R108; U10, U13).
That the machine stops there, and that the word comes from the field `sel`, is the model's choice (log entries 5 and 16). -/
def Obligations.SelectWordRefused : Prop :=
  ∀ (w : PortWord) (r : Reject) (s : State), s.busy = false → s.sel = some w → decode w = .reject r →
    step s = .refused (.noSuchWord r)

/-- The output ports in every state: a line's level is low where its pull-low output or the device pulls it (R22, R131), `op_ready`
is NOT `busy` (R105), `res_err` is never 3 (R27), the status outputs mirror the control bits (R23, R102). -/
def Obligations.OutputPorts : Prop :=
  ∀ s : State,
    level .clock s = (!s.outputs.ps2ClkLow && s.pins.devClock) ∧ level .data s = (!s.outputs.ps2DatLow && s.pins.devData) ∧
    s.outputs.opReady = !s.outputs.busy ∧ s.outputs.busy = s.busy ∧
    s.outputs.resOk = s.ok ∧ s.outputs.resStatus = s.status ∧ s.outputs.resDx = s.dx ∧ s.outputs.resDy = s.dy ∧
    s.outputs.resErr ≠ 3#2 ∧ (s.outputs.resErr = 0#2 ↔ s.err = .none) ∧ (s.outputs.resErr = 1#2 ↔ s.err = .timeout) ∧
    (s.outputs.stMode = true ↔ s.mode = .stream) ∧ s.outputs.stInitialized = s.initialized ∧
    s.outputs.stReporting = s.reportingEnabled

/-- What the ports show after REPORT, and after INITIALIZE with a passed and with a failed self-test: the bus hold, an idle block,
the results of the operation, the results of others as they were (R33, R102, R185, R187, R220). -/
def Obligations.ResultPorts : Prop :=
  ∀ (arg a a2 id bat status x y : Byte) (s : State) (xs rest : List Sample) (t' : Time),
    s.busy = false → s.inputs = xs ++ rest →
    let o : Outputs :=
      { s.outputs with ps2ClkLow := true, ps2DatLow := false, opReady := true, busy := false, resErr := 0#2 }
    (talkSeg s.cfg (reportTalk s a status x y) (now s) xs t' →
      ∃ t : State, exec (.report arg) s = .next t ∧ t.outputs = { o with
        resStatus := status
        resDx := if status.getLsbD 4 then 0xFF#8 ++ x else 0x00#8 ++ x
        resDy := if status.getLsbD 5 then 0xFF#8 ++ y else 0x00#8 ++ y }) ∧
    (segSeq (untilBat s a 0xAA#8 id) (afterBat s a2) (now s) xs t' →
      ∃ t : State, exec (.initializeLink arg) s = .next t ∧ t.outputs = { o with
        resOk := true
        stInitialized := true
        stReporting := s.outputs.stMode || s.outputs.stReporting }) ∧
    (bat ≠ 0xAA#8 → untilBat s a bat id (now s) xs t' →
      ∃ t : State, exec (.initializeLink arg) s = .next t ∧ t.outputs = { o with resOk := false })

/-- A byte that is no command of the table is sent by no toggled command, and by CMD only as the argument of 0xE8 or 0xF3: the
operation is refused by name, and the word of such a CMD_TOGGLED is rejected (R94, R95, R108; U10; that the wire tells when an
argument is due is the model's choice, log entry 21). -/
def Obligations.UnknownCommandRefused : Prop :=
  ∀ (c : Byte) (s : State), c ∉ commandBytes → s.busy = false →
    exec (.cmdToggled c) s = .refused (.unsentCommand c) ∧
    (argumentDue s = false → exec (.cmd c) s = .refused (.unsentCommand c)) ∧
    decode ⟨.toggled8, c.setWidth 24⟩ = .reject .unknownWireCommand

/-- An argument is due right after 0xE8 or 0xF3 and its ack, where none was due before, and no longer after the argument and its
ack (R95; log entry 21). -/
def Obligations.ArgumentDue : Prop :=
  ∀ (c r a a' : Byte) (s : State) (k k' : Scratch), argumentDue s = false →
    argumentDue (exchanged (command c a) k s) = (c == 0xE8#8 || c == 0xF3#8) ∧
    ((c = 0xE8#8 ∨ c = 0xF3#8) →
      argumentDue (exchanged (command r a') k' (exchanged (command c a) k s)) = false)
end

