-- ==== Sys2Proof/Laws/State.lean ====
section
/-! SUPPORT. One lemma per field per update of the state: what an update writes, and that it leaves every other field. -/

namespace Sys2Proof.Machine

/-- `s` with other ports and another edge count: what a run of edges at which nothing happens comes to. -/
def seenAt (x : Sample) (c : Nat) (s : State) : State := { s with pins := x, clk := c }

theorem sampled_eq_seenAt (x : Sample) (s : State) : sampled x s = seenAt x (s.clk + 1) s := rfl

@[simp] theorem seenAt_seenAt (x y : Sample) (c d : Nat) (s : State) : seenAt x c (seenAt y d s) = seenAt x c s := rfl


@[simp] theorem seenAt_clockDrv (x : Sample) (c : Nat) (s : State) : (seenAt x c s).clockDrv = s.clockDrv := rfl
@[simp] theorem seenAt_dataDrv (x : Sample) (c : Nat) (s : State) : (seenAt x c s).dataDrv = s.dataDrv := rfl
@[simp] theorem seenAt_mode (x : Sample) (c : Nat) (s : State) : (seenAt x c s).mode = s.mode := rfl
@[simp] theorem seenAt_initialized (x : Sample) (c : Nat) (s : State) : (seenAt x c s).initialized = s.initialized := rfl
@[simp] theorem seenAt_reportingEnabled (x : Sample) (c : Nat) (s : State) : (seenAt x c s).reportingEnabled = s.reportingEnabled := rfl
@[simp] theorem seenAt_sh (x : Sample) (c : Nat) (s : State) : (seenAt x c s).sh = s.sh := rfl
@[simp] theorem seenAt_par (x : Sample) (c : Nat) (s : State) : (seenAt x c s).par = s.par := rfl
@[simp] theorem seenAt_bitidx (x : Sample) (c : Nat) (s : State) : (seenAt x c s).bitidx = s.bitidx := rfl
@[simp] theorem seenAt_samp (x : Sample) (c : Nat) (s : State) : (seenAt x c s).samp = s.samp := rfl
@[simp] theorem seenAt_arg (x : Sample) (c : Nat) (s : State) : (seenAt x c s).arg = s.arg := rfl
@[simp] theorem seenAt_bat (x : Sample) (c : Nat) (s : State) : (seenAt x c s).bat = s.bat := rfl
@[simp] theorem seenAt_status (x : Sample) (c : Nat) (s : State) : (seenAt x c s).status = s.status := rfl
@[simp] theorem seenAt_mag (x : Sample) (c : Nat) (s : State) : (seenAt x c s).mag = s.mag := rfl
@[simp] theorem seenAt_dx (x : Sample) (c : Nat) (s : State) : (seenAt x c s).dx = s.dx := rfl
@[simp] theorem seenAt_dy (x : Sample) (c : Nat) (s : State) : (seenAt x c s).dy = s.dy := rfl
@[simp] theorem seenAt_ok (x : Sample) (c : Nat) (s : State) : (seenAt x c s).ok = s.ok := rfl
@[simp] theorem seenAt_err (x : Sample) (c : Nat) (s : State) : (seenAt x c s).err = s.err := rfl
@[simp] theorem seenAt_stack (x : Sample) (c : Nat) (s : State) : (seenAt x c s).stack = s.stack := rfl
@[simp] theorem seenAt_opCode (x : Sample) (c : Nat) (s : State) : (seenAt x c s).opCode = s.opCode := rfl
@[simp] theorem seenAt_busy (x : Sample) (c : Nat) (s : State) : (seenAt x c s).busy = s.busy := rfl
@[simp] theorem seenAt_resumeLatch (x : Sample) (c : Nat) (s : State) : (seenAt x c s).resumeLatch = s.resumeLatch := rfl
@[simp] theorem seenAt_t0 (x : Sample) (c : Nat) (s : State) : (seenAt x c s).t0 = s.t0 := rfl
@[simp] theorem seenAt_tResult (x : Sample) (c : Nat) (s : State) : (seenAt x c s).tResult = s.tResult := rfl
@[simp] theorem seenAt_cfg (x : Sample) (c : Nat) (s : State) : (seenAt x c s).cfg = s.cfg := rfl
@[simp] theorem seenAt_pins (x : Sample) (c : Nat) (s : State) : (seenAt x c s).pins = x := rfl
@[simp] theorem seenAt_inputs (x : Sample) (c : Nat) (s : State) : (seenAt x c s).inputs = s.inputs := rfl
@[simp] theorem seenAt_clk (x : Sample) (c : Nat) (s : State) : (seenAt x c s).clk = c := rfl
@[simp] theorem seenAt_sel (x : Sample) (c : Nat) (s : State) : (seenAt x c s).sel = s.sel := rfl
@[simp] theorem seenAt_wire (x : Sample) (c : Nat) (s : State) : (seenAt x c s).wire = s.wire := rfl
@[simp] theorem seenAt_drives (x : Sample) (c : Nat) (s : State) : (seenAt x c s).drives = s.drives := rfl

@[simp] theorem armTimer_clockDrv  (s : State) : (armTimer s).clockDrv = s.clockDrv := rfl
@[simp] theorem armTimer_dataDrv  (s : State) : (armTimer s).dataDrv = s.dataDrv := rfl
@[simp] theorem armTimer_mode  (s : State) : (armTimer s).mode = s.mode := rfl
@[simp] theorem armTimer_initialized  (s : State) : (armTimer s).initialized = s.initialized := rfl
@[simp] theorem armTimer_reportingEnabled  (s : State) : (armTimer s).reportingEnabled = s.reportingEnabled := rfl
@[simp] theorem armTimer_sh  (s : State) : (armTimer s).sh = s.sh := rfl
@[simp] theorem armTimer_par  (s : State) : (armTimer s).par = s.par := rfl
@[simp] theorem armTimer_bitidx  (s : State) : (armTimer s).bitidx = s.bitidx := rfl
@[simp] theorem armTimer_samp  (s : State) : (armTimer s).samp = s.samp := rfl
@[simp] theorem armTimer_arg  (s : State) : (armTimer s).arg = s.arg := rfl
@[simp] theorem armTimer_bat  (s : State) : (armTimer s).bat = s.bat := rfl
@[simp] theorem armTimer_status  (s : State) : (armTimer s).status = s.status := rfl
@[simp] theorem armTimer_mag  (s : State) : (armTimer s).mag = s.mag := rfl
@[simp] theorem armTimer_dx  (s : State) : (armTimer s).dx = s.dx := rfl
@[simp] theorem armTimer_dy  (s : State) : (armTimer s).dy = s.dy := rfl
@[simp] theorem armTimer_ok  (s : State) : (armTimer s).ok = s.ok := rfl
@[simp] theorem armTimer_err  (s : State) : (armTimer s).err = s.err := rfl
@[simp] theorem armTimer_stack  (s : State) : (armTimer s).stack = s.stack := rfl
@[simp] theorem armTimer_opCode  (s : State) : (armTimer s).opCode = s.opCode := rfl
@[simp] theorem armTimer_busy  (s : State) : (armTimer s).busy = s.busy := rfl
@[simp] theorem armTimer_resumeLatch  (s : State) : (armTimer s).resumeLatch = s.resumeLatch := rfl
@[simp] theorem armTimer_t0  (s : State) : (armTimer s).t0 = s.pins.nowUs := rfl
@[simp] theorem armTimer_tResult  (s : State) : (armTimer s).tResult = s.tResult := rfl
@[simp] theorem armTimer_cfg  (s : State) : (armTimer s).cfg = s.cfg := rfl
@[simp] theorem armTimer_pins  (s : State) : (armTimer s).pins = s.pins := rfl
@[simp] theorem armTimer_inputs  (s : State) : (armTimer s).inputs = s.inputs := rfl
@[simp] theorem armTimer_clk  (s : State) : (armTimer s).clk = s.clk := rfl
@[simp] theorem armTimer_sel  (s : State) : (armTimer s).sel = s.sel := rfl
@[simp] theorem armTimer_wire  (s : State) : (armTimer s).wire = s.wire := rfl
@[simp] theorem armTimer_drives  (s : State) : (armTimer s).drives = s.drives := rfl

@[simp] theorem drive_clock_clockDrv (d : Drv) (s : State) : (drive .clock d s).clockDrv = d := rfl
@[simp] theorem drive_clock_dataDrv (d : Drv) (s : State) : (drive .clock d s).dataDrv = s.dataDrv := rfl
@[simp] theorem drive_clock_mode (d : Drv) (s : State) : (drive .clock d s).mode = s.mode := rfl
@[simp] theorem drive_clock_initialized (d : Drv) (s : State) : (drive .clock d s).initialized = s.initialized := rfl
@[simp] theorem drive_clock_reportingEnabled (d : Drv) (s : State) : (drive .clock d s).reportingEnabled = s.reportingEnabled := rfl
@[simp] theorem drive_clock_sh (d : Drv) (s : State) : (drive .clock d s).sh = s.sh := rfl
@[simp] theorem drive_clock_par (d : Drv) (s : State) : (drive .clock d s).par = s.par := rfl
@[simp] theorem drive_clock_bitidx (d : Drv) (s : State) : (drive .clock d s).bitidx = s.bitidx := rfl
@[simp] theorem drive_clock_samp (d : Drv) (s : State) : (drive .clock d s).samp = s.samp := rfl
@[simp] theorem drive_clock_arg (d : Drv) (s : State) : (drive .clock d s).arg = s.arg := rfl
@[simp] theorem drive_clock_bat (d : Drv) (s : State) : (drive .clock d s).bat = s.bat := rfl
@[simp] theorem drive_clock_status (d : Drv) (s : State) : (drive .clock d s).status = s.status := rfl
@[simp] theorem drive_clock_mag (d : Drv) (s : State) : (drive .clock d s).mag = s.mag := rfl
@[simp] theorem drive_clock_dx (d : Drv) (s : State) : (drive .clock d s).dx = s.dx := rfl
@[simp] theorem drive_clock_dy (d : Drv) (s : State) : (drive .clock d s).dy = s.dy := rfl
@[simp] theorem drive_clock_ok (d : Drv) (s : State) : (drive .clock d s).ok = s.ok := rfl
@[simp] theorem drive_clock_err (d : Drv) (s : State) : (drive .clock d s).err = s.err := rfl
@[simp] theorem drive_clock_stack (d : Drv) (s : State) : (drive .clock d s).stack = s.stack := rfl
@[simp] theorem drive_clock_opCode (d : Drv) (s : State) : (drive .clock d s).opCode = s.opCode := rfl
@[simp] theorem drive_clock_busy (d : Drv) (s : State) : (drive .clock d s).busy = s.busy := rfl
@[simp] theorem drive_clock_resumeLatch (d : Drv) (s : State) : (drive .clock d s).resumeLatch = s.resumeLatch := rfl
@[simp] theorem drive_clock_t0 (d : Drv) (s : State) : (drive .clock d s).t0 = s.t0 := rfl
@[simp] theorem drive_clock_tResult (d : Drv) (s : State) : (drive .clock d s).tResult = s.tResult := rfl
@[simp] theorem drive_clock_cfg (d : Drv) (s : State) : (drive .clock d s).cfg = s.cfg := rfl
@[simp] theorem drive_clock_pins (d : Drv) (s : State) : (drive .clock d s).pins = s.pins := rfl
@[simp] theorem drive_clock_inputs (d : Drv) (s : State) : (drive .clock d s).inputs = s.inputs := rfl
@[simp] theorem drive_clock_clk (d : Drv) (s : State) : (drive .clock d s).clk = s.clk := rfl
@[simp] theorem drive_clock_sel (d : Drv) (s : State) : (drive .clock d s).sel = s.sel := rfl
@[simp] theorem drive_clock_wire (d : Drv) (s : State) : (drive .clock d s).wire = s.wire := rfl
@[simp] theorem drive_clock_drives (d : Drv) (s : State) : (drive .clock d s).drives = (.clock, d) :: s.drives := rfl

@[simp] theorem drive_data_clockDrv (d : Drv) (s : State) : (drive .data d s).clockDrv = s.clockDrv := rfl
@[simp] theorem drive_data_dataDrv (d : Drv) (s : State) : (drive .data d s).dataDrv = d := rfl
@[simp] theorem drive_data_mode (d : Drv) (s : State) : (drive .data d s).mode = s.mode := rfl
@[simp] theorem drive_data_initialized (d : Drv) (s : State) : (drive .data d s).initialized = s.initialized := rfl
@[simp] theorem drive_data_reportingEnabled (d : Drv) (s : State) : (drive .data d s).reportingEnabled = s.reportingEnabled := rfl
@[simp] theorem drive_data_sh (d : Drv) (s : State) : (drive .data d s).sh = s.sh := rfl
@[simp] theorem drive_data_par (d : Drv) (s : State) : (drive .data d s).par = s.par := rfl
@[simp] theorem drive_data_bitidx (d : Drv) (s : State) : (drive .data d s).bitidx = s.bitidx := rfl
@[simp] theorem drive_data_samp (d : Drv) (s : State) : (drive .data d s).samp = s.samp := rfl
@[simp] theorem drive_data_arg (d : Drv) (s : State) : (drive .data d s).arg = s.arg := rfl
@[simp] theorem drive_data_bat (d : Drv) (s : State) : (drive .data d s).bat = s.bat := rfl
@[simp] theorem drive_data_status (d : Drv) (s : State) : (drive .data d s).status = s.status := rfl
@[simp] theorem drive_data_mag (d : Drv) (s : State) : (drive .data d s).mag = s.mag := rfl
@[simp] theorem drive_data_dx (d : Drv) (s : State) : (drive .data d s).dx = s.dx := rfl
@[simp] theorem drive_data_dy (d : Drv) (s : State) : (drive .data d s).dy = s.dy := rfl
@[simp] theorem drive_data_ok (d : Drv) (s : State) : (drive .data d s).ok = s.ok := rfl
@[simp] theorem drive_data_err (d : Drv) (s : State) : (drive .data d s).err = s.err := rfl
@[simp] theorem drive_data_stack (d : Drv) (s : State) : (drive .data d s).stack = s.stack := rfl
@[simp] theorem drive_data_opCode (d : Drv) (s : State) : (drive .data d s).opCode = s.opCode := rfl
@[simp] theorem drive_data_busy (d : Drv) (s : State) : (drive .data d s).busy = s.busy := rfl
@[simp] theorem drive_data_resumeLatch (d : Drv) (s : State) : (drive .data d s).resumeLatch = s.resumeLatch := rfl
@[simp] theorem drive_data_t0 (d : Drv) (s : State) : (drive .data d s).t0 = s.t0 := rfl
@[simp] theorem drive_data_tResult (d : Drv) (s : State) : (drive .data d s).tResult = s.tResult := rfl
@[simp] theorem drive_data_cfg (d : Drv) (s : State) : (drive .data d s).cfg = s.cfg := rfl
@[simp] theorem drive_data_pins (d : Drv) (s : State) : (drive .data d s).pins = s.pins := rfl
@[simp] theorem drive_data_inputs (d : Drv) (s : State) : (drive .data d s).inputs = s.inputs := rfl
@[simp] theorem drive_data_clk (d : Drv) (s : State) : (drive .data d s).clk = s.clk := rfl
@[simp] theorem drive_data_sel (d : Drv) (s : State) : (drive .data d s).sel = s.sel := rfl
@[simp] theorem drive_data_wire (d : Drv) (s : State) : (drive .data d s).wire = s.wire := rfl
@[simp] theorem drive_data_drives (d : Drv) (s : State) : (drive .data d s).drives = (.data, d) :: s.drives := rfl

@[simp] theorem setBitidx_clockDrv (i : BitVec 4) (s : State) : (setBitidx i s).clockDrv = s.clockDrv := rfl
@[simp] theorem setBitidx_dataDrv (i : BitVec 4) (s : State) : (setBitidx i s).dataDrv = s.dataDrv := rfl
@[simp] theorem setBitidx_mode (i : BitVec 4) (s : State) : (setBitidx i s).mode = s.mode := rfl
@[simp] theorem setBitidx_initialized (i : BitVec 4) (s : State) : (setBitidx i s).initialized = s.initialized := rfl
@[simp] theorem setBitidx_reportingEnabled (i : BitVec 4) (s : State) : (setBitidx i s).reportingEnabled = s.reportingEnabled := rfl
@[simp] theorem setBitidx_sh (i : BitVec 4) (s : State) : (setBitidx i s).sh = s.sh := rfl
@[simp] theorem setBitidx_par (i : BitVec 4) (s : State) : (setBitidx i s).par = s.par := rfl
@[simp] theorem setBitidx_bitidx (i : BitVec 4) (s : State) : (setBitidx i s).bitidx = i := rfl
@[simp] theorem setBitidx_samp (i : BitVec 4) (s : State) : (setBitidx i s).samp = s.samp := rfl
@[simp] theorem setBitidx_arg (i : BitVec 4) (s : State) : (setBitidx i s).arg = s.arg := rfl
@[simp] theorem setBitidx_bat (i : BitVec 4) (s : State) : (setBitidx i s).bat = s.bat := rfl
@[simp] theorem setBitidx_status (i : BitVec 4) (s : State) : (setBitidx i s).status = s.status := rfl
@[simp] theorem setBitidx_mag (i : BitVec 4) (s : State) : (setBitidx i s).mag = s.mag := rfl
@[simp] theorem setBitidx_dx (i : BitVec 4) (s : State) : (setBitidx i s).dx = s.dx := rfl
@[simp] theorem setBitidx_dy (i : BitVec 4) (s : State) : (setBitidx i s).dy = s.dy := rfl
@[simp] theorem setBitidx_ok (i : BitVec 4) (s : State) : (setBitidx i s).ok = s.ok := rfl
@[simp] theorem setBitidx_err (i : BitVec 4) (s : State) : (setBitidx i s).err = s.err := rfl
@[simp] theorem setBitidx_stack (i : BitVec 4) (s : State) : (setBitidx i s).stack = s.stack := rfl
@[simp] theorem setBitidx_opCode (i : BitVec 4) (s : State) : (setBitidx i s).opCode = s.opCode := rfl
@[simp] theorem setBitidx_busy (i : BitVec 4) (s : State) : (setBitidx i s).busy = s.busy := rfl
@[simp] theorem setBitidx_resumeLatch (i : BitVec 4) (s : State) : (setBitidx i s).resumeLatch = s.resumeLatch := rfl
@[simp] theorem setBitidx_t0 (i : BitVec 4) (s : State) : (setBitidx i s).t0 = s.t0 := rfl
@[simp] theorem setBitidx_tResult (i : BitVec 4) (s : State) : (setBitidx i s).tResult = s.tResult := rfl
@[simp] theorem setBitidx_cfg (i : BitVec 4) (s : State) : (setBitidx i s).cfg = s.cfg := rfl
@[simp] theorem setBitidx_pins (i : BitVec 4) (s : State) : (setBitidx i s).pins = s.pins := rfl
@[simp] theorem setBitidx_inputs (i : BitVec 4) (s : State) : (setBitidx i s).inputs = s.inputs := rfl
@[simp] theorem setBitidx_clk (i : BitVec 4) (s : State) : (setBitidx i s).clk = s.clk := rfl
@[simp] theorem setBitidx_sel (i : BitVec 4) (s : State) : (setBitidx i s).sel = s.sel := rfl
@[simp] theorem setBitidx_wire (i : BitVec 4) (s : State) : (setBitidx i s).wire = s.wire := rfl
@[simp] theorem setBitidx_drives (i : BitVec 4) (s : State) : (setBitidx i s).drives = s.drives := rfl

@[simp] theorem logWire_clockDrv (e : WireEvent) (s : State) : (logWire e s).clockDrv = s.clockDrv := rfl
@[simp] theorem logWire_dataDrv (e : WireEvent) (s : State) : (logWire e s).dataDrv = s.dataDrv := rfl
@[simp] theorem logWire_mode (e : WireEvent) (s : State) : (logWire e s).mode = s.mode := rfl
@[simp] theorem logWire_initialized (e : WireEvent) (s : State) : (logWire e s).initialized = s.initialized := rfl
@[simp] theorem logWire_reportingEnabled (e : WireEvent) (s : State) : (logWire e s).reportingEnabled = s.reportingEnabled := rfl
@[simp] theorem logWire_sh (e : WireEvent) (s : State) : (logWire e s).sh = s.sh := rfl
@[simp] theorem logWire_par (e : WireEvent) (s : State) : (logWire e s).par = s.par := rfl
@[simp] theorem logWire_bitidx (e : WireEvent) (s : State) : (logWire e s).bitidx = s.bitidx := rfl
@[simp] theorem logWire_samp (e : WireEvent) (s : State) : (logWire e s).samp = s.samp := rfl
@[simp] theorem logWire_arg (e : WireEvent) (s : State) : (logWire e s).arg = s.arg := rfl
@[simp] theorem logWire_bat (e : WireEvent) (s : State) : (logWire e s).bat = s.bat := rfl
@[simp] theorem logWire_status (e : WireEvent) (s : State) : (logWire e s).status = s.status := rfl
@[simp] theorem logWire_mag (e : WireEvent) (s : State) : (logWire e s).mag = s.mag := rfl
@[simp] theorem logWire_dx (e : WireEvent) (s : State) : (logWire e s).dx = s.dx := rfl
@[simp] theorem logWire_dy (e : WireEvent) (s : State) : (logWire e s).dy = s.dy := rfl
@[simp] theorem logWire_ok (e : WireEvent) (s : State) : (logWire e s).ok = s.ok := rfl
@[simp] theorem logWire_err (e : WireEvent) (s : State) : (logWire e s).err = s.err := rfl
@[simp] theorem logWire_stack (e : WireEvent) (s : State) : (logWire e s).stack = s.stack := rfl
@[simp] theorem logWire_opCode (e : WireEvent) (s : State) : (logWire e s).opCode = s.opCode := rfl
@[simp] theorem logWire_busy (e : WireEvent) (s : State) : (logWire e s).busy = s.busy := rfl
@[simp] theorem logWire_resumeLatch (e : WireEvent) (s : State) : (logWire e s).resumeLatch = s.resumeLatch := rfl
@[simp] theorem logWire_t0 (e : WireEvent) (s : State) : (logWire e s).t0 = s.t0 := rfl
@[simp] theorem logWire_tResult (e : WireEvent) (s : State) : (logWire e s).tResult = s.tResult := rfl
@[simp] theorem logWire_cfg (e : WireEvent) (s : State) : (logWire e s).cfg = s.cfg := rfl
@[simp] theorem logWire_pins (e : WireEvent) (s : State) : (logWire e s).pins = s.pins := rfl
@[simp] theorem logWire_inputs (e : WireEvent) (s : State) : (logWire e s).inputs = s.inputs := rfl
@[simp] theorem logWire_clk (e : WireEvent) (s : State) : (logWire e s).clk = s.clk := rfl
@[simp] theorem logWire_sel (e : WireEvent) (s : State) : (logWire e s).sel = s.sel := rfl
@[simp] theorem logWire_wire (e : WireEvent) (s : State) : (logWire e s).wire = e :: s.wire := rfl
@[simp] theorem logWire_drives (e : WireEvent) (s : State) : (logWire e s).drives = s.drives := rfl

@[simp] theorem loadByte_clockDrv (v : Byte) (s : State) : (loadByte v s).clockDrv = s.clockDrv := rfl
@[simp] theorem loadByte_dataDrv (v : Byte) (s : State) : (loadByte v s).dataDrv = s.dataDrv := rfl
@[simp] theorem loadByte_mode (v : Byte) (s : State) : (loadByte v s).mode = s.mode := rfl
@[simp] theorem loadByte_initialized (v : Byte) (s : State) : (loadByte v s).initialized = s.initialized := rfl
@[simp] theorem loadByte_reportingEnabled (v : Byte) (s : State) : (loadByte v s).reportingEnabled = s.reportingEnabled := rfl
@[simp] theorem loadByte_sh (v : Byte) (s : State) : (loadByte v s).sh = v := rfl
@[simp] theorem loadByte_par (v : Byte) (s : State) : (loadByte v s).par = false := rfl
@[simp] theorem loadByte_bitidx (v : Byte) (s : State) : (loadByte v s).bitidx = s.bitidx := rfl
@[simp] theorem loadByte_samp (v : Byte) (s : State) : (loadByte v s).samp = s.samp := rfl
@[simp] theorem loadByte_arg (v : Byte) (s : State) : (loadByte v s).arg = s.arg := rfl
@[simp] theorem loadByte_bat (v : Byte) (s : State) : (loadByte v s).bat = s.bat := rfl
@[simp] theorem loadByte_status (v : Byte) (s : State) : (loadByte v s).status = s.status := rfl
@[simp] theorem loadByte_mag (v : Byte) (s : State) : (loadByte v s).mag = s.mag := rfl
@[simp] theorem loadByte_dx (v : Byte) (s : State) : (loadByte v s).dx = s.dx := rfl
@[simp] theorem loadByte_dy (v : Byte) (s : State) : (loadByte v s).dy = s.dy := rfl
@[simp] theorem loadByte_ok (v : Byte) (s : State) : (loadByte v s).ok = s.ok := rfl
@[simp] theorem loadByte_err (v : Byte) (s : State) : (loadByte v s).err = s.err := rfl
@[simp] theorem loadByte_stack (v : Byte) (s : State) : (loadByte v s).stack = s.stack := rfl
@[simp] theorem loadByte_opCode (v : Byte) (s : State) : (loadByte v s).opCode = s.opCode := rfl
@[simp] theorem loadByte_busy (v : Byte) (s : State) : (loadByte v s).busy = s.busy := rfl
@[simp] theorem loadByte_resumeLatch (v : Byte) (s : State) : (loadByte v s).resumeLatch = s.resumeLatch := rfl
@[simp] theorem loadByte_t0 (v : Byte) (s : State) : (loadByte v s).t0 = s.t0 := rfl
@[simp] theorem loadByte_tResult (v : Byte) (s : State) : (loadByte v s).tResult = s.tResult := rfl
@[simp] theorem loadByte_cfg (v : Byte) (s : State) : (loadByte v s).cfg = s.cfg := rfl
@[simp] theorem loadByte_pins (v : Byte) (s : State) : (loadByte v s).pins = s.pins := rfl
@[simp] theorem loadByte_inputs (v : Byte) (s : State) : (loadByte v s).inputs = s.inputs := rfl
@[simp] theorem loadByte_clk (v : Byte) (s : State) : (loadByte v s).clk = s.clk := rfl
@[simp] theorem loadByte_sel (v : Byte) (s : State) : (loadByte v s).sel = s.sel := rfl
@[simp] theorem loadByte_wire (v : Byte) (s : State) : (loadByte v s).wire = s.wire := rfl
@[simp] theorem loadByte_drives (v : Byte) (s : State) : (loadByte v s).drives = s.drives := rfl

@[simp] theorem clearByte_clockDrv  (s : State) : (clearByte s).clockDrv = s.clockDrv := rfl
@[simp] theorem clearByte_dataDrv  (s : State) : (clearByte s).dataDrv = s.dataDrv := rfl
@[simp] theorem clearByte_mode  (s : State) : (clearByte s).mode = s.mode := rfl
@[simp] theorem clearByte_initialized  (s : State) : (clearByte s).initialized = s.initialized := rfl
@[simp] theorem clearByte_reportingEnabled  (s : State) : (clearByte s).reportingEnabled = s.reportingEnabled := rfl
@[simp] theorem clearByte_sh  (s : State) : (clearByte s).sh = 0#8 := rfl
@[simp] theorem clearByte_par  (s : State) : (clearByte s).par = s.par := rfl
@[simp] theorem clearByte_bitidx  (s : State) : (clearByte s).bitidx = s.bitidx := rfl
@[simp] theorem clearByte_samp  (s : State) : (clearByte s).samp = s.samp := rfl
@[simp] theorem clearByte_arg  (s : State) : (clearByte s).arg = s.arg := rfl
@[simp] theorem clearByte_bat  (s : State) : (clearByte s).bat = s.bat := rfl
@[simp] theorem clearByte_status  (s : State) : (clearByte s).status = s.status := rfl
@[simp] theorem clearByte_mag  (s : State) : (clearByte s).mag = s.mag := rfl
@[simp] theorem clearByte_dx  (s : State) : (clearByte s).dx = s.dx := rfl
@[simp] theorem clearByte_dy  (s : State) : (clearByte s).dy = s.dy := rfl
@[simp] theorem clearByte_ok  (s : State) : (clearByte s).ok = s.ok := rfl
@[simp] theorem clearByte_err  (s : State) : (clearByte s).err = s.err := rfl
@[simp] theorem clearByte_stack  (s : State) : (clearByte s).stack = s.stack := rfl
@[simp] theorem clearByte_opCode  (s : State) : (clearByte s).opCode = s.opCode := rfl
@[simp] theorem clearByte_busy  (s : State) : (clearByte s).busy = s.busy := rfl
@[simp] theorem clearByte_resumeLatch  (s : State) : (clearByte s).resumeLatch = s.resumeLatch := rfl
@[simp] theorem clearByte_t0  (s : State) : (clearByte s).t0 = s.t0 := rfl
@[simp] theorem clearByte_tResult  (s : State) : (clearByte s).tResult = s.tResult := rfl
@[simp] theorem clearByte_cfg  (s : State) : (clearByte s).cfg = s.cfg := rfl
@[simp] theorem clearByte_pins  (s : State) : (clearByte s).pins = s.pins := rfl
@[simp] theorem clearByte_inputs  (s : State) : (clearByte s).inputs = s.inputs := rfl
@[simp] theorem clearByte_clk  (s : State) : (clearByte s).clk = s.clk := rfl
@[simp] theorem clearByte_sel  (s : State) : (clearByte s).sel = s.sel := rfl
@[simp] theorem clearByte_wire  (s : State) : (clearByte s).wire = s.wire := rfl
@[simp] theorem clearByte_drives  (s : State) : (clearByte s).drives = s.drives := rfl

@[simp] theorem takeSample_clockDrv  (s : State) : (takeSample s).clockDrv = s.clockDrv := rfl
@[simp] theorem takeSample_dataDrv  (s : State) : (takeSample s).dataDrv = s.dataDrv := rfl
@[simp] theorem takeSample_mode  (s : State) : (takeSample s).mode = s.mode := rfl
@[simp] theorem takeSample_initialized  (s : State) : (takeSample s).initialized = s.initialized := rfl
@[simp] theorem takeSample_reportingEnabled  (s : State) : (takeSample s).reportingEnabled = s.reportingEnabled := rfl
@[simp] theorem takeSample_sh  (s : State) : (takeSample s).sh = s.sh := rfl
@[simp] theorem takeSample_par  (s : State) : (takeSample s).par = s.par := rfl
@[simp] theorem takeSample_bitidx  (s : State) : (takeSample s).bitidx = s.bitidx := rfl
@[simp] theorem takeSample_samp  (s : State) : (takeSample s).samp = level .data s := rfl
@[simp] theorem takeSample_arg  (s : State) : (takeSample s).arg = s.arg := rfl
@[simp] theorem takeSample_bat  (s : State) : (takeSample s).bat = s.bat := rfl
@[simp] theorem takeSample_status  (s : State) : (takeSample s).status = s.status := rfl
@[simp] theorem takeSample_mag  (s : State) : (takeSample s).mag = s.mag := rfl
@[simp] theorem takeSample_dx  (s : State) : (takeSample s).dx = s.dx := rfl
@[simp] theorem takeSample_dy  (s : State) : (takeSample s).dy = s.dy := rfl
@[simp] theorem takeSample_ok  (s : State) : (takeSample s).ok = s.ok := rfl
@[simp] theorem takeSample_err  (s : State) : (takeSample s).err = s.err := rfl
@[simp] theorem takeSample_stack  (s : State) : (takeSample s).stack = s.stack := rfl
@[simp] theorem takeSample_opCode  (s : State) : (takeSample s).opCode = s.opCode := rfl
@[simp] theorem takeSample_busy  (s : State) : (takeSample s).busy = s.busy := rfl
@[simp] theorem takeSample_resumeLatch  (s : State) : (takeSample s).resumeLatch = s.resumeLatch := rfl
@[simp] theorem takeSample_t0  (s : State) : (takeSample s).t0 = s.t0 := rfl
@[simp] theorem takeSample_tResult  (s : State) : (takeSample s).tResult = s.tResult := rfl
@[simp] theorem takeSample_cfg  (s : State) : (takeSample s).cfg = s.cfg := rfl
@[simp] theorem takeSample_pins  (s : State) : (takeSample s).pins = s.pins := rfl
@[simp] theorem takeSample_inputs  (s : State) : (takeSample s).inputs = s.inputs := rfl
@[simp] theorem takeSample_clk  (s : State) : (takeSample s).clk = s.clk := rfl
@[simp] theorem takeSample_sel  (s : State) : (takeSample s).sel = s.sel := rfl
@[simp] theorem takeSample_wire  (s : State) : (takeSample s).wire = s.wire := rfl
@[simp] theorem takeSample_drives  (s : State) : (takeSample s).drives = s.drives := rfl

@[simp] theorem returnByte_clockDrv  (s : State) : (returnByte s).clockDrv = s.clockDrv := rfl
@[simp] theorem returnByte_dataDrv  (s : State) : (returnByte s).dataDrv = s.dataDrv := rfl
@[simp] theorem returnByte_mode  (s : State) : (returnByte s).mode = s.mode := rfl
@[simp] theorem returnByte_initialized  (s : State) : (returnByte s).initialized = s.initialized := rfl
@[simp] theorem returnByte_reportingEnabled  (s : State) : (returnByte s).reportingEnabled = s.reportingEnabled := rfl
@[simp] theorem returnByte_sh  (s : State) : (returnByte s).sh = s.sh := rfl
@[simp] theorem returnByte_par  (s : State) : (returnByte s).par = s.par := rfl
@[simp] theorem returnByte_bitidx  (s : State) : (returnByte s).bitidx = s.bitidx := rfl
@[simp] theorem returnByte_samp  (s : State) : (returnByte s).samp = s.samp := rfl
@[simp] theorem returnByte_arg  (s : State) : (returnByte s).arg = s.arg := rfl
@[simp] theorem returnByte_bat  (s : State) : (returnByte s).bat = s.bat := rfl
@[simp] theorem returnByte_status  (s : State) : (returnByte s).status = s.status := rfl
@[simp] theorem returnByte_mag  (s : State) : (returnByte s).mag = s.mag := rfl
@[simp] theorem returnByte_dx  (s : State) : (returnByte s).dx = s.dx := rfl
@[simp] theorem returnByte_dy  (s : State) : (returnByte s).dy = s.dy := rfl
@[simp] theorem returnByte_ok  (s : State) : (returnByte s).ok = s.ok := rfl
@[simp] theorem returnByte_err  (s : State) : (returnByte s).err = s.err := rfl
@[simp] theorem returnByte_stack  (s : State) : (returnByte s).stack = s.stack := rfl
@[simp] theorem returnByte_opCode  (s : State) : (returnByte s).opCode = s.opCode := rfl
@[simp] theorem returnByte_busy  (s : State) : (returnByte s).busy = s.busy := rfl
@[simp] theorem returnByte_resumeLatch  (s : State) : (returnByte s).resumeLatch = s.resumeLatch := rfl
@[simp] theorem returnByte_t0  (s : State) : (returnByte s).t0 = s.t0 := rfl
@[simp] theorem returnByte_tResult  (s : State) : (returnByte s).tResult = s.sh := rfl
@[simp] theorem returnByte_cfg  (s : State) : (returnByte s).cfg = s.cfg := rfl
@[simp] theorem returnByte_pins  (s : State) : (returnByte s).pins = s.pins := rfl
@[simp] theorem returnByte_inputs  (s : State) : (returnByte s).inputs = s.inputs := rfl
@[simp] theorem returnByte_clk  (s : State) : (returnByte s).clk = s.clk := rfl
@[simp] theorem returnByte_sel  (s : State) : (returnByte s).sel = s.sel := rfl
@[simp] theorem returnByte_wire  (s : State) : (returnByte s).wire = s.wire := rfl
@[simp] theorem returnByte_drives  (s : State) : (returnByte s).drives = s.drives := rfl

@[simp] theorem accumulateParity_clockDrv (b : Bool) (s : State) : (accumulateParity b s).clockDrv = s.clockDrv := rfl
@[simp] theorem accumulateParity_dataDrv (b : Bool) (s : State) : (accumulateParity b s).dataDrv = s.dataDrv := rfl
@[simp] theorem accumulateParity_mode (b : Bool) (s : State) : (accumulateParity b s).mode = s.mode := rfl
@[simp] theorem accumulateParity_initialized (b : Bool) (s : State) : (accumulateParity b s).initialized = s.initialized := rfl
@[simp] theorem accumulateParity_reportingEnabled (b : Bool) (s : State) : (accumulateParity b s).reportingEnabled = s.reportingEnabled := rfl
@[simp] theorem accumulateParity_sh (b : Bool) (s : State) : (accumulateParity b s).sh = s.sh := rfl
@[simp] theorem accumulateParity_par (b : Bool) (s : State) : (accumulateParity b s).par = (s.par ^^ b) := rfl
@[simp] theorem accumulateParity_bitidx (b : Bool) (s : State) : (accumulateParity b s).bitidx = s.bitidx := rfl
@[simp] theorem accumulateParity_samp (b : Bool) (s : State) : (accumulateParity b s).samp = s.samp := rfl
@[simp] theorem accumulateParity_arg (b : Bool) (s : State) : (accumulateParity b s).arg = s.arg := rfl
@[simp] theorem accumulateParity_bat (b : Bool) (s : State) : (accumulateParity b s).bat = s.bat := rfl
@[simp] theorem accumulateParity_status (b : Bool) (s : State) : (accumulateParity b s).status = s.status := rfl
@[simp] theorem accumulateParity_mag (b : Bool) (s : State) : (accumulateParity b s).mag = s.mag := rfl
@[simp] theorem accumulateParity_dx (b : Bool) (s : State) : (accumulateParity b s).dx = s.dx := rfl
@[simp] theorem accumulateParity_dy (b : Bool) (s : State) : (accumulateParity b s).dy = s.dy := rfl
@[simp] theorem accumulateParity_ok (b : Bool) (s : State) : (accumulateParity b s).ok = s.ok := rfl
@[simp] theorem accumulateParity_err (b : Bool) (s : State) : (accumulateParity b s).err = s.err := rfl
@[simp] theorem accumulateParity_stack (b : Bool) (s : State) : (accumulateParity b s).stack = s.stack := rfl
@[simp] theorem accumulateParity_opCode (b : Bool) (s : State) : (accumulateParity b s).opCode = s.opCode := rfl
@[simp] theorem accumulateParity_busy (b : Bool) (s : State) : (accumulateParity b s).busy = s.busy := rfl
@[simp] theorem accumulateParity_resumeLatch (b : Bool) (s : State) : (accumulateParity b s).resumeLatch = s.resumeLatch := rfl
@[simp] theorem accumulateParity_t0 (b : Bool) (s : State) : (accumulateParity b s).t0 = s.t0 := rfl
@[simp] theorem accumulateParity_tResult (b : Bool) (s : State) : (accumulateParity b s).tResult = s.tResult := rfl
@[simp] theorem accumulateParity_cfg (b : Bool) (s : State) : (accumulateParity b s).cfg = s.cfg := rfl
@[simp] theorem accumulateParity_pins (b : Bool) (s : State) : (accumulateParity b s).pins = s.pins := rfl
@[simp] theorem accumulateParity_inputs (b : Bool) (s : State) : (accumulateParity b s).inputs = s.inputs := rfl
@[simp] theorem accumulateParity_clk (b : Bool) (s : State) : (accumulateParity b s).clk = s.clk := rfl
@[simp] theorem accumulateParity_sel (b : Bool) (s : State) : (accumulateParity b s).sel = s.sel := rfl
@[simp] theorem accumulateParity_wire (b : Bool) (s : State) : (accumulateParity b s).wire = s.wire := rfl
@[simp] theorem accumulateParity_drives (b : Bool) (s : State) : (accumulateParity b s).drives = s.drives := rfl

@[simp] theorem opEnd_clockDrv  (s : State) : (opEnd s).clockDrv = s.clockDrv := rfl
@[simp] theorem opEnd_dataDrv  (s : State) : (opEnd s).dataDrv = s.dataDrv := rfl
@[simp] theorem opEnd_mode  (s : State) : (opEnd s).mode = s.mode := rfl
@[simp] theorem opEnd_initialized  (s : State) : (opEnd s).initialized = s.initialized := rfl
@[simp] theorem opEnd_reportingEnabled  (s : State) : (opEnd s).reportingEnabled = s.reportingEnabled := rfl
@[simp] theorem opEnd_sh  (s : State) : (opEnd s).sh = s.sh := rfl
@[simp] theorem opEnd_par  (s : State) : (opEnd s).par = s.par := rfl
@[simp] theorem opEnd_bitidx  (s : State) : (opEnd s).bitidx = s.bitidx := rfl
@[simp] theorem opEnd_samp  (s : State) : (opEnd s).samp = s.samp := rfl
@[simp] theorem opEnd_arg  (s : State) : (opEnd s).arg = s.arg := rfl
@[simp] theorem opEnd_bat  (s : State) : (opEnd s).bat = s.bat := rfl
@[simp] theorem opEnd_status  (s : State) : (opEnd s).status = s.status := rfl
@[simp] theorem opEnd_mag  (s : State) : (opEnd s).mag = s.mag := rfl
@[simp] theorem opEnd_dx  (s : State) : (opEnd s).dx = s.dx := rfl
@[simp] theorem opEnd_dy  (s : State) : (opEnd s).dy = s.dy := rfl
@[simp] theorem opEnd_ok  (s : State) : (opEnd s).ok = s.ok := rfl
@[simp] theorem opEnd_stack  (s : State) : (opEnd s).stack = [] := rfl
@[simp] theorem opEnd_opCode  (s : State) : (opEnd s).opCode = none := rfl
@[simp] theorem opEnd_busy  (s : State) : (opEnd s).busy = false := rfl
@[simp] theorem opEnd_resumeLatch  (s : State) : (opEnd s).resumeLatch = s.resumeLatch := rfl
@[simp] theorem opEnd_t0  (s : State) : (opEnd s).t0 = s.t0 := rfl
@[simp] theorem opEnd_tResult  (s : State) : (opEnd s).tResult = s.tResult := rfl
@[simp] theorem opEnd_cfg  (s : State) : (opEnd s).cfg = s.cfg := rfl
@[simp] theorem opEnd_pins  (s : State) : (opEnd s).pins = s.pins := rfl
@[simp] theorem opEnd_inputs  (s : State) : (opEnd s).inputs = s.inputs := rfl
@[simp] theorem opEnd_clk  (s : State) : (opEnd s).clk = s.clk := rfl
@[simp] theorem opEnd_sel  (s : State) : (opEnd s).sel = s.sel := rfl
@[simp] theorem opEnd_wire  (s : State) : (opEnd s).wire = s.wire := rfl
@[simp] theorem opEnd_drives  (s : State) : (opEnd s).drives = s.drives := rfl

@[simp] theorem setMode_clockDrv (m : Mode) (s : State) : (setMode m s).clockDrv = s.clockDrv := rfl
@[simp] theorem setMode_dataDrv (m : Mode) (s : State) : (setMode m s).dataDrv = s.dataDrv := rfl
@[simp] theorem setMode_mode (m : Mode) (s : State) : (setMode m s).mode = m := rfl
@[simp] theorem setMode_initialized (m : Mode) (s : State) : (setMode m s).initialized = s.initialized := rfl
@[simp] theorem setMode_reportingEnabled (m : Mode) (s : State) : (setMode m s).reportingEnabled = s.reportingEnabled := rfl
@[simp] theorem setMode_sh (m : Mode) (s : State) : (setMode m s).sh = s.sh := rfl
@[simp] theorem setMode_par (m : Mode) (s : State) : (setMode m s).par = s.par := rfl
@[simp] theorem setMode_bitidx (m : Mode) (s : State) : (setMode m s).bitidx = s.bitidx := rfl
@[simp] theorem setMode_samp (m : Mode) (s : State) : (setMode m s).samp = s.samp := rfl
@[simp] theorem setMode_arg (m : Mode) (s : State) : (setMode m s).arg = s.arg := rfl
@[simp] theorem setMode_bat (m : Mode) (s : State) : (setMode m s).bat = s.bat := rfl
@[simp] theorem setMode_status (m : Mode) (s : State) : (setMode m s).status = s.status := rfl
@[simp] theorem setMode_mag (m : Mode) (s : State) : (setMode m s).mag = s.mag := rfl
@[simp] theorem setMode_dx (m : Mode) (s : State) : (setMode m s).dx = s.dx := rfl
@[simp] theorem setMode_dy (m : Mode) (s : State) : (setMode m s).dy = s.dy := rfl
@[simp] theorem setMode_ok (m : Mode) (s : State) : (setMode m s).ok = s.ok := rfl
@[simp] theorem setMode_err (m : Mode) (s : State) : (setMode m s).err = s.err := rfl
@[simp] theorem setMode_stack (m : Mode) (s : State) : (setMode m s).stack = s.stack := rfl
@[simp] theorem setMode_opCode (m : Mode) (s : State) : (setMode m s).opCode = s.opCode := rfl
@[simp] theorem setMode_busy (m : Mode) (s : State) : (setMode m s).busy = s.busy := rfl
@[simp] theorem setMode_resumeLatch (m : Mode) (s : State) : (setMode m s).resumeLatch = s.resumeLatch := rfl
@[simp] theorem setMode_t0 (m : Mode) (s : State) : (setMode m s).t0 = s.t0 := rfl
@[simp] theorem setMode_tResult (m : Mode) (s : State) : (setMode m s).tResult = s.tResult := rfl
@[simp] theorem setMode_cfg (m : Mode) (s : State) : (setMode m s).cfg = s.cfg := rfl
@[simp] theorem setMode_pins (m : Mode) (s : State) : (setMode m s).pins = s.pins := rfl
@[simp] theorem setMode_inputs (m : Mode) (s : State) : (setMode m s).inputs = s.inputs := rfl
@[simp] theorem setMode_clk (m : Mode) (s : State) : (setMode m s).clk = s.clk := rfl
@[simp] theorem setMode_sel (m : Mode) (s : State) : (setMode m s).sel = s.sel := rfl
@[simp] theorem setMode_wire (m : Mode) (s : State) : (setMode m s).wire = s.wire := rfl
@[simp] theorem setMode_drives (m : Mode) (s : State) : (setMode m s).drives = s.drives := rfl

@[simp] theorem setReporting_clockDrv (b : Bool) (s : State) : (setReporting b s).clockDrv = s.clockDrv := rfl
@[simp] theorem setReporting_dataDrv (b : Bool) (s : State) : (setReporting b s).dataDrv = s.dataDrv := rfl
@[simp] theorem setReporting_mode (b : Bool) (s : State) : (setReporting b s).mode = s.mode := rfl
@[simp] theorem setReporting_initialized (b : Bool) (s : State) : (setReporting b s).initialized = s.initialized := rfl
@[simp] theorem setReporting_reportingEnabled (b : Bool) (s : State) : (setReporting b s).reportingEnabled = b := rfl
@[simp] theorem setReporting_sh (b : Bool) (s : State) : (setReporting b s).sh = s.sh := rfl
@[simp] theorem setReporting_par (b : Bool) (s : State) : (setReporting b s).par = s.par := rfl
@[simp] theorem setReporting_bitidx (b : Bool) (s : State) : (setReporting b s).bitidx = s.bitidx := rfl
@[simp] theorem setReporting_samp (b : Bool) (s : State) : (setReporting b s).samp = s.samp := rfl
@[simp] theorem setReporting_arg (b : Bool) (s : State) : (setReporting b s).arg = s.arg := rfl
@[simp] theorem setReporting_bat (b : Bool) (s : State) : (setReporting b s).bat = s.bat := rfl
@[simp] theorem setReporting_status (b : Bool) (s : State) : (setReporting b s).status = s.status := rfl
@[simp] theorem setReporting_mag (b : Bool) (s : State) : (setReporting b s).mag = s.mag := rfl
@[simp] theorem setReporting_dx (b : Bool) (s : State) : (setReporting b s).dx = s.dx := rfl
@[simp] theorem setReporting_dy (b : Bool) (s : State) : (setReporting b s).dy = s.dy := rfl
@[simp] theorem setReporting_ok (b : Bool) (s : State) : (setReporting b s).ok = s.ok := rfl
@[simp] theorem setReporting_err (b : Bool) (s : State) : (setReporting b s).err = s.err := rfl
@[simp] theorem setReporting_stack (b : Bool) (s : State) : (setReporting b s).stack = s.stack := rfl
@[simp] theorem setReporting_opCode (b : Bool) (s : State) : (setReporting b s).opCode = s.opCode := rfl
@[simp] theorem setReporting_busy (b : Bool) (s : State) : (setReporting b s).busy = s.busy := rfl
@[simp] theorem setReporting_resumeLatch (b : Bool) (s : State) : (setReporting b s).resumeLatch = s.resumeLatch := rfl
@[simp] theorem setReporting_t0 (b : Bool) (s : State) : (setReporting b s).t0 = s.t0 := rfl
@[simp] theorem setReporting_tResult (b : Bool) (s : State) : (setReporting b s).tResult = s.tResult := rfl
@[simp] theorem setReporting_cfg (b : Bool) (s : State) : (setReporting b s).cfg = s.cfg := rfl
@[simp] theorem setReporting_pins (b : Bool) (s : State) : (setReporting b s).pins = s.pins := rfl
@[simp] theorem setReporting_inputs (b : Bool) (s : State) : (setReporting b s).inputs = s.inputs := rfl
@[simp] theorem setReporting_clk (b : Bool) (s : State) : (setReporting b s).clk = s.clk := rfl
@[simp] theorem setReporting_sel (b : Bool) (s : State) : (setReporting b s).sel = s.sel := rfl
@[simp] theorem setReporting_wire (b : Bool) (s : State) : (setReporting b s).wire = s.wire := rfl
@[simp] theorem setReporting_drives (b : Bool) (s : State) : (setReporting b s).drives = s.drives := rfl

@[simp] theorem latchGuard_clockDrv  (s : State) : (latchGuard s).clockDrv = s.clockDrv := rfl
@[simp] theorem latchGuard_dataDrv  (s : State) : (latchGuard s).dataDrv = s.dataDrv := rfl
@[simp] theorem latchGuard_mode  (s : State) : (latchGuard s).mode = s.mode := rfl
@[simp] theorem latchGuard_initialized  (s : State) : (latchGuard s).initialized = s.initialized := rfl
@[simp] theorem latchGuard_reportingEnabled  (s : State) : (latchGuard s).reportingEnabled = s.reportingEnabled := rfl
@[simp] theorem latchGuard_sh  (s : State) : (latchGuard s).sh = s.sh := rfl
@[simp] theorem latchGuard_par  (s : State) : (latchGuard s).par = s.par := rfl
@[simp] theorem latchGuard_bitidx  (s : State) : (latchGuard s).bitidx = s.bitidx := rfl
@[simp] theorem latchGuard_samp  (s : State) : (latchGuard s).samp = s.samp := rfl
@[simp] theorem latchGuard_arg  (s : State) : (latchGuard s).arg = s.arg := rfl
@[simp] theorem latchGuard_bat  (s : State) : (latchGuard s).bat = s.bat := rfl
@[simp] theorem latchGuard_status  (s : State) : (latchGuard s).status = s.status := rfl
@[simp] theorem latchGuard_mag  (s : State) : (latchGuard s).mag = s.mag := rfl
@[simp] theorem latchGuard_dx  (s : State) : (latchGuard s).dx = s.dx := rfl
@[simp] theorem latchGuard_dy  (s : State) : (latchGuard s).dy = s.dy := rfl
@[simp] theorem latchGuard_ok  (s : State) : (latchGuard s).ok = s.ok := rfl
@[simp] theorem latchGuard_err  (s : State) : (latchGuard s).err = s.err := rfl
@[simp] theorem latchGuard_stack  (s : State) : (latchGuard s).stack = s.stack := rfl
@[simp] theorem latchGuard_opCode  (s : State) : (latchGuard s).opCode = s.opCode := rfl
@[simp] theorem latchGuard_busy  (s : State) : (latchGuard s).busy = s.busy := rfl
@[simp] theorem latchGuard_resumeLatch  (s : State) : (latchGuard s).resumeLatch = guardG s := rfl
@[simp] theorem latchGuard_t0  (s : State) : (latchGuard s).t0 = s.t0 := rfl
@[simp] theorem latchGuard_tResult  (s : State) : (latchGuard s).tResult = s.tResult := rfl
@[simp] theorem latchGuard_cfg  (s : State) : (latchGuard s).cfg = s.cfg := rfl
@[simp] theorem latchGuard_pins  (s : State) : (latchGuard s).pins = s.pins := rfl
@[simp] theorem latchGuard_inputs  (s : State) : (latchGuard s).inputs = s.inputs := rfl
@[simp] theorem latchGuard_clk  (s : State) : (latchGuard s).clk = s.clk := rfl
@[simp] theorem latchGuard_sel  (s : State) : (latchGuard s).sel = s.sel := rfl
@[simp] theorem latchGuard_wire  (s : State) : (latchGuard s).wire = s.wire := rfl
@[simp] theorem latchGuard_drives  (s : State) : (latchGuard s).drives = s.drives := rfl

@[simp] theorem latchArg_clockDrv (v : Byte) (s : State) : (latchArg v s).clockDrv = s.clockDrv := rfl
@[simp] theorem latchArg_dataDrv (v : Byte) (s : State) : (latchArg v s).dataDrv = s.dataDrv := rfl
@[simp] theorem latchArg_mode (v : Byte) (s : State) : (latchArg v s).mode = s.mode := rfl
@[simp] theorem latchArg_initialized (v : Byte) (s : State) : (latchArg v s).initialized = s.initialized := rfl
@[simp] theorem latchArg_reportingEnabled (v : Byte) (s : State) : (latchArg v s).reportingEnabled = s.reportingEnabled := rfl
@[simp] theorem latchArg_sh (v : Byte) (s : State) : (latchArg v s).sh = s.sh := rfl
@[simp] theorem latchArg_par (v : Byte) (s : State) : (latchArg v s).par = s.par := rfl
@[simp] theorem latchArg_bitidx (v : Byte) (s : State) : (latchArg v s).bitidx = s.bitidx := rfl
@[simp] theorem latchArg_samp (v : Byte) (s : State) : (latchArg v s).samp = s.samp := rfl
@[simp] theorem latchArg_arg (v : Byte) (s : State) : (latchArg v s).arg = v := rfl
@[simp] theorem latchArg_bat (v : Byte) (s : State) : (latchArg v s).bat = s.bat := rfl
@[simp] theorem latchArg_status (v : Byte) (s : State) : (latchArg v s).status = s.status := rfl
@[simp] theorem latchArg_mag (v : Byte) (s : State) : (latchArg v s).mag = s.mag := rfl
@[simp] theorem latchArg_dx (v : Byte) (s : State) : (latchArg v s).dx = s.dx := rfl
@[simp] theorem latchArg_dy (v : Byte) (s : State) : (latchArg v s).dy = s.dy := rfl
@[simp] theorem latchArg_ok (v : Byte) (s : State) : (latchArg v s).ok = s.ok := rfl
@[simp] theorem latchArg_err (v : Byte) (s : State) : (latchArg v s).err = s.err := rfl
@[simp] theorem latchArg_stack (v : Byte) (s : State) : (latchArg v s).stack = s.stack := rfl
@[simp] theorem latchArg_opCode (v : Byte) (s : State) : (latchArg v s).opCode = s.opCode := rfl
@[simp] theorem latchArg_busy (v : Byte) (s : State) : (latchArg v s).busy = s.busy := rfl
@[simp] theorem latchArg_resumeLatch (v : Byte) (s : State) : (latchArg v s).resumeLatch = s.resumeLatch := rfl
@[simp] theorem latchArg_t0 (v : Byte) (s : State) : (latchArg v s).t0 = s.t0 := rfl
@[simp] theorem latchArg_tResult (v : Byte) (s : State) : (latchArg v s).tResult = s.tResult := rfl
@[simp] theorem latchArg_cfg (v : Byte) (s : State) : (latchArg v s).cfg = s.cfg := rfl
@[simp] theorem latchArg_pins (v : Byte) (s : State) : (latchArg v s).pins = s.pins := rfl
@[simp] theorem latchArg_inputs (v : Byte) (s : State) : (latchArg v s).inputs = s.inputs := rfl
@[simp] theorem latchArg_clk (v : Byte) (s : State) : (latchArg v s).clk = s.clk := rfl
@[simp] theorem latchArg_sel (v : Byte) (s : State) : (latchArg v s).sel = s.sel := rfl
@[simp] theorem latchArg_wire (v : Byte) (s : State) : (latchArg v s).wire = s.wire := rfl
@[simp] theorem latchArg_drives (v : Byte) (s : State) : (latchArg v s).drives = s.drives := rfl

@[simp] theorem keepBat_clockDrv  (s : State) : (keepBat s).clockDrv = s.clockDrv := rfl
@[simp] theorem keepBat_dataDrv  (s : State) : (keepBat s).dataDrv = s.dataDrv := rfl
@[simp] theorem keepBat_mode  (s : State) : (keepBat s).mode = s.mode := rfl
@[simp] theorem keepBat_initialized  (s : State) : (keepBat s).initialized = s.initialized := rfl
@[simp] theorem keepBat_reportingEnabled  (s : State) : (keepBat s).reportingEnabled = s.reportingEnabled := rfl
@[simp] theorem keepBat_sh  (s : State) : (keepBat s).sh = s.sh := rfl
@[simp] theorem keepBat_par  (s : State) : (keepBat s).par = s.par := rfl
@[simp] theorem keepBat_bitidx  (s : State) : (keepBat s).bitidx = s.bitidx := rfl
@[simp] theorem keepBat_samp  (s : State) : (keepBat s).samp = s.samp := rfl
@[simp] theorem keepBat_arg  (s : State) : (keepBat s).arg = s.arg := rfl
@[simp] theorem keepBat_bat  (s : State) : (keepBat s).bat = s.tResult := rfl
@[simp] theorem keepBat_status  (s : State) : (keepBat s).status = s.status := rfl
@[simp] theorem keepBat_mag  (s : State) : (keepBat s).mag = s.mag := rfl
@[simp] theorem keepBat_dx  (s : State) : (keepBat s).dx = s.dx := rfl
@[simp] theorem keepBat_dy  (s : State) : (keepBat s).dy = s.dy := rfl
@[simp] theorem keepBat_ok  (s : State) : (keepBat s).ok = s.ok := rfl
@[simp] theorem keepBat_err  (s : State) : (keepBat s).err = s.err := rfl
@[simp] theorem keepBat_stack  (s : State) : (keepBat s).stack = s.stack := rfl
@[simp] theorem keepBat_opCode  (s : State) : (keepBat s).opCode = s.opCode := rfl
@[simp] theorem keepBat_busy  (s : State) : (keepBat s).busy = s.busy := rfl
@[simp] theorem keepBat_resumeLatch  (s : State) : (keepBat s).resumeLatch = s.resumeLatch := rfl
@[simp] theorem keepBat_t0  (s : State) : (keepBat s).t0 = s.t0 := rfl
@[simp] theorem keepBat_tResult  (s : State) : (keepBat s).tResult = s.tResult := rfl
@[simp] theorem keepBat_cfg  (s : State) : (keepBat s).cfg = s.cfg := rfl
@[simp] theorem keepBat_pins  (s : State) : (keepBat s).pins = s.pins := rfl
@[simp] theorem keepBat_inputs  (s : State) : (keepBat s).inputs = s.inputs := rfl
@[simp] theorem keepBat_clk  (s : State) : (keepBat s).clk = s.clk := rfl
@[simp] theorem keepBat_sel  (s : State) : (keepBat s).sel = s.sel := rfl
@[simp] theorem keepBat_wire  (s : State) : (keepBat s).wire = s.wire := rfl
@[simp] theorem keepBat_drives  (s : State) : (keepBat s).drives = s.drives := rfl

@[simp] theorem keepStatus_clockDrv  (s : State) : (keepStatus s).clockDrv = s.clockDrv := rfl
@[simp] theorem keepStatus_dataDrv  (s : State) : (keepStatus s).dataDrv = s.dataDrv := rfl
@[simp] theorem keepStatus_mode  (s : State) : (keepStatus s).mode = s.mode := rfl
@[simp] theorem keepStatus_initialized  (s : State) : (keepStatus s).initialized = s.initialized := rfl
@[simp] theorem keepStatus_reportingEnabled  (s : State) : (keepStatus s).reportingEnabled = s.reportingEnabled := rfl
@[simp] theorem keepStatus_sh  (s : State) : (keepStatus s).sh = s.sh := rfl
@[simp] theorem keepStatus_par  (s : State) : (keepStatus s).par = s.par := rfl
@[simp] theorem keepStatus_bitidx  (s : State) : (keepStatus s).bitidx = s.bitidx := rfl
@[simp] theorem keepStatus_samp  (s : State) : (keepStatus s).samp = s.samp := rfl
@[simp] theorem keepStatus_arg  (s : State) : (keepStatus s).arg = s.arg := rfl
@[simp] theorem keepStatus_bat  (s : State) : (keepStatus s).bat = s.bat := rfl
@[simp] theorem keepStatus_status  (s : State) : (keepStatus s).status = s.tResult := rfl
@[simp] theorem keepStatus_mag  (s : State) : (keepStatus s).mag = s.mag := rfl
@[simp] theorem keepStatus_dx  (s : State) : (keepStatus s).dx = s.dx := rfl
@[simp] theorem keepStatus_dy  (s : State) : (keepStatus s).dy = s.dy := rfl
@[simp] theorem keepStatus_ok  (s : State) : (keepStatus s).ok = s.ok := rfl
@[simp] theorem keepStatus_err  (s : State) : (keepStatus s).err = s.err := rfl
@[simp] theorem keepStatus_stack  (s : State) : (keepStatus s).stack = s.stack := rfl
@[simp] theorem keepStatus_opCode  (s : State) : (keepStatus s).opCode = s.opCode := rfl
@[simp] theorem keepStatus_busy  (s : State) : (keepStatus s).busy = s.busy := rfl
@[simp] theorem keepStatus_resumeLatch  (s : State) : (keepStatus s).resumeLatch = s.resumeLatch := rfl
@[simp] theorem keepStatus_t0  (s : State) : (keepStatus s).t0 = s.t0 := rfl
@[simp] theorem keepStatus_tResult  (s : State) : (keepStatus s).tResult = s.tResult := rfl
@[simp] theorem keepStatus_cfg  (s : State) : (keepStatus s).cfg = s.cfg := rfl
@[simp] theorem keepStatus_pins  (s : State) : (keepStatus s).pins = s.pins := rfl
@[simp] theorem keepStatus_inputs  (s : State) : (keepStatus s).inputs = s.inputs := rfl
@[simp] theorem keepStatus_clk  (s : State) : (keepStatus s).clk = s.clk := rfl
@[simp] theorem keepStatus_sel  (s : State) : (keepStatus s).sel = s.sel := rfl
@[simp] theorem keepStatus_wire  (s : State) : (keepStatus s).wire = s.wire := rfl
@[simp] theorem keepStatus_drives  (s : State) : (keepStatus s).drives = s.drives := rfl

@[simp] theorem failInit_clockDrv  (s : State) : (failInit s).clockDrv = s.clockDrv := rfl
@[simp] theorem failInit_dataDrv  (s : State) : (failInit s).dataDrv = s.dataDrv := rfl
@[simp] theorem failInit_mode  (s : State) : (failInit s).mode = s.mode := rfl
@[simp] theorem failInit_initialized  (s : State) : (failInit s).initialized = s.initialized := rfl
@[simp] theorem failInit_reportingEnabled  (s : State) : (failInit s).reportingEnabled = s.reportingEnabled := rfl
@[simp] theorem failInit_sh  (s : State) : (failInit s).sh = s.sh := rfl
@[simp] theorem failInit_par  (s : State) : (failInit s).par = s.par := rfl
@[simp] theorem failInit_bitidx  (s : State) : (failInit s).bitidx = s.bitidx := rfl
@[simp] theorem failInit_samp  (s : State) : (failInit s).samp = s.samp := rfl
@[simp] theorem failInit_arg  (s : State) : (failInit s).arg = s.arg := rfl
@[simp] theorem failInit_bat  (s : State) : (failInit s).bat = s.bat := rfl
@[simp] theorem failInit_status  (s : State) : (failInit s).status = s.status := rfl
@[simp] theorem failInit_mag  (s : State) : (failInit s).mag = s.mag := rfl
@[simp] theorem failInit_dx  (s : State) : (failInit s).dx = s.dx := rfl
@[simp] theorem failInit_dy  (s : State) : (failInit s).dy = s.dy := rfl
@[simp] theorem failInit_ok  (s : State) : (failInit s).ok = false := rfl
@[simp] theorem failInit_err  (s : State) : (failInit s).err = s.err := rfl
@[simp] theorem failInit_stack  (s : State) : (failInit s).stack = s.stack := rfl
@[simp] theorem failInit_opCode  (s : State) : (failInit s).opCode = s.opCode := rfl
@[simp] theorem failInit_busy  (s : State) : (failInit s).busy = s.busy := rfl
@[simp] theorem failInit_resumeLatch  (s : State) : (failInit s).resumeLatch = s.resumeLatch := rfl
@[simp] theorem failInit_t0  (s : State) : (failInit s).t0 = s.t0 := rfl
@[simp] theorem failInit_tResult  (s : State) : (failInit s).tResult = s.tResult := rfl
@[simp] theorem failInit_cfg  (s : State) : (failInit s).cfg = s.cfg := rfl
@[simp] theorem failInit_pins  (s : State) : (failInit s).pins = s.pins := rfl
@[simp] theorem failInit_inputs  (s : State) : (failInit s).inputs = s.inputs := rfl
@[simp] theorem failInit_clk  (s : State) : (failInit s).clk = s.clk := rfl
@[simp] theorem failInit_sel  (s : State) : (failInit s).sel = s.sel := rfl
@[simp] theorem failInit_wire  (s : State) : (failInit s).wire = s.wire := rfl
@[simp] theorem failInit_drives  (s : State) : (failInit s).drives = s.drives := rfl

@[simp] theorem passInit_clockDrv  (s : State) : (passInit s).clockDrv = s.clockDrv := rfl
@[simp] theorem passInit_dataDrv  (s : State) : (passInit s).dataDrv = s.dataDrv := rfl
@[simp] theorem passInit_mode  (s : State) : (passInit s).mode = s.mode := rfl
@[simp] theorem passInit_initialized  (s : State) : (passInit s).initialized = true := rfl
@[simp] theorem passInit_reportingEnabled  (s : State) : (passInit s).reportingEnabled = s.reportingEnabled := rfl
@[simp] theorem passInit_sh  (s : State) : (passInit s).sh = s.sh := rfl
@[simp] theorem passInit_par  (s : State) : (passInit s).par = s.par := rfl
@[simp] theorem passInit_bitidx  (s : State) : (passInit s).bitidx = s.bitidx := rfl
@[simp] theorem passInit_samp  (s : State) : (passInit s).samp = s.samp := rfl
@[simp] theorem passInit_arg  (s : State) : (passInit s).arg = s.arg := rfl
@[simp] theorem passInit_bat  (s : State) : (passInit s).bat = s.bat := rfl
@[simp] theorem passInit_status  (s : State) : (passInit s).status = s.status := rfl
@[simp] theorem passInit_mag  (s : State) : (passInit s).mag = s.mag := rfl
@[simp] theorem passInit_dx  (s : State) : (passInit s).dx = s.dx := rfl
@[simp] theorem passInit_dy  (s : State) : (passInit s).dy = s.dy := rfl
@[simp] theorem passInit_ok  (s : State) : (passInit s).ok = true := rfl
@[simp] theorem passInit_err  (s : State) : (passInit s).err = s.err := rfl
@[simp] theorem passInit_stack  (s : State) : (passInit s).stack = s.stack := rfl
@[simp] theorem passInit_opCode  (s : State) : (passInit s).opCode = s.opCode := rfl
@[simp] theorem passInit_busy  (s : State) : (passInit s).busy = s.busy := rfl
@[simp] theorem passInit_resumeLatch  (s : State) : (passInit s).resumeLatch = s.resumeLatch := rfl
@[simp] theorem passInit_t0  (s : State) : (passInit s).t0 = s.t0 := rfl
@[simp] theorem passInit_tResult  (s : State) : (passInit s).tResult = s.tResult := rfl
@[simp] theorem passInit_cfg  (s : State) : (passInit s).cfg = s.cfg := rfl
@[simp] theorem passInit_pins  (s : State) : (passInit s).pins = s.pins := rfl
@[simp] theorem passInit_inputs  (s : State) : (passInit s).inputs = s.inputs := rfl
@[simp] theorem passInit_clk  (s : State) : (passInit s).clk = s.clk := rfl
@[simp] theorem passInit_sel  (s : State) : (passInit s).sel = s.sel := rfl
@[simp] theorem passInit_wire  (s : State) : (passInit s).wire = s.wire := rfl
@[simp] theorem passInit_drives  (s : State) : (passInit s).drives = s.drives := rfl

@[simp] theorem raiseTimeout_clockDrv  (s : State) : (raiseTimeout s).clockDrv = Drv.low := rfl
@[simp] theorem raiseTimeout_dataDrv  (s : State) : (raiseTimeout s).dataDrv = Drv.rel := rfl
@[simp] theorem raiseTimeout_mode  (s : State) : (raiseTimeout s).mode = s.mode := rfl
@[simp] theorem raiseTimeout_initialized  (s : State) : (raiseTimeout s).initialized = s.initialized := rfl
@[simp] theorem raiseTimeout_reportingEnabled  (s : State) : (raiseTimeout s).reportingEnabled = s.reportingEnabled := rfl
@[simp] theorem raiseTimeout_sh  (s : State) : (raiseTimeout s).sh = s.sh := rfl
@[simp] theorem raiseTimeout_par  (s : State) : (raiseTimeout s).par = s.par := rfl
@[simp] theorem raiseTimeout_bitidx  (s : State) : (raiseTimeout s).bitidx = s.bitidx := rfl
@[simp] theorem raiseTimeout_samp  (s : State) : (raiseTimeout s).samp = s.samp := rfl
@[simp] theorem raiseTimeout_arg  (s : State) : (raiseTimeout s).arg = s.arg := rfl
@[simp] theorem raiseTimeout_bat  (s : State) : (raiseTimeout s).bat = s.bat := rfl
@[simp] theorem raiseTimeout_status  (s : State) : (raiseTimeout s).status = s.status := rfl
@[simp] theorem raiseTimeout_mag  (s : State) : (raiseTimeout s).mag = s.mag := rfl
@[simp] theorem raiseTimeout_dx  (s : State) : (raiseTimeout s).dx = s.dx := rfl
@[simp] theorem raiseTimeout_dy  (s : State) : (raiseTimeout s).dy = s.dy := rfl
@[simp] theorem raiseTimeout_ok  (s : State) : (raiseTimeout s).ok = if s.opCode = some 0x0#4 then false else s.ok := rfl
@[simp] theorem raiseTimeout_err  (s : State) : (raiseTimeout s).err = ErrCode.timeout := rfl
@[simp] theorem raiseTimeout_stack  (s : State) : (raiseTimeout s).stack = [] := rfl
@[simp] theorem raiseTimeout_opCode  (s : State) : (raiseTimeout s).opCode = none := rfl
@[simp] theorem raiseTimeout_busy  (s : State) : (raiseTimeout s).busy = false := rfl
@[simp] theorem raiseTimeout_resumeLatch  (s : State) : (raiseTimeout s).resumeLatch = s.resumeLatch := rfl
@[simp] theorem raiseTimeout_t0  (s : State) : (raiseTimeout s).t0 = s.t0 := rfl
@[simp] theorem raiseTimeout_tResult  (s : State) : (raiseTimeout s).tResult = s.tResult := rfl
@[simp] theorem raiseTimeout_cfg  (s : State) : (raiseTimeout s).cfg = s.cfg := rfl
@[simp] theorem raiseTimeout_pins  (s : State) : (raiseTimeout s).pins = s.pins := rfl
@[simp] theorem raiseTimeout_inputs  (s : State) : (raiseTimeout s).inputs = s.inputs := rfl
@[simp] theorem raiseTimeout_clk  (s : State) : (raiseTimeout s).clk = s.clk := rfl
@[simp] theorem raiseTimeout_sel  (s : State) : (raiseTimeout s).sel = s.sel := rfl
@[simp] theorem raiseTimeout_wire  (s : State) : (raiseTimeout s).wire = s.wire := rfl
@[simp] theorem raiseTimeout_drives  (s : State) : (raiseTimeout s).drives = (.clock, .low) :: (.data, .rel) :: s.drives := rfl

@[simp] theorem illegalOp_clockDrv  (s : State) : (illegalOp s).clockDrv = s.clockDrv := rfl
@[simp] theorem illegalOp_dataDrv  (s : State) : (illegalOp s).dataDrv = s.dataDrv := rfl
@[simp] theorem illegalOp_mode  (s : State) : (illegalOp s).mode = s.mode := rfl
@[simp] theorem illegalOp_initialized  (s : State) : (illegalOp s).initialized = s.initialized := rfl
@[simp] theorem illegalOp_reportingEnabled  (s : State) : (illegalOp s).reportingEnabled = s.reportingEnabled := rfl
@[simp] theorem illegalOp_sh  (s : State) : (illegalOp s).sh = s.sh := rfl
@[simp] theorem illegalOp_par  (s : State) : (illegalOp s).par = s.par := rfl
@[simp] theorem illegalOp_bitidx  (s : State) : (illegalOp s).bitidx = s.bitidx := rfl
@[simp] theorem illegalOp_samp  (s : State) : (illegalOp s).samp = s.samp := rfl
@[simp] theorem illegalOp_arg  (s : State) : (illegalOp s).arg = s.arg := rfl
@[simp] theorem illegalOp_bat  (s : State) : (illegalOp s).bat = s.bat := rfl
@[simp] theorem illegalOp_status  (s : State) : (illegalOp s).status = s.status := rfl
@[simp] theorem illegalOp_mag  (s : State) : (illegalOp s).mag = s.mag := rfl
@[simp] theorem illegalOp_dx  (s : State) : (illegalOp s).dx = s.dx := rfl
@[simp] theorem illegalOp_dy  (s : State) : (illegalOp s).dy = s.dy := rfl
@[simp] theorem illegalOp_ok  (s : State) : (illegalOp s).ok = s.ok := rfl
@[simp] theorem illegalOp_err  (s : State) : (illegalOp s).err = ErrCode.illegalOp := rfl
@[simp] theorem illegalOp_stack  (s : State) : (illegalOp s).stack = s.stack := rfl
@[simp] theorem illegalOp_opCode  (s : State) : (illegalOp s).opCode = s.opCode := rfl
@[simp] theorem illegalOp_busy  (s : State) : (illegalOp s).busy = s.busy := rfl
@[simp] theorem illegalOp_resumeLatch  (s : State) : (illegalOp s).resumeLatch = s.resumeLatch := rfl
@[simp] theorem illegalOp_t0  (s : State) : (illegalOp s).t0 = s.t0 := rfl
@[simp] theorem illegalOp_tResult  (s : State) : (illegalOp s).tResult = s.tResult := rfl
@[simp] theorem illegalOp_cfg  (s : State) : (illegalOp s).cfg = s.cfg := rfl
@[simp] theorem illegalOp_pins  (s : State) : (illegalOp s).pins = s.pins := rfl
@[simp] theorem illegalOp_inputs  (s : State) : (illegalOp s).inputs = s.inputs := rfl
@[simp] theorem illegalOp_clk  (s : State) : (illegalOp s).clk = s.clk := rfl
@[simp] theorem illegalOp_sel  (s : State) : (illegalOp s).sel = s.sel := rfl
@[simp] theorem illegalOp_wire  (s : State) : (illegalOp s).wire = s.wire := rfl
@[simp] theorem illegalOp_drives  (s : State) : (illegalOp s).drives = s.drives := rfl

@[simp] theorem sampled_clockDrv (x : Sample) (s : State) : (sampled x s).clockDrv = s.clockDrv := rfl
@[simp] theorem sampled_dataDrv (x : Sample) (s : State) : (sampled x s).dataDrv = s.dataDrv := rfl
@[simp] theorem sampled_mode (x : Sample) (s : State) : (sampled x s).mode = s.mode := rfl
@[simp] theorem sampled_initialized (x : Sample) (s : State) : (sampled x s).initialized = s.initialized := rfl
@[simp] theorem sampled_reportingEnabled (x : Sample) (s : State) : (sampled x s).reportingEnabled = s.reportingEnabled := rfl
@[simp] theorem sampled_sh (x : Sample) (s : State) : (sampled x s).sh = s.sh := rfl
@[simp] theorem sampled_par (x : Sample) (s : State) : (sampled x s).par = s.par := rfl
@[simp] theorem sampled_bitidx (x : Sample) (s : State) : (sampled x s).bitidx = s.bitidx := rfl
@[simp] theorem sampled_samp (x : Sample) (s : State) : (sampled x s).samp = s.samp := rfl
@[simp] theorem sampled_arg (x : Sample) (s : State) : (sampled x s).arg = s.arg := rfl
@[simp] theorem sampled_bat (x : Sample) (s : State) : (sampled x s).bat = s.bat := rfl
@[simp] theorem sampled_status (x : Sample) (s : State) : (sampled x s).status = s.status := rfl
@[simp] theorem sampled_mag (x : Sample) (s : State) : (sampled x s).mag = s.mag := rfl
@[simp] theorem sampled_dx (x : Sample) (s : State) : (sampled x s).dx = s.dx := rfl
@[simp] theorem sampled_dy (x : Sample) (s : State) : (sampled x s).dy = s.dy := rfl
@[simp] theorem sampled_ok (x : Sample) (s : State) : (sampled x s).ok = s.ok := rfl
@[simp] theorem sampled_err (x : Sample) (s : State) : (sampled x s).err = s.err := rfl
@[simp] theorem sampled_stack (x : Sample) (s : State) : (sampled x s).stack = s.stack := rfl
@[simp] theorem sampled_opCode (x : Sample) (s : State) : (sampled x s).opCode = s.opCode := rfl
@[simp] theorem sampled_busy (x : Sample) (s : State) : (sampled x s).busy = s.busy := rfl
@[simp] theorem sampled_resumeLatch (x : Sample) (s : State) : (sampled x s).resumeLatch = s.resumeLatch := rfl
@[simp] theorem sampled_t0 (x : Sample) (s : State) : (sampled x s).t0 = s.t0 := rfl
@[simp] theorem sampled_tResult (x : Sample) (s : State) : (sampled x s).tResult = s.tResult := rfl
@[simp] theorem sampled_cfg (x : Sample) (s : State) : (sampled x s).cfg = s.cfg := rfl
@[simp] theorem sampled_pins (x : Sample) (s : State) : (sampled x s).pins = x := rfl
@[simp] theorem sampled_inputs (x : Sample) (s : State) : (sampled x s).inputs = s.inputs := rfl
@[simp] theorem sampled_clk (x : Sample) (s : State) : (sampled x s).clk = s.clk + 1 := rfl
@[simp] theorem sampled_sel (x : Sample) (s : State) : (sampled x s).sel = s.sel := rfl
@[simp] theorem sampled_wire (x : Sample) (s : State) : (sampled x s).wire = s.wire := rfl
@[simp] theorem sampled_drives (x : Sample) (s : State) : (sampled x s).drives = s.drives := rfl

@[simp] theorem keepMovement_x_clockDrv  (s : State) : (keepMovement .x s).clockDrv = s.clockDrv := rfl
@[simp] theorem keepMovement_x_dataDrv  (s : State) : (keepMovement .x s).dataDrv = s.dataDrv := rfl
@[simp] theorem keepMovement_x_mode  (s : State) : (keepMovement .x s).mode = s.mode := rfl
@[simp] theorem keepMovement_x_initialized  (s : State) : (keepMovement .x s).initialized = s.initialized := rfl
@[simp] theorem keepMovement_x_reportingEnabled  (s : State) : (keepMovement .x s).reportingEnabled = s.reportingEnabled := rfl
@[simp] theorem keepMovement_x_sh  (s : State) : (keepMovement .x s).sh = s.sh := rfl
@[simp] theorem keepMovement_x_par  (s : State) : (keepMovement .x s).par = s.par := rfl
@[simp] theorem keepMovement_x_bitidx  (s : State) : (keepMovement .x s).bitidx = s.bitidx := rfl
@[simp] theorem keepMovement_x_samp  (s : State) : (keepMovement .x s).samp = s.samp := rfl
@[simp] theorem keepMovement_x_arg  (s : State) : (keepMovement .x s).arg = s.arg := rfl
@[simp] theorem keepMovement_x_bat  (s : State) : (keepMovement .x s).bat = s.bat := rfl
@[simp] theorem keepMovement_x_status  (s : State) : (keepMovement .x s).status = s.status := rfl
@[simp] theorem keepMovement_x_mag  (s : State) : (keepMovement .x s).mag = s.tResult := rfl
@[simp] theorem keepMovement_x_dx  (s : State) : (keepMovement .x s).dx = sext9to16 (s.status.getLsbD 4) s.tResult := rfl
@[simp] theorem keepMovement_x_dy  (s : State) : (keepMovement .x s).dy = s.dy := rfl
@[simp] theorem keepMovement_x_ok  (s : State) : (keepMovement .x s).ok = s.ok := rfl
@[simp] theorem keepMovement_x_err  (s : State) : (keepMovement .x s).err = s.err := rfl
@[simp] theorem keepMovement_x_stack  (s : State) : (keepMovement .x s).stack = s.stack := rfl
@[simp] theorem keepMovement_x_opCode  (s : State) : (keepMovement .x s).opCode = s.opCode := rfl
@[simp] theorem keepMovement_x_busy  (s : State) : (keepMovement .x s).busy = s.busy := rfl
@[simp] theorem keepMovement_x_resumeLatch  (s : State) : (keepMovement .x s).resumeLatch = s.resumeLatch := rfl
@[simp] theorem keepMovement_x_t0  (s : State) : (keepMovement .x s).t0 = s.t0 := rfl
@[simp] theorem keepMovement_x_tResult  (s : State) : (keepMovement .x s).tResult = s.tResult := rfl
@[simp] theorem keepMovement_x_cfg  (s : State) : (keepMovement .x s).cfg = s.cfg := rfl
@[simp] theorem keepMovement_x_pins  (s : State) : (keepMovement .x s).pins = s.pins := rfl
@[simp] theorem keepMovement_x_inputs  (s : State) : (keepMovement .x s).inputs = s.inputs := rfl
@[simp] theorem keepMovement_x_clk  (s : State) : (keepMovement .x s).clk = s.clk := rfl
@[simp] theorem keepMovement_x_sel  (s : State) : (keepMovement .x s).sel = s.sel := rfl
@[simp] theorem keepMovement_x_wire  (s : State) : (keepMovement .x s).wire = s.wire := rfl
@[simp] theorem keepMovement_x_drives  (s : State) : (keepMovement .x s).drives = s.drives := rfl

@[simp] theorem keepMovement_y_clockDrv  (s : State) : (keepMovement .y s).clockDrv = s.clockDrv := rfl
@[simp] theorem keepMovement_y_dataDrv  (s : State) : (keepMovement .y s).dataDrv = s.dataDrv := rfl
@[simp] theorem keepMovement_y_mode  (s : State) : (keepMovement .y s).mode = s.mode := rfl
@[simp] theorem keepMovement_y_initialized  (s : State) : (keepMovement .y s).initialized = s.initialized := rfl
@[simp] theorem keepMovement_y_reportingEnabled  (s : State) : (keepMovement .y s).reportingEnabled = s.reportingEnabled := rfl
@[simp] theorem keepMovement_y_sh  (s : State) : (keepMovement .y s).sh = s.sh := rfl
@[simp] theorem keepMovement_y_par  (s : State) : (keepMovement .y s).par = s.par := rfl
@[simp] theorem keepMovement_y_bitidx  (s : State) : (keepMovement .y s).bitidx = s.bitidx := rfl
@[simp] theorem keepMovement_y_samp  (s : State) : (keepMovement .y s).samp = s.samp := rfl
@[simp] theorem keepMovement_y_arg  (s : State) : (keepMovement .y s).arg = s.arg := rfl
@[simp] theorem keepMovement_y_bat  (s : State) : (keepMovement .y s).bat = s.bat := rfl
@[simp] theorem keepMovement_y_status  (s : State) : (keepMovement .y s).status = s.status := rfl
@[simp] theorem keepMovement_y_mag  (s : State) : (keepMovement .y s).mag = s.tResult := rfl
@[simp] theorem keepMovement_y_dx  (s : State) : (keepMovement .y s).dx = s.dx := rfl
@[simp] theorem keepMovement_y_dy  (s : State) : (keepMovement .y s).dy = sext9to16 (s.status.getLsbD 5) s.tResult := rfl
@[simp] theorem keepMovement_y_ok  (s : State) : (keepMovement .y s).ok = s.ok := rfl
@[simp] theorem keepMovement_y_err  (s : State) : (keepMovement .y s).err = s.err := rfl
@[simp] theorem keepMovement_y_stack  (s : State) : (keepMovement .y s).stack = s.stack := rfl
@[simp] theorem keepMovement_y_opCode  (s : State) : (keepMovement .y s).opCode = s.opCode := rfl
@[simp] theorem keepMovement_y_busy  (s : State) : (keepMovement .y s).busy = s.busy := rfl
@[simp] theorem keepMovement_y_resumeLatch  (s : State) : (keepMovement .y s).resumeLatch = s.resumeLatch := rfl
@[simp] theorem keepMovement_y_t0  (s : State) : (keepMovement .y s).t0 = s.t0 := rfl
@[simp] theorem keepMovement_y_tResult  (s : State) : (keepMovement .y s).tResult = s.tResult := rfl
@[simp] theorem keepMovement_y_cfg  (s : State) : (keepMovement .y s).cfg = s.cfg := rfl
@[simp] theorem keepMovement_y_pins  (s : State) : (keepMovement .y s).pins = s.pins := rfl
@[simp] theorem keepMovement_y_inputs  (s : State) : (keepMovement .y s).inputs = s.inputs := rfl
@[simp] theorem keepMovement_y_clk  (s : State) : (keepMovement .y s).clk = s.clk := rfl
@[simp] theorem keepMovement_y_sel  (s : State) : (keepMovement .y s).sel = s.sel := rfl
@[simp] theorem keepMovement_y_wire  (s : State) : (keepMovement .y s).wire = s.wire := rfl
@[simp] theorem keepMovement_y_drives  (s : State) : (keepMovement .y s).drives = s.drives := rfl

@[simp] theorem armPoll_clockDrv (s : State) : (armPoll s).clockDrv = s.clockDrv := by unfold armPoll; split <;> rfl
@[simp] theorem armPoll_dataDrv (s : State) : (armPoll s).dataDrv = s.dataDrv := by unfold armPoll; split <;> rfl
@[simp] theorem armPoll_mode (s : State) : (armPoll s).mode = s.mode := by unfold armPoll; split <;> rfl
@[simp] theorem armPoll_initialized (s : State) : (armPoll s).initialized = s.initialized := by unfold armPoll; split <;> rfl
@[simp] theorem armPoll_reportingEnabled (s : State) : (armPoll s).reportingEnabled = s.reportingEnabled := by unfold armPoll; split <;> rfl
@[simp] theorem armPoll_sh (s : State) : (armPoll s).sh = s.sh := by unfold armPoll; split <;> rfl
@[simp] theorem armPoll_par (s : State) : (armPoll s).par = s.par := by unfold armPoll; split <;> rfl
@[simp] theorem armPoll_bitidx (s : State) : (armPoll s).bitidx = s.bitidx := by unfold armPoll; split <;> rfl
@[simp] theorem armPoll_samp (s : State) : (armPoll s).samp = s.samp := by unfold armPoll; split <;> rfl
@[simp] theorem armPoll_arg (s : State) : (armPoll s).arg = s.arg := by unfold armPoll; split <;> rfl
@[simp] theorem armPoll_bat (s : State) : (armPoll s).bat = s.bat := by unfold armPoll; split <;> rfl
@[simp] theorem armPoll_status (s : State) : (armPoll s).status = s.status := by unfold armPoll; split <;> rfl
@[simp] theorem armPoll_mag (s : State) : (armPoll s).mag = s.mag := by unfold armPoll; split <;> rfl
@[simp] theorem armPoll_dx (s : State) : (armPoll s).dx = s.dx := by unfold armPoll; split <;> rfl
@[simp] theorem armPoll_dy (s : State) : (armPoll s).dy = s.dy := by unfold armPoll; split <;> rfl
@[simp] theorem armPoll_ok (s : State) : (armPoll s).ok = s.ok := by unfold armPoll; split <;> rfl
@[simp] theorem armPoll_err (s : State) : (armPoll s).err = s.err := by unfold armPoll; split <;> rfl
@[simp] theorem armPoll_stack (s : State) : (armPoll s).stack = s.stack := by unfold armPoll; split <;> rfl
@[simp] theorem armPoll_opCode (s : State) : (armPoll s).opCode = s.opCode := by unfold armPoll; split <;> rfl
@[simp] theorem armPoll_busy (s : State) : (armPoll s).busy = s.busy := by unfold armPoll; split <;> rfl
@[simp] theorem armPoll_resumeLatch (s : State) : (armPoll s).resumeLatch = s.resumeLatch := by unfold armPoll; split <;> rfl
@[simp] theorem armPoll_tResult (s : State) : (armPoll s).tResult = s.tResult := by unfold armPoll; split <;> rfl
@[simp] theorem armPoll_cfg (s : State) : (armPoll s).cfg = s.cfg := by unfold armPoll; split <;> rfl
@[simp] theorem armPoll_pins (s : State) : (armPoll s).pins = s.pins := by unfold armPoll; split <;> rfl
@[simp] theorem armPoll_inputs (s : State) : (armPoll s).inputs = s.inputs := by unfold armPoll; split <;> rfl
@[simp] theorem armPoll_clk (s : State) : (armPoll s).clk = s.clk := by unfold armPoll; split <;> rfl
@[simp] theorem armPoll_sel (s : State) : (armPoll s).sel = s.sel := by unfold armPoll; split <;> rfl
@[simp] theorem armPoll_wire (s : State) : (armPoll s).wire = s.wire := by unfold armPoll; split <;> rfl
@[simp] theorem armPoll_drives (s : State) : (armPoll s).drives = s.drives := by unfold armPoll; split <;> rfl

@[simp] theorem storeSample_clockDrv (s : State) : (storeSample s).clockDrv = s.clockDrv := by unfold storeSample; split <;> rfl
@[simp] theorem storeSample_dataDrv (s : State) : (storeSample s).dataDrv = s.dataDrv := by unfold storeSample; split <;> rfl
@[simp] theorem storeSample_mode (s : State) : (storeSample s).mode = s.mode := by unfold storeSample; split <;> rfl
@[simp] theorem storeSample_initialized (s : State) : (storeSample s).initialized = s.initialized := by unfold storeSample; split <;> rfl
@[simp] theorem storeSample_reportingEnabled (s : State) : (storeSample s).reportingEnabled = s.reportingEnabled := by unfold storeSample; split <;> rfl
@[simp] theorem storeSample_par (s : State) : (storeSample s).par = s.par := by unfold storeSample; split <;> rfl
@[simp] theorem storeSample_bitidx (s : State) : (storeSample s).bitidx = s.bitidx := by unfold storeSample; split <;> rfl
@[simp] theorem storeSample_samp (s : State) : (storeSample s).samp = s.samp := by unfold storeSample; split <;> rfl
@[simp] theorem storeSample_arg (s : State) : (storeSample s).arg = s.arg := by unfold storeSample; split <;> rfl
@[simp] theorem storeSample_bat (s : State) : (storeSample s).bat = s.bat := by unfold storeSample; split <;> rfl
@[simp] theorem storeSample_status (s : State) : (storeSample s).status = s.status := by unfold storeSample; split <;> rfl
@[simp] theorem storeSample_mag (s : State) : (storeSample s).mag = s.mag := by unfold storeSample; split <;> rfl
@[simp] theorem storeSample_dx (s : State) : (storeSample s).dx = s.dx := by unfold storeSample; split <;> rfl
@[simp] theorem storeSample_dy (s : State) : (storeSample s).dy = s.dy := by unfold storeSample; split <;> rfl
@[simp] theorem storeSample_ok (s : State) : (storeSample s).ok = s.ok := by unfold storeSample; split <;> rfl
@[simp] theorem storeSample_err (s : State) : (storeSample s).err = s.err := by unfold storeSample; split <;> rfl
@[simp] theorem storeSample_stack (s : State) : (storeSample s).stack = s.stack := by unfold storeSample; split <;> rfl
@[simp] theorem storeSample_opCode (s : State) : (storeSample s).opCode = s.opCode := by unfold storeSample; split <;> rfl
@[simp] theorem storeSample_busy (s : State) : (storeSample s).busy = s.busy := by unfold storeSample; split <;> rfl
@[simp] theorem storeSample_resumeLatch (s : State) : (storeSample s).resumeLatch = s.resumeLatch := by unfold storeSample; split <;> rfl
@[simp] theorem storeSample_t0 (s : State) : (storeSample s).t0 = s.t0 := by unfold storeSample; split <;> rfl
@[simp] theorem storeSample_tResult (s : State) : (storeSample s).tResult = s.tResult := by unfold storeSample; split <;> rfl
@[simp] theorem storeSample_cfg (s : State) : (storeSample s).cfg = s.cfg := by unfold storeSample; split <;> rfl
@[simp] theorem storeSample_pins (s : State) : (storeSample s).pins = s.pins := by unfold storeSample; split <;> rfl
@[simp] theorem storeSample_inputs (s : State) : (storeSample s).inputs = s.inputs := by unfold storeSample; split <;> rfl
@[simp] theorem storeSample_clk (s : State) : (storeSample s).clk = s.clk := by unfold storeSample; split <;> rfl
@[simp] theorem storeSample_sel (s : State) : (storeSample s).sel = s.sel := by unfold storeSample; split <;> rfl
@[simp] theorem storeSample_wire (s : State) : (storeSample s).wire = s.wire := by unfold storeSample; split <;> rfl
@[simp] theorem storeSample_drives (s : State) : (storeSample s).drives = s.drives := by unfold storeSample; split <;> rfl

@[simp] theorem driveSlot_clockDrv (s : State) : (driveSlot s).clockDrv = s.clockDrv := by unfold driveSlot driveBit; split <;> (try split) <;> rfl
@[simp] theorem driveSlot_mode (s : State) : (driveSlot s).mode = s.mode := by unfold driveSlot driveBit; split <;> (try split) <;> rfl
@[simp] theorem driveSlot_initialized (s : State) : (driveSlot s).initialized = s.initialized := by unfold driveSlot driveBit; split <;> (try split) <;> rfl
@[simp] theorem driveSlot_reportingEnabled (s : State) : (driveSlot s).reportingEnabled = s.reportingEnabled := by unfold driveSlot driveBit; split <;> (try split) <;> rfl
@[simp] theorem driveSlot_sh (s : State) : (driveSlot s).sh = s.sh := by unfold driveSlot driveBit; split <;> (try split) <;> rfl
@[simp] theorem driveSlot_bitidx (s : State) : (driveSlot s).bitidx = s.bitidx := by unfold driveSlot driveBit; split <;> (try split) <;> rfl
@[simp] theorem driveSlot_samp (s : State) : (driveSlot s).samp = s.samp := by unfold driveSlot driveBit; split <;> (try split) <;> rfl
@[simp] theorem driveSlot_arg (s : State) : (driveSlot s).arg = s.arg := by unfold driveSlot driveBit; split <;> (try split) <;> rfl
@[simp] theorem driveSlot_bat (s : State) : (driveSlot s).bat = s.bat := by unfold driveSlot driveBit; split <;> (try split) <;> rfl
@[simp] theorem driveSlot_status (s : State) : (driveSlot s).status = s.status := by unfold driveSlot driveBit; split <;> (try split) <;> rfl
@[simp] theorem driveSlot_mag (s : State) : (driveSlot s).mag = s.mag := by unfold driveSlot driveBit; split <;> (try split) <;> rfl
@[simp] theorem driveSlot_dx (s : State) : (driveSlot s).dx = s.dx := by unfold driveSlot driveBit; split <;> (try split) <;> rfl
@[simp] theorem driveSlot_dy (s : State) : (driveSlot s).dy = s.dy := by unfold driveSlot driveBit; split <;> (try split) <;> rfl
@[simp] theorem driveSlot_ok (s : State) : (driveSlot s).ok = s.ok := by unfold driveSlot driveBit; split <;> (try split) <;> rfl
@[simp] theorem driveSlot_err (s : State) : (driveSlot s).err = s.err := by unfold driveSlot driveBit; split <;> (try split) <;> rfl
@[simp] theorem driveSlot_stack (s : State) : (driveSlot s).stack = s.stack := by unfold driveSlot driveBit; split <;> (try split) <;> rfl
@[simp] theorem driveSlot_opCode (s : State) : (driveSlot s).opCode = s.opCode := by unfold driveSlot driveBit; split <;> (try split) <;> rfl
@[simp] theorem driveSlot_busy (s : State) : (driveSlot s).busy = s.busy := by unfold driveSlot driveBit; split <;> (try split) <;> rfl
@[simp] theorem driveSlot_resumeLatch (s : State) : (driveSlot s).resumeLatch = s.resumeLatch := by unfold driveSlot driveBit; split <;> (try split) <;> rfl
@[simp] theorem driveSlot_t0 (s : State) : (driveSlot s).t0 = s.t0 := by unfold driveSlot driveBit; split <;> (try split) <;> rfl
@[simp] theorem driveSlot_tResult (s : State) : (driveSlot s).tResult = s.tResult := by unfold driveSlot driveBit; split <;> (try split) <;> rfl
@[simp] theorem driveSlot_cfg (s : State) : (driveSlot s).cfg = s.cfg := by unfold driveSlot driveBit; split <;> (try split) <;> rfl
@[simp] theorem driveSlot_pins (s : State) : (driveSlot s).pins = s.pins := by unfold driveSlot driveBit; split <;> (try split) <;> rfl
@[simp] theorem driveSlot_inputs (s : State) : (driveSlot s).inputs = s.inputs := by unfold driveSlot driveBit; split <;> (try split) <;> rfl
@[simp] theorem driveSlot_clk (s : State) : (driveSlot s).clk = s.clk := by unfold driveSlot driveBit; split <;> (try split) <;> rfl
@[simp] theorem driveSlot_sel (s : State) : (driveSlot s).sel = s.sel := by unfold driveSlot driveBit; split <;> (try split) <;> rfl
@[simp] theorem driveSlot_wire (s : State) : (driveSlot s).wire = s.wire := by unfold driveSlot driveBit; split <;> (try split) <;> rfl

@[simp] theorem opEnd_err_caller (s : State) (c : BitVec 4) (h : s.opCode = some c) : (opEnd s).err = .none := by simp [opEnd, h]
@[simp] theorem opEnd_err_none (s : State) (h : s.opCode = none) : (opEnd s).err = s.err := by simp [opEnd, h]

theorem storeSample_sh (s : State) : (storeSample s).sh = if s.bitidx < 8#4 then writeBit s.sh s.bitidx.toNat s.samp else s.sh := by unfold storeSample; split <;> rfl

end Sys2Proof.Machine
end

