-- ==== Sys2Proof/Laws/Run.lean ====
section
/-! SUPPORT. What a run over the queued samples does: one law per kind of segment of the device's contract. -/

namespace Sys2Proof.Machine

/-- A step's outcome, and the run over the samples that are left. -/
def continueWith (rest : List Sample) (r : Result) : Result :=
  match r with
  | .next s => run rest s
  | .fault e => .fault e
  | .refused e => .refused e

/-- What the sequencer makes of a step of the innermost operation above the callers `k`. -/
def conclude (k : List Frame) (r : Ran) : Result :=
  match r with
  | (s', .block fs) => .next { s' with stack := fs ++ k }
  | (s', .ret) => resume k s'
  | (s', .hold) =>
    match k with
    | [] => .next (opEnd s')
    | _ :: _ => .next { s' with stack := k }
  | (s', .timeout) => .next (raiseTimeout s')
  | (_, .unused) => .fault .unusedBitidx

theorem resume_nil (s : State) : resume [] s = .next (opEnd s) := rfl

theorem resume_cons (f : Frame) (k : List Frame) (s : State) :
    resume (f :: k) s = conclude k (frameStep f s) := rfl

@[simp] theorem conclude_block (k fs : List Frame) (s : State) :
    conclude k (s, .block fs) = .next { s with stack := fs ++ k } := rfl

@[simp] theorem conclude_ret (k : List Frame) (s : State) : conclude k (s, .ret) = resume k s := rfl

@[simp] theorem conclude_hold_nil (s : State) : conclude [] (s, .hold) = .next (opEnd s) := rfl

@[simp] theorem conclude_hold_cons (f : Frame) (k : List Frame) (s : State) :
    conclude (f :: k) (s, .hold) = .next { s with stack := f :: k } := rfl

@[simp] theorem conclude_timeout (k : List Frame) (s : State) :
    conclude k (s, .timeout) = .next (raiseTimeout s) := rfl

@[simp] theorem conclude_unused (k : List Frame) (s : State) :
    conclude k (s, .unused) = .fault .unusedBitidx := rfl

@[simp] theorem continueWith_next (rest : List Sample) (s : State) :
    continueWith rest (.next s) = run rest s := rfl

/-- A run stops where the HOST is idle. -/
theorem run_idle {s : State} (h : s.busy = false) (rest : List Sample) :
    run rest s = .next { s with inputs := rest } := by
  cases rest <;> simp [run, h]

/-- A run takes one clock edge at a time. -/
theorem run_cons {s : State} (h : s.busy = true) (x : Sample) (hx : x.rst = false) (rest : List Sample) :
    run (x :: rest) s = continueWith rest (resume s.stack (sampled x s)) := by
  simp only [run, h, edge, hx, if_true, Bool.false_eq_true, if_false, continueWith]
  rfl

/-- A run over samples at which the innermost operation stays where it is. -/
theorem run_stay {f : Frame} {k : List Frame} (ys : List Sample) {s : State} (hb : s.busy = true)
    (hs : s.stack = f :: k)
    (h : ∀ y ∈ ys, y.rst = false ∧ ∀ c, frameStep f (seenAt y c s) = (seenAt y c s, .block [f])) :
    ∃ x c, ∀ rest, run (ys ++ rest) s = run rest (seenAt x c s) := by
  induction ys generalizing s with
  | nil => exact ⟨s.pins, s.clk, fun _ => rfl⟩
  | cons y ys ih =>
    obtain ⟨hy, hf⟩ := h y (by simp)
    have h1 : ∀ rest, run (y :: ys ++ rest) s = run (ys ++ rest) (seenAt y (s.clk + 1) s) := fun rest => by
      rw [List.cons_append, run_cons hb y hy, hs, resume_cons, sampled_eq_seenAt, hf]
      simp only [conclude_block, continueWith_next, List.cons_append, List.nil_append]
      congr 1
      rw [← hs]; rfl
    obtain ⟨x, c, h2⟩ := ih (s := seenAt y (s.clk + 1) s) (by simpa using hb) (by simpa using hs)
      (fun z hz => by
        obtain ⟨h3, h4⟩ := h z (by simp [hz])
        exact ⟨h3, fun c => by simpa using h4 c⟩)
    exact ⟨x, c, fun rest => by rw [h1, h2, seenAt_seenAt]⟩

/-- Samples at which the innermost operation stays, then one at which it goes on by `K`. -/
theorem run_hold {f : Frame} {k : List Frame} {ys : List Sample} {x : Sample} {s : State} {K : State → Ran}
    (hb : s.busy = true) (hs : s.stack = f :: k)
    (hys : ∀ y ∈ ys, y.rst = false ∧ ∀ c, frameStep f (seenAt y c s) = (seenAt y c s, .block [f]))
    (hx : x.rst = false) (hK : ∀ c, frameStep f (seenAt x c s) = K (seenAt x c s)) :
    ∃ c, ∀ rest, run (ys ++ [x] ++ rest) s = continueWith rest (conclude k (K (seenAt x c s))) := by
  obtain ⟨z, c, hz⟩ := run_stay ys hb hs hys
  refine ⟨c + 1, fun rest => ?_⟩
  have hb' : (seenAt z c s).busy = true := by simpa using hb
  have hs' : (seenAt z c s).stack = f :: k := by simpa using hs
  rw [List.append_assoc, hz, List.singleton_append, run_cons hb' x hx, hs', resume_cons, sampled_eq_seenAt,
    seenAt_seenAt, hK]
  rfl

/-- One edge at which the innermost operation goes on by `K`, whatever the lines. -/
theorem run_edge {f : Frame} {k : List Frame} {t t' : Time} {xs : List Sample} {s : State}
    (h : edgeSeg t xs t') (hb : s.busy = true) (hs : s.stack = f :: k) :
    ∃ x c, x.nowUs = t' ∧
      ∀ rest, run (xs ++ rest) s = continueWith rest (conclude k (frameStep f (seenAt x c s))) := by
  obtain ⟨x, rfl, hx, rfl⟩ := h
  obtain ⟨c, hc⟩ := run_hold (ys := []) (K := frameStep f) hb hs (by simp) hx (fun _ => rfl)
  exact ⟨x, c, rfl, hc⟩

/-- A `Wait` runs until the sample that lifts it, and the step after it is taken there (R132). -/
theorem run_wait {f : Frame} {k : List Frame} {n t t' : Time} {xs : List Sample} {K : State → Ran} {s : State}
    (h : waitSeg n t xs t') (hb : s.busy = true) (hs : s.stack = f :: k) (ht : s.t0 = t)
    (hf : ∀ x c, frameStep f (seenAt x c s) = waitThen n f K (seenAt x c s)) :
    ∃ x c, x.nowUs = t' ∧ ∀ rest, run (xs ++ rest) s = continueWith rest (conclude k (K (seenAt x c s))) := by
  obtain ⟨ys, x, rfl, hys, hx, hlt, rfl⟩ := h
  have hstay : ∀ y ∈ ys, y.rst = false ∧ ∀ c, frameStep f (seenAt y c s) = (seenAt y c s, .block [f]) :=
    fun y hy => ⟨(hys y hy).1, fun c => by
      rw [hf, waitThen, if_pos (by simpa [elapsed, now, ht] using (hys y hy).2), goto]⟩
  obtain ⟨c, hc⟩ := run_hold (K := K) hb hs hstay hx (fun c => by
    rw [hf, waitThen, if_neg (by simpa [elapsed, now, ht] using hlt)])
  exact ⟨x, c, rfl, hc⟩

/-- A `WaitWhile` runs until the poll at which its condition is false, and the step after it is taken there (R133). -/
theorem run_poll {f : Frame} {k : List Frame} {t t' : Time} {xs : List Sample} {K : State → Ran} {s : State}
    {C : State → Bool} {c : Sample → Bool}
    (h : pollSeg s.cfg c t xs t') (hb : s.busy = true) (hs : s.stack = f :: k)
    (ht : s.cfg.timeoutPolicy = .bounded → s.t0 = t) (hC : ∀ x n, C (seenAt x n s) = c x)
    (hf : ∀ x n, frameStep f (seenAt x n s) = pollThen (C (seenAt x n s)) f K (seenAt x n s)) :
    ∃ x n, x.nowUs = t' ∧ c x = false ∧
      ∀ rest, run (xs ++ rest) s = continueWith rest (conclude k (K (seenAt x n s))) := by
  obtain ⟨ys, x, rfl, hys, hx, hcx, rfl⟩ := h
  have hstay : ∀ y ∈ ys, y.rst = false ∧ ∀ c, frameStep f (seenAt y c s) = (seenAt y c s, .block [f]) :=
    fun y hy => by
      obtain ⟨h1, h2, h3⟩ := hys y hy
      refine ⟨h1, fun n => ?_⟩
      have h4 : expired (seenAt y n s) = false := by
        unfold expired
        cases hp : s.cfg.timeoutPolicy with
        | unbounded => simp [hp]
        | bounded => simpa [hp, elapsed, now, ht hp] using h3 hp
      rw [hf, hC, h2, pollThen, if_pos rfl, h4, if_neg (by simp), goto]
  obtain ⟨n, hn⟩ := run_hold (K := K) hb hs hstay hx (fun n => by
    rw [hf, hC, hcx, pollThen, if_neg (by simp)])
  exact ⟨x, n, rfl, hcx, hn⟩

theorem armPoll_cases (s : State) :
    armPoll s = s ∧ s.cfg.timeoutPolicy = .unbounded ∨ armPoll s = armTimer s ∧ s.cfg.timeoutPolicy = .bounded := by
  unfold armPoll
  cases s.cfg.timeoutPolicy <;> simp

/-- On entry to a `WaitWhile` the limit is measured from now. -/
theorem armPoll_t0 (s : State) (h : (armPoll s).cfg.timeoutPolicy = .bounded) : (armPoll s).t0 = s.pins.nowUs := by
  rcases armPoll_cases s with ⟨_, h2⟩ | ⟨h1, _⟩
  · simp [h2] at h
  · rw [h1]; rfl

theorem level_clock {s : State} (h : s.clockDrv = .rel) : level .clock s = s.pins.devClock := by
  simp [level, State.drv, State.dev, h]

theorem level_data {s : State} (h : s.dataDrv = .rel) : level .data s = s.pins.devData := by
  simp [level, State.drv, State.dev, h]

end Sys2Proof.Machine
end

