-- ==== Sys2Proof/Laws/Transmit.lean ====
section
/-! SUPPORT. What TRANSMIT_BYTE does against a device that meets its contract (R136 to R145). -/

namespace Sys2Proof.Machine

/-- `s` at other ports, edge count, timer and position: what the edges of an operation change besides its effect. -/
def moved (x : Sample) (c : Nat) (t : Time) (st : List Frame) (s : State) : State :=
  { s with pins := x, clk := c, t0 := t, stack := st }

section moved
variable (x y : Sample) (c d : Nat) (t u : Time) (st st' : List Frame) (s : State)

@[simp] theorem moved_busy : (moved x c t st s).busy = s.busy := rfl
@[simp] theorem moved_stack : (moved x c t st s).stack = st := rfl
@[simp] theorem moved_t0 : (moved x c t st s).t0 = t := rfl
@[simp] theorem moved_cfg : (moved x c t st s).cfg = s.cfg := rfl
@[simp] theorem moved_clockDrv : (moved x c t st s).clockDrv = s.clockDrv := rfl
@[simp] theorem moved_dataDrv : (moved x c t st s).dataDrv = s.dataDrv := rfl
@[simp] theorem moved_bitidx : (moved x c t st s).bitidx = s.bitidx := rfl
@[simp] theorem moved_sh : (moved x c t st s).sh = s.sh := rfl
@[simp] theorem moved_samp : (moved x c t st s).samp = s.samp := rfl
@[simp] theorem moved_pins : (moved x c t st s).pins = x := rfl

theorem seenAt_moved : seenAt y d (moved x c t st s) = moved y d t st s := rfl

theorem moved_moved : moved y d u st' (moved x c t st s) = moved y d u st' s := rfl

theorem armTimer_moved : armTimer (moved x c t st s) = moved x c x.nowUs st s := rfl

theorem seenAt_eq_moved : seenAt x c s = moved x c s.t0 s.stack s := rfl

theorem drive_moved (l : Line) (v : Drv) : drive l v (moved x c t st s) = moved x c t st (drive l v s) := by
  cases l <;> rfl

theorem setBitidx_moved (i : BitVec 4) : setBitidx i (moved x c t st s) = moved x c t st (setBitidx i s) := rfl

theorem logWire_moved (e : WireEvent) : logWire e (moved x c t st s) = moved x c t st (logWire e s) := rfl

theorem driveSlot_moved : driveSlot (moved x c t st s) = moved x c t st (driveSlot s) := by
  simp only [driveSlot, driveBit, drive_moved, moved_bitidx, moved_sh]
  split_ifs <;> rfl

theorem armPoll_moved :
    ∃ v, armPoll (moved x c t st s) = moved x c v st s ∧ (s.cfg.timeoutPolicy = .bounded → v = x.nowUs) := by
  rcases armPoll_cases (moved x c t st s) with ⟨h1, h2⟩ | ⟨h1, _⟩
  · exact ⟨t, h1, fun h => by simp [moved] at h2; simp [h2] at h⟩
  · exact ⟨x.nowUs, h1, fun _ => rfl⟩

theorem moved_withStack (st'' : List Frame) : { moved x c t st s with stack := st'' } = moved x c t st'' s := rfl

end moved

/-- What entering slot `i` does (R140 to R142). -/
def slotState (i : BitVec 4) (s : State) : State := driveSlot (setBitidx i s)

/-- What the `m` slots after slot `i` do. -/
def laterSlots (i m : Nat) (s : State) : State :=
  match m with
  | 0 => s
  | m + 1 => laterSlots (i + 1) m (slotState (BitVec.ofNat 4 (i + 1)) s)

@[simp] theorem slotState_cfg (i : BitVec 4) (s : State) : (slotState i s).cfg = s.cfg := by simp [slotState]
@[simp] theorem slotState_busy (i : BitVec 4) (s : State) : (slotState i s).busy = s.busy := by simp [slotState]
@[simp] theorem slotState_bitidx (i : BitVec 4) (s : State) : (slotState i s).bitidx = i := by simp [slotState]
@[simp] theorem slotState_clockDrv (i : BitVec 4) (s : State) : (slotState i s).clockDrv = s.clockDrv := by
  simp [slotState]

theorem slotState_moved (i : BitVec 4) (x : Sample) (c : Nat) (t : Time) (st : List Frame) (s : State) :
    slotState i (moved x c t st s) = moved x c t st (slotState i s) := by
  rw [slotState, setBitidx_moved, driveSlot_moved, slotState]

theorem laterSlots_moved (m i : Nat) (x : Sample) (c : Nat) (t : Time) (st : List Frame) (s : State) :
    laterSlots i m (moved x c t st s) = moved x c t st (laterSlots i m s) := by
  induction m generalizing i s with
  | zero => rfl
  | succ m ih => rw [laterSlots, slotState_moved, ih, laterSlots]

@[simp] theorem laterSlots_cfg (m i : Nat) (s : State) : (laterSlots i m s).cfg = s.cfg := by
  induction m generalizing i s with
  | zero => rfl
  | succ m ih => rw [laterSlots, ih, slotState_cfg]

@[simp] theorem laterSlots_busy (m i : Nat) (s : State) : (laterSlots i m s).busy = s.busy := by
  induction m generalizing i s with
  | zero => rfl
  | succ m ih => rw [laterSlots, ih, slotState_busy]

@[simp] theorem laterSlots_clockDrv (m i : Nat) (s : State) : (laterSlots i m s).clockDrv = s.clockDrv := by
  induction m generalizing i s with
  | zero => rfl
  | succ m ih => rw [laterSlots, ih, slotState_clockDrv]

@[simp] theorem slotState_sh (i : BitVec 4) (s : State) : (slotState i s).sh = s.sh := by simp [slotState]

@[simp] theorem laterSlots_sh (m i : Nat) (s : State) : (laterSlots i m s).sh = s.sh := by
  induction m generalizing i s with
  | zero => rfl
  | succ m ih => rw [laterSlots, ih, slotState_sh]

/-- Entering a slot, as the sequencer takes it. -/
theorem conclude_enterSlot (i : BitVec 4) (x : Sample) (c : Nat) (t : Time) (st k : List Frame) (s : State) :
    ∃ v, conclude k (enterSlot i (moved x c t st s)) =
        .next (moved x c v (.transmit .slotLow :: k) (slotState i s)) ∧
      (s.cfg.timeoutPolicy = .bounded → v = x.nowUs) := by
  obtain ⟨v, hv, hv'⟩ := armPoll_moved x c t st (slotState i s)
  refine ⟨v, ?_, by simpa using hv'⟩
  rw [enterSlot, ← slotState, slotState_moved, enterPoll, goto, hv]
  rfl

/-- One ClockCycle of a slot (R134, R140). -/
theorem run_cycle {s : State} {k : List Frame} {t t' : Time} {xs : List Sample} (h : cycleSeg s.cfg t xs t')
    (hb : s.busy = true) (hs : s.stack = .transmit .slotLow :: k) (hc : s.clockDrv = .rel)
    (ht : s.cfg.timeoutPolicy = .bounded → s.t0 = t) :
    ∃ x n u, x.nowUs = t' ∧ ∀ rest, run (xs ++ rest) s =
      continueWith rest (conclude k (nextSlot (moved x n u (.transmit .slotHigh :: k) s))) := by
  obtain ⟨ys, _, t1, rfl, h1, zs, _, t2, rfl, h2, rfl, rfl⟩ := h
  obtain ⟨x1, n1, e1, _, r1⟩ := run_poll (C := level .clock) (K := enterPoll (.transmit .slotHigh)) h1 hb hs ht
    (fun x n => by simp [level_clock, hc, clockHigh]) (fun x n => rfl)
  obtain ⟨v, hv, hv'⟩ := armPoll_moved x1 n1 s.t0 s.stack s
  let s1 : State := moved x1 n1 v (.transmit .slotHigh :: k) s
  have q1 : ∀ rest, run (ys ++ rest) s = run rest s1 := fun rest => by
    rw [r1, enterPoll, goto, seenAt_eq_moved, hv]; rfl
  have h2' : pollSeg s1.cfg clockLow t1 zs t' := h2
  obtain ⟨x2, n2, e2, _, r2⟩ := run_poll (s := s1) (f := .transmit .slotHigh) (k := k)
    (C := fun s => !level .clock s) (K := nextSlot) h2' hb rfl
    (fun hp => (hv' hp).trans e1) (fun x n => by simp [s1, level_clock, hc, clockLow, seenAt_moved])
    (fun x n => rfl)
  refine ⟨x2, n2, v, e2, fun rest => ?_⟩
  rw [List.append_nil, List.append_assoc, q1, r2]
  rfl

/-- The slots from slot `i` to the last one, and the wait after the last (R140 to R143). -/
theorem run_cycles {k : List Frame} (m i : Nat) (hi : i + m = 9) {s : State} {t t' : Time} {xs : List Sample}
    (h : cyclesSeg s.cfg (m + 1) t xs t') (hb : s.busy = true) (hs : s.stack = .transmit .slotLow :: k)
    (hc : s.clockDrv = .rel) (ht : s.cfg.timeoutPolicy = .bounded → s.t0 = t)
    (hbit : s.bitidx = BitVec.ofNat 4 i) :
    ∃ x n, x.nowUs = t' ∧ ∀ rest, run (xs ++ rest) s =
      run rest (moved x n t' (.transmit .post :: k) (laterSlots i m s)) := by
  induction m generalizing i s t xs with
  | zero =>
    obtain ⟨ys, zs, t1, rfl, h1, rfl, rfl⟩ := h
    obtain ⟨x, n, u, e, r⟩ := run_cycle h1 hb hs hc ht
    obtain rfl : i = 9 := by omega
    refine ⟨x, n, e, fun rest => ?_⟩
    have hlt : ¬ ((moved x n u (.transmit .slotHigh :: k) s).bitidx < 9#4) := by simp [hbit]
    have heq : (moved x n u (.transmit .slotHigh :: k) s).bitidx = 9#4 := by simp [hbit]
    rw [List.append_nil, r, nextSlot, if_neg hlt, if_pos heq, enterWait, goto, armTimer_moved, e]
    rfl
  | succ m ih =>
    obtain ⟨ys, zs, t1, rfl, h1, h2⟩ := h
    obtain ⟨x, n, u, e, r⟩ := run_cycle h1 hb hs hc ht
    obtain ⟨v, hv, hv'⟩ := conclude_enterSlot (BitVec.ofNat 4 (i + 1)) x n u (.transmit .slotHigh :: k) k s
    let s1 : State := moved x n v (.transmit .slotLow :: k) (slotState (BitVec.ofNat 4 (i + 1)) s)
    have hlt : (moved x n u (.transmit .slotHigh :: k) s).bitidx < 9#4 := by
      simp only [moved_bitidx, hbit, BitVec.lt_def, BitVec.toNat_ofNat]; omega
    have hadd : (moved x n u (.transmit .slotHigh :: k) s).bitidx + 1#4 = BitVec.ofNat 4 (i + 1) := by
      simp only [moved_bitidx, hbit]
      rw [← BitVec.ofNat_add]
    have q1 : ∀ rest, run (ys ++ rest) s = run rest s1 := fun rest => by
      rw [r, nextSlot, if_pos hlt, hadd, hv]; rfl
    have h2' : cyclesSeg s1.cfg (m + 1) t1 zs t' := by
      have hcfg : s1.cfg = s.cfg := by simp [s1]
      rw [hcfg]; exact h2
    obtain ⟨x2, n2, e2, r2⟩ := ih (i + 1) (by omega) (s := s1) h2' (by simpa [s1] using hb) rfl
      (by simpa [s1] using hc) (fun hp => by simpa [s1] using (hv' (by simpa [s1] using hp)).trans e) (by simp [s1])
    refine ⟨x2, n2, e2, fun rest => ?_⟩
    rw [List.append_assoc, q1, r2]
    congr 1
    rw [laterSlots_moved, moved_moved, laterSlots]

theorem lastSlot_data (s : State) : (laterSlots 0 9 (slotState 0#4 s)).dataDrv = .rel := by
  simp [laterSlots, slotState, driveSlot, setBitidx, drive]

/-- What TRANSMIT_BYTE does to the state from TX.2 on, but for ports and timer. -/
def transmitEffect (s : State) : State :=
  logWire (.h2d s.sh) (drive .clock .low (laterSlots 0 9 (slotState 0#4
    (drive .clock .rel (drive .data .low (drive .clock .low s))))))

/-- Slots 1 to 10 of the well-formed frame of a byte (R90). -/
theorem goodFrame_slots (v : Byte) : slotBits (goodFrame v) 1 10 =
    [v.getLsbD 0, v.getLsbD 1, v.getLsbD 2, v.getLsbD 3, v.getLsbD 4, v.getLsbD 5, v.getLsbD 6, v.getLsbD 7,
      oddParity v, true] := by
  revert v; decide +kernel

/-- Between the request to send and the bus hold, the `Drive`s of TRANSMIT_BYTE(v) put slots 1 to 10 of the frame of `v` on Data
(R92). -/
theorem transmitDrives_frame (v : Byte) : transmitDrives v =
    [(.data, .rel), (.clock, .rel), (.clock, .low), (.data, .low), (.clock, .rel)] ++
      (slotBits (goodFrame v) 1 10).map (fun b => (Line.data, bitDrv b)) ++ [(.clock, .low)] := by
  rw [goodFrame_slots]; rfl

/-- The effect of TRANSMIT_BYTE in closed form: the bus is held, the frame of the byte was put on Data slot by slot. -/
theorem transmitEffect_eq (s : State) (hp : s.par = false) : transmitEffect s =
    { s with
      clockDrv := .low
      dataDrv := .rel
      bitidx := 9#4
      par := xorBits s.sh
      wire := .h2d s.sh :: s.wire
      drives := (transmitDrives s.sh).reverse.dropLast.dropLast ++ s.drives } := by
  simp [transmitEffect, laterSlots, slotState, driveSlot, setBitidx, driveBit, drive, accumulateParity, logWire, hp,
    transmitDrives, oddParity, xorBits, bitDrv]

/-- The request to send, from TX.1 to the grant (R137 to R139). -/
def requestEffect (s : State) : State := drive .clock .rel (drive .data .low (drive .clock .low s))

theorem run_request {s : State} {k : List Frame} {t t' : Time} {xs : List Sample}
    (h : segAll [waitSeg s.cfg.tTxSettle, waitSeg s.cfg.tTxInhibit, waitSeg s.cfg.tTxStart, pollSeg s.cfg clockHigh]
      t xs t')
    (hb : s.busy = true) (hs : s.stack = .transmit .settle :: k) (ht : s.t0 = t) :
    ∃ x n u, x.nowUs = t' ∧ (s.cfg.timeoutPolicy = .bounded → u = t') ∧ ∀ rest, run (xs ++ rest) s =
      run rest (moved x n u (.transmit .slotLow :: k) (slotState 0#4 (requestEffect s))) := by
  obtain ⟨a1, _, t1, rfl, h1, a2, _, t2, rfl, h2, a3, _, t3, rfl, h3, a4, _, t4, rfl, h4, rfl, rfl⟩ := h
  obtain ⟨x1, n1, e1, r1⟩ := run_wait (K := fun s => enterWait (.transmit .inhibit) (drive .clock .low s))
    h1 hb hs ht (fun _ _ => rfl)
  obtain ⟨x2, n2, e2, r2⟩ := run_wait (s := moved x1 n1 x1.nowUs (.transmit .inhibit :: k) (drive .clock .low s))
    (K := fun s => enterWait (.transmit .start) (drive .data .low s)) h2 hb rfl e1 (fun _ _ => rfl)
  obtain ⟨x3, n3, e3, r3⟩ := run_wait
    (s := moved x2 n2 x2.nowUs (.transmit .start :: k) (drive .data .low (drive .clock .low s)))
    (K := fun s => enterPoll (.transmit .grant) (drive .clock .rel s)) h3 hb rfl e2 (fun _ _ => rfl)
  obtain ⟨v3, w3, w3'⟩ := armPoll_moved x3 n3 x2.nowUs (.transmit .start :: k) (requestEffect s)
  obtain ⟨x4, n4, e4, _, r4⟩ := run_poll (s := moved x3 n3 v3 (.transmit .grant :: k) (requestEffect s))
    (C := level .clock) (K := enterSlot 0#4) h4 hb rfl (fun hp => (w3' hp).trans e3) (fun _ _ => rfl) (fun _ _ => rfl)
  obtain ⟨v4, w4, w4'⟩ := conclude_enterSlot 0#4 x4 n4 v3 (.transmit .grant :: k) k (requestEffect s)
  have q1 : ∀ rest, run (a1 ++ rest) s =
      run rest (moved x1 n1 x1.nowUs (.transmit .inhibit :: k) (drive .clock .low s)) := r1
  have q2 : ∀ rest, run (a2 ++ rest) (moved x1 n1 x1.nowUs (.transmit .inhibit :: k) (drive .clock .low s)) =
      run rest (moved x2 n2 x2.nowUs (.transmit .start :: k) (drive .data .low (drive .clock .low s))) := r2
  have q3 : ∀ rest, run (a3 ++ rest)
      (moved x2 n2 x2.nowUs (.transmit .start :: k) (drive .data .low (drive .clock .low s))) =
      run rest (moved x3 n3 v3 (.transmit .grant :: k) (requestEffect s)) := fun rest => by
    rw [r3, enterPoll, goto, seenAt_moved, drive_moved, ← requestEffect, w3]; rfl
  have q4 : ∀ rest, run (a4 ++ rest) (moved x3 n3 v3 (.transmit .grant :: k) (requestEffect s)) =
      run rest (moved x4 n4 v4 (.transmit .slotLow :: k) (slotState 0#4 (requestEffect s))) := fun rest => by
    rw [r4, seenAt_moved, w4]; rfl
  refine ⟨x4, n4, v4, e4, fun hp => (w4' hp).trans e4, fun rest => ?_⟩
  simp only [List.append_assoc, List.nil_append]
  rw [q1, q2, q3, q4]

/-- The acknowledge and the bus hold, TX.8 (R143). -/
theorem run_acknowledge {s : State} {k : List Frame} {t t' : Time} {xs : List Sample}
    (h : segAll [waitSeg s.cfg.tTxPost, pollSeg s.cfg notBothLow] t xs t')
    (hb : s.busy = true) (hs : s.stack = .transmit .post :: k) (ht : s.t0 = t)
    (hc : s.clockDrv = .rel) (hd : s.dataDrv = .rel) :
    ∃ x n u st, x.nowUs = t' ∧ ∀ rest, run (xs ++ rest) s =
      continueWith rest (conclude k (moved x n u st (logWire (.h2d s.sh) (drive .clock .low s)), .hold)) := by
  obtain ⟨a1, _, t1, rfl, h1, a2, _, t2, rfl, h2, rfl, rfl⟩ := h
  obtain ⟨x1, n1, e1, r1⟩ := run_wait (K := enterPoll (.transmit .ack)) h1 hb hs ht (fun _ _ => rfl)
  obtain ⟨v1, w1, w1'⟩ := armPoll_moved x1 n1 s.t0 s.stack s
  obtain ⟨x2, n2, e2, _, r2⟩ := run_poll (s := moved x1 n1 v1 (.transmit .ack :: k) s)
    (C := fun s => level .clock s || level .data s) (K := transmitDone) h2 hb rfl (fun hp => (w1' hp).trans e1)
    (fun _ _ => by simp [seenAt_moved, level_clock, level_data, hc, hd, notBothLow]) (fun _ _ => rfl)
  have q1 : ∀ rest, run (a1 ++ rest) s = run rest (moved x1 n1 v1 (.transmit .ack :: k) s) := fun rest => by
    rw [r1, enterPoll, goto, seenAt_eq_moved, w1]; rfl
  refine ⟨x2, n2, v1, .transmit .ack :: k, e2, fun rest => ?_⟩
  simp only [List.append_assoc, List.nil_append]
  rw [q1, r2, transmitDone, seenAt_moved, drive_moved, logWire_moved, moved_sh]

theorem segAll_append (as bs : List Seg) (t : Time) (xs : List Sample) (t' : Time) :
    segAll (as ++ bs) t xs t' ↔ segSeq (segAll as) (segAll bs) t xs t' := by
  induction as generalizing t xs with
  | nil =>
    constructor
    · intro h; exact ⟨[], xs, t, rfl, ⟨rfl, rfl⟩, h⟩
    · rintro ⟨_, zs, _, rfl, ⟨rfl, rfl⟩, h⟩; exact h
  | cons a as ih =>
    constructor
    · rintro ⟨ys, zs, u, rfl, h1, h2⟩
      obtain ⟨zs1, zs2, v, rfl, h3, h4⟩ := (ih _ _).1 h2
      exact ⟨ys ++ zs1, zs2, v, by rw [List.append_assoc], ⟨ys, zs1, u, rfl, h1, h3⟩, h4⟩
    · rintro ⟨_, zs2, v, rfl, ⟨ys, zs1, u, rfl, h1, h3⟩, h4⟩
      exact ⟨ys, zs1 ++ zs2, u, by rw [List.append_assoc], h1, (ih _ _).2 ⟨zs1, zs2, v, rfl, h3, h4⟩⟩

/-- TRANSMIT_BYTE runs to its end against a device that meets its contract (R136 to R145, R290). -/
theorem run_transmit {s : State} {k : List Frame} {t t' : Time} {xs : List Sample}
    (h : transmitSeg s.cfg t xs t') (hb : s.busy = true) (hs : s.stack = .transmit .settle :: k) (ht : s.t0 = t) :
    ∃ x n u st, x.nowUs = t' ∧ ∀ rest, run (xs ++ rest) s =
      continueWith rest (conclude k (moved x n u st (transmitEffect s), .hold)) := by
  obtain ⟨a1, _, t1, rfl, h1, a2, a3, t2, rfl, h2, h3⟩ := (segAll_append [_, _, _, _] [_, _, _] _ _ _).1 h
  obtain ⟨x1, n1, u1, e1, p1, q1⟩ := run_request h1 hb hs ht
  obtain ⟨x2, n2, e2, q2⟩ := run_cycles 9 0 rfl
    (s := moved x1 n1 u1 (.transmit .slotLow :: k) (slotState 0#4 (requestEffect s))) (k := k)
    (by rw [moved_cfg, slotState_cfg]; exact h2) (by rw [moved_busy, slotState_busy]; exact hb) rfl
    (by rw [moved_clockDrv, slotState_clockDrv]; rfl)
    (fun hp => p1 (by rw [moved_cfg, slotState_cfg] at hp; exact hp)) (by rw [moved_bitidx, slotState_bitidx])
  rw [laterSlots_moved] at q2
  simp only [moved_moved] at q2
  obtain ⟨x3, n3, u3, st3, e3, q3⟩ := run_acknowledge
    (s := moved x2 n2 t2 (.transmit .post :: k) (laterSlots 0 9 (slotState 0#4 (requestEffect s)))) (k := k)
    (by rw [moved_cfg, laterSlots_cfg, slotState_cfg]; exact h3)
    (by rw [moved_busy, laterSlots_busy, slotState_busy]; exact hb) rfl rfl
    (by rw [moved_clockDrv, laterSlots_clockDrv, slotState_clockDrv]; rfl)
    (by rw [moved_dataDrv]; exact lastSlot_data _)
  refine ⟨x3, n3, u3, st3, e3, fun rest => ?_⟩
  rw [List.append_assoc, List.append_assoc, q1, q2, q3, drive_moved, logWire_moved, moved_moved, moved_sh,
    laterSlots_sh, slotState_sh]
  rfl

end Sys2Proof.Machine
end

