-- ==== Sys2Proof/Laws/Receive.lean ====
section
/-! SUPPORT. What READ_BIT and RECEIVE_BYTE do against a device that meets its contract (R146 to R153). -/

namespace Sys2Proof.Machine

/-- `samp` holding `b`. -/
def withSamp (b : Bool) (s : State) : State := { s with samp := b }

/-- What reading these bits does, from the slot `bitidx` names on (R149, R150). -/
def readBits (bs : List Bool) (s : State) : State :=
  match bs with
  | [] => s
  | [b] => withSamp b s
  | b :: b' :: bs => readBits (b' :: bs) (setBitidx (s.bitidx + 1#4) (storeSample (withSamp b s)))

section moved
variable (x : Sample) (c : Nat) (t : Time) (st : List Frame) (s : State)

theorem withSamp_moved (b : Bool) : withSamp b (moved x c t st s) = moved x c t st (withSamp b s) := rfl

theorem storeSample_moved : storeSample (moved x c t st s) = moved x c t st (storeSample s) := by
  by_cases h : s.bitidx < 8#4 <;> simp [storeSample, h, moved]

theorem returnByte_moved : returnByte (moved x c t st s) = moved x c t st (returnByte s) := rfl

theorem readBits_moved (bs : List Bool) : readBits bs (moved x c t st s) = moved x c t st (readBits bs s) := by
  induction bs generalizing s with
  | nil => rfl
  | cons b bs ih =>
    cases bs with
    | nil => rfl
    | cons b' bs => rw [readBits, withSamp_moved, storeSample_moved, moved_bitidx, setBitidx_moved, ih, readBits]

end moved

@[simp] theorem withSamp_clockDrv (b : Bool) (s : State) : (withSamp b s).clockDrv = s.clockDrv := rfl
@[simp] theorem withSamp_dataDrv (b : Bool) (s : State) : (withSamp b s).dataDrv = s.dataDrv := rfl
@[simp] theorem withSamp_bitidx (b : Bool) (s : State) : (withSamp b s).bitidx = s.bitidx := rfl
@[simp] theorem withSamp_busy (b : Bool) (s : State) : (withSamp b s).busy = s.busy := rfl
@[simp] theorem withSamp_cfg (b : Bool) (s : State) : (withSamp b s).cfg = s.cfg := rfl

/-- READ_BIT runs to its return, with the bit the device showed in `samp` (R153). -/
theorem run_bit {s : State} {k : List Frame} {b : Bool} {t t' : Time} {xs : List Sample}
    (h : bitSeg s.cfg b t xs t') (hb : s.busy = true) (hs : s.stack = .readBit .waitLow :: k)
    (hc : s.clockDrv = .rel) (hd : s.dataDrv = .rel) (ht : s.cfg.timeoutPolicy = .bounded → s.t0 = t) :
    ∃ x n u st, x.nowUs = t' ∧ ∀ rest, run (xs ++ rest) s =
      continueWith rest (resume k (moved x n u st (withSamp b s))) := by
  obtain ⟨a1, _, t1, rfl, h1, a2, _, t2, rfl, ⟨x2, rfl, hx2, hd2, rfl⟩, a3, _, t3, rfl, h3, rfl, rfl⟩ := h
  obtain ⟨x1, n1, e1, _, r1⟩ := run_poll (C := level .clock) (K := goto (.readBit .sample)) h1 hb hs ht
    (fun x n => by simp [level_clock, hc, clockHigh]) (fun x n => rfl)
  have q1 : ∀ rest, run (a1 ++ rest) s = run rest (moved x1 n1 s.t0 (.readBit .sample :: k) s) := r1
  obtain ⟨n2, r2⟩ := run_hold (ys := []) (s := moved x1 n1 s.t0 (.readBit .sample :: k) s)
    (K := frameStep (.readBit .sample)) hb rfl (by simp) hx2 (fun _ => rfl)
  obtain ⟨v2, w2, w2'⟩ := armPoll_moved x2 n2 s.t0 (.readBit .sample :: k) (withSamp b s)
  have q2 : ∀ rest, run (x2 :: rest) (moved x1 n1 s.t0 (.readBit .sample :: k) s) =
      run rest (moved x2 n2 v2 (.readBit .waitHigh :: k) (withSamp b s)) := fun rest => by
    have hsamp : takeSample (moved x2 n2 s.t0 (.readBit .sample :: k) s) =
        moved x2 n2 s.t0 (.readBit .sample :: k) (withSamp b s) := by
      rw [takeSample, level_data (by exact hd)]
      simp only [moved_pins, hd2]; rfl
    have r2' := r2 rest
    simp only [List.nil_append, List.singleton_append] at r2'
    rw [r2', frameStep, readBitStep, seenAt_moved, hsamp, enterPoll, goto, w2]
    rfl
  obtain ⟨x3, n3, e3, _, r3⟩ := run_poll (s := moved x2 n2 v2 (.readBit .waitHigh :: k) (withSamp b s))
    (f := .readBit .waitHigh) (k := k) (C := fun s => !level .clock s) (K := fun s => (s, .ret)) h3 hb rfl
    (fun hp => w2' hp) (fun x n => by simp [seenAt_moved, level_clock, hc, clockLow]) (fun x n => rfl)
  refine ⟨x3, n3, v2, .readBit .waitHigh :: k, e3, fun rest => ?_⟩
  simp only [List.append_assoc, List.append_nil, List.cons_append, List.nil_append]
  rw [q1, q2, r3]
  rfl

/-- The slots from slot `i` to slot 9, and the end of the byte (R149 to R151). -/
theorem run_bits {k : List Frame} (bs : List Bool) (b : Bool) (i : Nat) (hi : i + bs.length = 9) {s : State} {t t' : Time}
    {xs : List Sample} (h : bitsSeg s.cfg (b :: bs) t xs t') (hb : s.busy = true)
    (hs : s.stack = .readBit .waitLow :: .receive .bit :: k) (hc : s.clockDrv = .rel) (hd : s.dataDrv = .rel)
    (ht : s.cfg.timeoutPolicy = .bounded → s.t0 = t) (hbit : s.bitidx = BitVec.ofNat 4 i) :
    ∃ x n u st, x.nowUs = t' ∧ ∀ rest, run (xs ++ rest) s =
      continueWith rest (conclude k (receiveDone (moved x n u st (readBits (b :: bs) s)))) := by
  induction bs generalizing b i s t xs with
  | nil =>
    obtain ⟨ys, zs, t1, rfl, h1, rfl, rfl⟩ := h
    obtain ⟨x, n, u, st, e, r⟩ := run_bit h1 hb hs hc hd ht
    obtain rfl : i = 9 := by simpa using hi
    refine ⟨x, n, u, st, e, fun rest => ?_⟩
    have hlt : ¬ ((moved x n u st (withSamp b s)).bitidx < 9#4) := by simp [hbit]
    have heq : (moved x n u st (withSamp b s)).bitidx = 9#4 := by simp [hbit]
    rw [List.append_nil, r, resume_cons, frameStep, receiveStep, slotRead, if_neg hlt, if_pos heq]
    rfl
  | cons b' bs ih =>
    obtain ⟨ys, zs, t1, rfl, h1, h2⟩ := h
    obtain ⟨x, n, u, st, e, r⟩ := run_bit h1 hb hs hc hd ht
    have hi' : i + 1 + bs.length = 9 := by simp only [List.length_cons] at hi; omega
    let s0 : State := setBitidx (BitVec.ofNat 4 (i + 1)) (storeSample (withSamp b s))
    obtain ⟨v, w, w'⟩ := armPoll_moved x n u st s0
    let s1 : State := moved x n v (.readBit .waitLow :: .receive .bit :: k) s0
    have hlt : (moved x n u st (withSamp b s)).bitidx < 9#4 := by
      simp only [moved_bitidx, withSamp_bitidx, hbit, BitVec.lt_def, BitVec.toNat_ofNat]; omega
    have hadd : (moved x n u st (withSamp b s)).bitidx + 1#4 = BitVec.ofNat 4 (i + 1) := by
      simp only [moved_bitidx, withSamp_bitidx, hbit]
      rw [← BitVec.ofNat_add]
    have q1 : ∀ rest, run (ys ++ rest) s = run rest s1 := fun rest => by
      rw [r, resume_cons, frameStep, receiveStep, slotRead, if_pos hlt, hadd, storeSample_moved, readSlot,
        setBitidx_moved, callThen, readBitStart, enterPoll, goto, w]
      rfl
    have h2' : bitsSeg s1.cfg (b' :: bs) t1 zs t' := by
      have hcfg : s1.cfg = s.cfg := by simp [s1, s0]
      rw [hcfg]; exact h2
    obtain ⟨x2, n2, u2, st2, e2, r2⟩ := ih b' (i + 1) hi' (s := s1) h2' (by simpa [s1, s0] using hb) rfl
      (by simpa [s1, s0] using hc) (by simpa [s1, s0] using hd)
      (fun hp => by
        have hp' : s0.cfg.timeoutPolicy = .bounded := hp
        exact (w' hp').trans e) (by simp [s1, s0])
    refine ⟨x2, n2, u2, st2, e2, fun rest => ?_⟩
    rw [List.append_assoc, q1, r2]
    congr 3
    rw [readBits_moved, moved_moved, readBits, hbit, ← BitVec.ofNat_add]

/-- What reading ten bits and returning the byte does (R149 to R151). -/
def receiveEffect (bs : List Bool) (s : State) : State :=
  let s := readBits bs (setBitidx 0#4 s)
  logWire (.d2h s.sh) (returnByte (drive .clock .low s))

/-- The byte of eight bits, the first its least significant (R99). -/
def byteOfBits (b0 b1 b2 b3 b4 b5 b6 b7 : Bool) : Byte :=
  BitVec.ofBool b7 ++ (BitVec.ofBool b6 ++ (BitVec.ofBool b5 ++ (BitVec.ofBool b4 ++ (BitVec.ofBool b3 ++
    (BitVec.ofBool b2 ++ (BitVec.ofBool b1 ++ BitVec.ofBool b0))))))

/-- The effect of ten READ_BITs in closed form: the first eight bits are the byte, the last two are written nowhere. -/
theorem receiveEffect_eq (b0 b1 b2 b3 b4 b5 b6 b7 b8 b9 : Bool) (s : State) (h0 : s.sh = 0#8) :
    receiveEffect [b0, b1, b2, b3, b4, b5, b6, b7, b8, b9] s =
      { s with
        clockDrv := .low
        bitidx := 9#4
        samp := b9
        sh := byteOfBits b0 b1 b2 b3 b4 b5 b6 b7
        tResult := byteOfBits b0 b1 b2 b3 b4 b5 b6 b7
        wire := .d2h (byteOfBits b0 b1 b2 b3 b4 b5 b6 b7) :: s.wire
        drives := (.clock, .low) :: s.drives } := by
  have hsh : writeBit (writeBit (writeBit (writeBit (writeBit (writeBit (writeBit (writeBit 0#8 0 b0) 1 b1) 2 b2) 3 b3)
      4 b4) 5 b5) 6 b6) 7 b7 = byteOfBits b0 b1 b2 b3 b4 b5 b6 b7 := by
    revert b0 b1 b2 b3 b4 b5 b6 b7; decide +kernel
  simp [receiveEffect, readBits, storeSample, setBitidx, withSamp, logWire, returnByte, drive, h0, hsh]

/-- RX.1 to RX.3 by the seen-low exit of RX.2: the start slot is consumed, slot 1 comes next (R146 to R148). -/
theorem run_toSlots {s : State} {k : List Frame} {t t' : Time} {xs : List Sample}
    (h : segAll [waitSeg s.cfg.tRxSettle, softSeenSeg s.cfg, waitSeg s.cfg.tRxSkew, pollSeg s.cfg clockLow] t xs t' ∨
      segAll [waitSeg s.cfg.tRxSettle, softExpiredSeg s.cfg, waitSeg s.cfg.tRxSkew, highSeg] t xs t')
    (hb : s.busy = true) (hs : s.stack = .receive .settle :: k) (ht : s.t0 = t) (hc : s.clockDrv = .rel) :
    ∃ x n u, x.nowUs = t' ∧ (s.cfg.timeoutPolicy = .bounded → u = t') ∧ ∀ rest, run (xs ++ rest) s =
      run rest (moved x n u (.readBit .waitLow :: .receive .bit :: k) (setBitidx 0#4 s)) := by
  have hsoft : ∃ t1 t2 a1 a2 a3 a4, xs = a1 ++ (a2 ++ (a3 ++ a4)) ∧ waitSeg s.cfg.tRxSettle t a1 t1 ∧
      (∃ ys x, a2 = ys ++ [x] ∧ (∀ y ∈ ys, y.rst = false ∧ y.devClock = true ∧ y.nowUs - t1 < s.cfg.tRxSoft) ∧
        x.rst = false ∧ (x.devClock && decide (x.nowUs - t1 < s.cfg.tRxSoft)) = false ∧ t2 = x.nowUs) ∧
      ∃ t3, waitSeg s.cfg.tRxSkew t2 a3 t3 ∧ pollSeg s.cfg clockLow t3 a4 t' := by
    rcases h with h | h
    · obtain ⟨a1, _, t1, rfl, h1, a2, _, t2, rfl, ⟨ys, x, e, hys, hx, hlow, ht2⟩, a3, _, t3, rfl, h3, a4, _, t4, rfl, h4,
        rfl, rfl⟩ := h
      exact ⟨t1, t2, a1, a2, a3, a4, by simp, h1, ⟨ys, x, e, hys, hx, by simp [hlow], ht2⟩, t3, h3, h4⟩
    · obtain ⟨a1, _, t1, rfl, h1, a2, _, t2, rfl, ⟨ys, x, e, hys, hx, hhigh, hlate, ht2⟩, a3, _, t3, rfl, h3, a4, _, t4,
        rfl, ⟨x4, rfl, hx4, hc4, rfl⟩, rfl, rfl⟩ := h
      exact ⟨t1, t2, a1, a2, a3, [x4], by simp, h1, ⟨ys, x, e, hys, hx, by simp [hlate], ht2⟩, t3, h3,
        ⟨[], x4, rfl, by simp, hx4, by simp [clockLow, hc4], rfl⟩⟩
  obtain ⟨t1, t2, a1, a2, a3, a4, rfl, h1, ⟨ys, x, rfl, hys, hx, hexit, rfl⟩, t3, h3, h4⟩ := hsoft
  obtain ⟨x1, n1, e1, r1⟩ := run_wait (K := enterWait (.receive .soft)) h1 hb hs ht (fun _ _ => rfl)
  have q1 : ∀ rest, run (a1 ++ rest) s = run rest (moved x1 n1 x1.nowUs (.receive .soft :: k) s) := r1
  obtain ⟨n2, r2⟩ := run_hold (s := moved x1 n1 x1.nowUs (.receive .soft :: k) s) (f := .receive .soft) (k := k)
    (ys := ys) (x := x) (K := enterWait (.receive .skew)) hb rfl
    (fun y hy => ⟨(hys y hy).1, fun c => by
      rw [frameStep, receiveStep, seenAt_moved, level_clock (by exact hc), if_pos (by
        simp [elapsed, now, (hys y hy).2.1, e1, (hys y hy).2.2]), goto]⟩) hx
    (fun c => by
      rw [frameStep, receiveStep, seenAt_moved, level_clock (by exact hc), if_neg (by
        simpa [elapsed, now, e1] using hexit)])
  have q2 : ∀ rest, run (ys ++ [x] ++ rest) (moved x1 n1 x1.nowUs (.receive .soft :: k) s) =
      run rest (moved x n2 x.nowUs (.receive .skew :: k) s) := r2
  obtain ⟨x3, n3, e3, r3⟩ := run_wait (s := moved x n2 x.nowUs (.receive .skew :: k) s)
    (K := enterPoll (.receive .eat)) h3 hb rfl rfl (fun _ _ => rfl)
  obtain ⟨v3, w3, w3'⟩ := armPoll_moved x3 n3 x.nowUs (.receive .skew :: k) s
  have q3 : ∀ rest, run (a3 ++ rest) (moved x n2 x.nowUs (.receive .skew :: k) s) =
      run rest (moved x3 n3 v3 (.receive .eat :: k) s) := fun rest => by
    rw [r3, enterPoll, goto, seenAt_moved, w3]; rfl
  obtain ⟨x4, n4, e4, _, r4⟩ := run_poll (s := moved x3 n3 v3 (.receive .eat :: k) s)
    (C := fun s => !level .clock s) (K := readSlot 0#4) h4 hb rfl (fun hp => (w3' hp).trans e3)
    (fun _ _ => by simp [seenAt_moved, level_clock, hc, clockLow]) (fun _ _ => rfl)
  obtain ⟨v4, w4, w4'⟩ := armPoll_moved x4 n4 v3 (.receive .eat :: k) (setBitidx 0#4 s)
  refine ⟨x4, n4, v4, e4, fun hp => (w4' hp).trans e4, fun rest => ?_⟩
  have q4 : run (a4 ++ rest) (moved x3 n3 v3 (.receive .eat :: k) s) =
      run rest (moved x4 n4 v4 (.readBit .waitLow :: .receive .bit :: k) (setBitidx 0#4 s)) := by
    rw [r4, readSlot, seenAt_moved, setBitidx_moved, callThen, readBitStart, enterPoll, goto, w4]
    rfl
  have e0 : a1 ++ (ys ++ [x] ++ (a3 ++ a4)) ++ rest = a1 ++ (ys ++ [x] ++ (a3 ++ (a4 ++ rest))) := by simp
  rw [e0, q1, q2, q3, q4]

/-- RX.1 to RX.6 with ten READ_BITs that read `bs`. -/
theorem run_slots {s : State} {k : List Frame} {t t' : Time} {xs : List Sample} {b : Bool} {bs : List Bool}
    (h : segSeq (fun t xs t' =>
        segAll [waitSeg s.cfg.tRxSettle, softSeenSeg s.cfg, waitSeg s.cfg.tRxSkew, pollSeg s.cfg clockLow] t xs t' ∨
        segAll [waitSeg s.cfg.tRxSettle, softExpiredSeg s.cfg, waitSeg s.cfg.tRxSkew, highSeg] t xs t')
      (bitsSeg s.cfg (b :: bs)) t xs t') (hl : bs.length = 9)
    (hb : s.busy = true) (hs : s.stack = .receive .settle :: k) (ht : s.t0 = t) (hc : s.clockDrv = .rel)
    (hd : s.dataDrv = .rel) :
    ∃ x n u st, x.nowUs = t' ∧ ∀ rest, run (xs ++ rest) s =
      continueWith rest (conclude k (moved x n u st (receiveEffect (b :: bs) s), .hold)) := by
  obtain ⟨ys, zs, t1, rfl, h1, h2⟩ := h
  obtain ⟨x1, n1, u1, e1, p1, q1⟩ := run_toSlots h1 hb hs ht hc
  obtain ⟨x2, n2, u2, st2, e2, q2⟩ := run_bits bs b 0 (by omega)
    (s := moved x1 n1 u1 (.readBit .waitLow :: .receive .bit :: k) (setBitidx 0#4 s)) (k := k) h2 hb rfl hc hd
    (fun hp => p1 hp) rfl
  refine ⟨x2, n2, u2, st2, e2, fun rest => ?_⟩
  rw [List.append_assoc, q1, q2, receiveDone, readBits_moved, moved_moved, moved_sh, drive_moved, returnByte_moved,
    logWire_moved, receiveEffect]

/-- RECEIVE_BYTE runs to its end on the seen-low path: it reads slots 1 to 10 (R152). -/
theorem run_receive {s : State} {k : List Frame} {t t' : Time} {xs : List Sample} {slots : BitVec 11}
    (h : receiveSeg s.cfg slots t xs t') (hb : s.busy = true) (hs : s.stack = .receive .settle :: k) (ht : s.t0 = t)
    (hc : s.clockDrv = .rel) (hd : s.dataDrv = .rel) :
    ∃ x n u st, x.nowUs = t' ∧ ∀ rest, run (xs ++ rest) s =
      continueWith rest (conclude k (moved x n u st (receiveEffect (slotBits slots 1 10) s), .hold)) := by
  obtain ⟨ys, zs, t1, rfl, h1, zs', _, t2, rfl, h2, rfl, rfl⟩ := (segAll_append [_, _, _, _] [_] _ _ _).1 h
  rw [List.append_nil]
  exact run_slots ⟨ys, zs', t1, rfl, .inl h1, h2⟩ rfl hb hs ht hc hd

/-- RECEIVE_BYTE runs to its end on the timed-out path: it reads slots 0 to 9 (R152, R243). -/
theorem run_receiveLate {s : State} {k : List Frame} {t t' : Time} {xs : List Sample} {slots : BitVec 11}
    (h : receiveLateSeg s.cfg slots t xs t') (hb : s.busy = true) (hs : s.stack = .receive .settle :: k) (ht : s.t0 = t)
    (hc : s.clockDrv = .rel) (hd : s.dataDrv = .rel) :
    ∃ x n u st, x.nowUs = t' ∧ ∀ rest, run (xs ++ rest) s =
      continueWith rest (conclude k (moved x n u st (receiveEffect (slotBits slots 0 10) s), .hold)) := by
  obtain ⟨ys, zs, t1, rfl, h1, zs', _, t2, rfl, h2, rfl, rfl⟩ := (segAll_append [_, _, _, _] [_] _ _ _).1 h
  rw [List.append_nil]
  exact run_slots ⟨ys, zs', t1, rfl, .inr h1, h2⟩ rfl hb hs ht hc hd

end Sys2Proof.Machine
end

