-- ==== Sys2Proof/Laws/Exchange.lean ====
section
/-! SUPPORT. A byte exchange as an operation sees it: `call TRANSMIT_BYTE` and `call RECEIVE_BYTE` against a device that meets
its contract, up to the edge at which the caller goes on (R190, R290). -/

namespace Sys2Proof.Machine

/-- `s` after the exchanges `es`, at some position. -/
def reached (es : List WireEvent) (c : Scratch) (st : List Frame) (s : State) : State :=
  { exchanged es c s with stack := st }

section reached
variable (es fs : List WireEvent) (c d : Scratch) (st st' : List Frame) (s : State)

@[simp] theorem reached_busy : (reached es c st s).busy = s.busy := rfl
@[simp] theorem reached_cfg : (reached es c st s).cfg = s.cfg := rfl
@[simp] theorem reached_mode : (reached es c st s).mode = s.mode := rfl
@[simp] theorem reached_initialized : (reached es c st s).initialized = s.initialized := rfl
@[simp] theorem reached_reportingEnabled : (reached es c st s).reportingEnabled = s.reportingEnabled := rfl
@[simp] theorem reached_resumeLatch : (reached es c st s).resumeLatch = s.resumeLatch := rfl
@[simp] theorem reached_arg : (reached es c st s).arg = s.arg := rfl
@[simp] theorem reached_opCode : (reached es c st s).opCode = s.opCode := rfl
@[simp] theorem reached_status : (reached es c st s).status = s.status := rfl
@[simp] theorem reached_bat : (reached es c st s).bat = s.bat := rfl
@[simp] theorem reached_tResult : (reached es c st s).tResult = c.tResult := rfl
@[simp] theorem reached_pins : (reached es c st s).pins = c.pins := rfl

theorem reached_reached : reached fs d st' (reached es c st s) = reached (es ++ fs) d st' s := by
  simp [reached, exchanged, State.withScratch, List.flatMap_append]

end reached

/-- `call Op`: the callee runs above the frame at which the caller waits. -/
theorem conclude_callThen {f : Frame} {k : List Frame} {callee K : State → Ran} {s : State}
    (hK : ∀ s, conclude k (K s) = conclude k (frameStep f s)) :
    conclude k (callThen callee f K s) = conclude (f :: k) (callee s) := by
  unfold callThen
  rcases callee s with ⟨s', fs | _ | _ | _ | _⟩
  · simp
  · simp [resume_cons, hK]
  · simp
  · simp
  · simp

/-- After an exchange it is the time of its last edge. -/
theorem now_reached {es : List WireEvent} {c : Scratch} {st : List Frame} {s : State} {u : Time} (h : c.pins.nowUs = u) :
    now (reached es c st s) = u := h

theorem conclude_callTransmit (v : Byte) (f : Frame) (k : List Frame) (s : State) :
    conclude k (callTransmit v f s) = conclude (f :: k) (transmitStart v s) := rfl

theorem conclude_callReceive (f : Frame) (k : List Frame) (s : State) :
    conclude k (callReceive f s) = conclude (f :: k) (receiveStart s) := rfl

/-- TRANSMIT_BYTE from its call to its end. -/
theorem transmit_ends {s : State} {k : List Frame} {t' : Time} {xs : List Sample} {v : Byte}
    (h : transmitSeg s.cfg (now s) xs t') (hb : s.busy = true) :
    ∃ x n u st, x.nowUs = t' ∧ ∀ rest, continueWith (xs ++ rest) (conclude k (transmitStart v s)) =
      continueWith rest (conclude k
        (reached [.h2d v] ⟨v, xorBits v, 9#4, s.samp, u, s.tResult, x, n⟩ st s, .hold)) := by
  let s1 : State :=
    { armTimer (drive .clock .rel (drive .data .rel (loadByte v s))) with stack := .transmit .settle :: k }
  obtain ⟨x, n, u, st, e, r⟩ := run_transmit (s := s1) (k := k) h hb rfl rfl
  refine ⟨x, n, u, st, e, fun rest => ?_⟩
  have h1 : continueWith (xs ++ rest) (conclude k (transmitStart v s)) = run (xs ++ rest) s1 := rfl
  rw [h1, r]
  have h2 : moved x n u st (transmitEffect s1) =
      reached [.h2d v] ⟨v, xorBits v, 9#4, s.samp, u, s.tResult, x, n⟩ st s := by
    rw [transmitEffect_eq s1 rfl]
    have hd : (transmitDrives v).reverse.dropLast.dropLast ++ s1.drives = (transmitDrives v).reverse ++ s.drives := by
      simp [transmitDrives, s1, drive, loadByte, armTimer]
    simp only [moved, reached, exchanged, State.withScratch, List.flatMap_cons, List.flatMap_nil, List.append_nil,
      eventDrives, ← hd]
    rfl
  rw [h2]

theorem slotBits_first (slots : BitVec 11) : slotBits slots 1 10 =
    [slots.getLsbD 1, slots.getLsbD 2, slots.getLsbD 3, slots.getLsbD 4, slots.getLsbD 5, slots.getLsbD 6,
      slots.getLsbD 7, slots.getLsbD 8, slots.getLsbD 9, slots.getLsbD 10] := rfl

theorem slotBits_zero (slots : BitVec 11) : slotBits slots 0 10 =
    [slots.getLsbD 0, slots.getLsbD 1, slots.getLsbD 2, slots.getLsbD 3, slots.getLsbD 4, slots.getLsbD 5,
      slots.getLsbD 6, slots.getLsbD 7, slots.getLsbD 8, slots.getLsbD 9] := rfl

theorem byteOfBits_frame (slots : BitVec 11) :
    byteOfBits (slots.getLsbD 1) (slots.getLsbD 2) (slots.getLsbD 3) (slots.getLsbD 4) (slots.getLsbD 5)
      (slots.getLsbD 6) (slots.getLsbD 7) (slots.getLsbD 8) = frameByte slots := by
  revert slots; decide +kernel

theorem byteOfBits_late (slots : BitVec 11) :
    byteOfBits (slots.getLsbD 0) (slots.getLsbD 1) (slots.getLsbD 2) (slots.getLsbD 3) (slots.getLsbD 4)
      (slots.getLsbD 5) (slots.getLsbD 6) (slots.getLsbD 7) = lateByte slots := by
  revert slots; decide +kernel

/-- RECEIVE_BYTE from its call to its end, by the seen-low path or by the timed-out path (R152). -/
theorem receive_ends {s : State} {k : List Frame} {t' : Time} {xs : List Sample} {slots : BitVec 11} {v : Byte} {b : Bool}
    (h : receiveSeg s.cfg slots (now s) xs t' ∧ v = frameByte slots ∧ b = slots.getLsbD 10 ∨
      receiveLateSeg s.cfg slots (now s) xs t' ∧ v = lateByte slots ∧ b = slots.getLsbD 9)
    (hb : s.busy = true) :
    ∃ x n u st, x.nowUs = t' ∧ ∀ rest, continueWith (xs ++ rest) (conclude k (receiveStart s)) =
      continueWith rest (conclude k (reached [.d2h v] ⟨v, s.par, 9#4, b, u, v, x, n⟩ st s, .hold)) := by
  let s1 : State :=
    { armTimer (drive .data .rel (drive .clock .rel (clearByte s))) with stack := .receive .settle :: k }
  have h1 : ∀ rest, continueWith (xs ++ rest) (conclude k (receiveStart s)) = run (xs ++ rest) s1 := fun _ => rfl
  have h0 : s1.sh = 0#8 := rfl
  rcases h with ⟨h, rfl, rfl⟩ | ⟨h, rfl, rfl⟩
  · obtain ⟨x, n, u, st, e, r⟩ := run_receive (s := s1) (k := k) h hb rfl rfl rfl rfl
    refine ⟨x, n, u, st, e, fun rest => ?_⟩
    rw [h1, r, slotBits_first, receiveEffect_eq _ _ _ _ _ _ _ _ _ _ _ h0, byteOfBits_frame]
    rfl
  · obtain ⟨x, n, u, st, e, r⟩ := run_receiveLate (s := s1) (k := k) h hb rfl rfl rfl rfl
    refine ⟨x, n, u, st, e, fun rest => ?_⟩
    rw [h1, r, slotBits_zero, receiveEffect_eq _ _ _ _ _ _ _ _ _ _ _ h0, byteOfBits_late]
    rfl

/-- After a byte exchange the caller goes on at the next edge (R160). -/
theorem goes_on {es : List WireEvent} {c : Scratch} {st : List Frame} {f : Frame} {k : List Frame} {t t' : Time}
    {xs : List Sample} {s : State} (h : edgeSeg t xs t') (hb : s.busy = true) :
    ∃ d st', d.pins.nowUs = t' ∧ d.tResult = c.tResult ∧ ∀ rest,
      continueWith (xs ++ rest) (conclude (f :: k) (reached es c st s, .hold)) =
        continueWith rest (conclude k (frameStep f (reached es d st' s))) := by
  obtain ⟨x, n, e, r⟩ := run_edge (s := reached es c (f :: k) s) h hb rfl
  refine ⟨{ c with pins := x, clk := n }, f :: k, e, rfl, fun rest => ?_⟩
  have h1 : continueWith (xs ++ rest) (conclude (f :: k) (reached es c st s, .hold)) =
      run (xs ++ rest) (reached es c (f :: k) s) := rfl
  rw [h1, r]
  rfl

/-- What the HOST calls for an exchange. -/
def eventStart (e : WireEvent) (s : State) : Ran :=
  match e with
  | .h2d v => transmitStart v s
  | .d2h _ => receiveStart s

/-- One exchange called by an operation that waits at `f`: it goes on at `f` with the exchange done, and a byte received in
`tResult`. -/
theorem exchange_runs {s : State} {f : Frame} {k : List Frame} {t' : Time} {xs : List Sample} (e : WireEvent)
    (h : segSeq (eventSeg s.cfg e) edgeSeg (now s) xs t') (hb : s.busy = true) :
    ∃ c st, c.pins.nowUs = t' ∧ (∀ v, e = .d2h v → c.tResult = v) ∧ ∀ rest,
      continueWith (xs ++ rest) (conclude (f :: k) (eventStart e s)) =
        continueWith rest (conclude k (frameStep f (reached [e] c st s))) := by
  obtain ⟨ys, zs, t1, rfl, h1, h2⟩ := h
  cases e with
  | h2d v =>
    obtain ⟨x, n, u, st, _, r⟩ := transmit_ends (k := f :: k) (v := v) h1 hb
    obtain ⟨d, st', e2, _, r2⟩ := goes_on (es := [.h2d v]) (c := ⟨v, xorBits v, 9#4, s.samp, u, s.tResult, x, n⟩)
      (st := st) (f := f) (k := k) h2 hb
    refine ⟨d, st', e2, by simp, fun rest => ?_⟩
    rw [List.append_assoc, eventStart, r, r2]
  | d2h v =>
    obtain ⟨slots, h1⟩ := h1
    obtain ⟨b, h1⟩ : ∃ b, receiveSeg s.cfg slots (now s) ys t1 ∧ v = frameByte slots ∧ b = slots.getLsbD 10 ∨
        receiveLateSeg s.cfg slots (now s) ys t1 ∧ v = lateByte slots ∧ b = slots.getLsbD 9 := by
      rcases h1 with ⟨hv, h1⟩ | ⟨hv, h1⟩
      · exact ⟨_, .inl ⟨h1, hv.symm, rfl⟩⟩
      · exact ⟨_, .inr ⟨h1, hv.symm, rfl⟩⟩
    obtain ⟨x, n, u, st, _, r⟩ := receive_ends (k := f :: k) h1 hb
    obtain ⟨d, st', e2, p2, r2⟩ := goes_on (es := [.d2h v]) (c := ⟨v, s.par, 9#4, b, u, v, x, n⟩)
      (st := st) (f := f) (k := k) h2 hb
    refine ⟨d, st', e2, by rintro _ ⟨⟩; exact p2, fun rest => ?_⟩
    rw [List.append_assoc, eventStart, r, r2]

/-- The operation that called nothing more returns to nobody: it ends with the samples that are left. -/
theorem op_returns (s : State) (rest : List Sample) :
    continueWith rest (conclude [] (s, .ret)) = .next { opEnd s with inputs := rest } :=
  run_idle (s := opEnd s) rfl rest

/-- The outermost operation has returned: the op ends with the samples that are left. -/
theorem op_finishes (s : State) (rest : List Sample) :
    continueWith rest (resume [] s) = .next { opEnd s with inputs := rest } :=
  run_idle (s := opEnd s) rfl rest

theorem op_holds (s : State) (rest : List Sample) :
    continueWith rest (conclude [] (s, .hold)) = .next { opEnd s with inputs := rest } :=
  run_idle (s := opEnd s) rfl rest

/-- The HOST that has accepted an operation. -/
def accepted (code : Option (BitVec 4)) (s : State) : State := { s with busy := true, opCode := code }

/-- Starting an operation on an idle HOST. -/
theorem start_idle {code : Option (BitVec 4)} {op : State → Ran} {s : State} {xs : List Sample} (h : s.busy = false)
    (hx : s.inputs = xs) (hi : (op (accepted code s)).1.inputs = s.inputs) :
    start code op s = continueWith xs (conclude [] (op (accepted code s))) := by
  unfold start
  rw [if_neg (by simp [h]), ← hx, ← accepted]
  generalize op (accepted code s) = r at hi
  obtain ⟨s', fs | _ | _ | _ | _⟩ := r
  · have hi : s'.inputs = s.inputs := hi
    simp [hi]
  · have hi : s'.inputs = s.inputs := hi
    rw [op_returns, ← hi]; rfl
  · have hi : s'.inputs = s.inputs := hi
    rw [op_holds, ← hi]; rfl
  · have hi : s'.inputs = s.inputs := hi
    rw [conclude_timeout, continueWith_next, run_idle rfl, ← hi]; rfl
  · rfl

/-- A busy HOST accepts no operation (R105). -/
theorem start_busy {code : Option (BitVec 4)} {op : State → Ran} {s : State} (h : s.busy = true) :
    start code op s = .next s := by simp [start, h]

theorem callThen_inputs {callee K : State → Ran} {f : Frame} {s : State} (h : (callee s).1.inputs = s.inputs)
    (hK : ∀ s', (K s').1.inputs = s'.inputs) : (callThen callee f K s).1.inputs = s.inputs := by
  unfold callThen
  generalize callee s = r at h
  obtain ⟨s', fs | _ | _ | _ | _⟩ := r <;> first | exact h | exact (hK s').trans h

/-- Byte exchanges split off the first one. -/
theorem talkSeg_cons {p : Params} {e : WireEvent} {es : List WireEvent} {t t' : Time} {xs : List Sample}
    (h : talkSeg p (e :: es) t xs t') :
    ∃ ys zs u, xs = ys ++ zs ∧ segSeq (eventSeg p e) edgeSeg t ys u ∧ talkSeg p es u zs t' := h

theorem talkSeg_nil {p : Params} {t t' : Time} {xs : List Sample} (h : talkSeg p [] t xs t') : xs = [] ∧ t' = t := h

theorem talkSeg_append {p : Params} {es fs : List WireEvent} {t t' : Time} {xs : List Sample} :
    talkSeg p (es ++ fs) t xs t' ↔ segSeq (talkSeg p es) (talkSeg p fs) t xs t' := by
  unfold talkSeg
  rw [List.map_append, segAll_append]

/-- `call TRANSMIT_BYTE(v); call RECEIVE_BYTE()` at two positions of one operation: it goes on at the second with both
exchanges done (R190). -/
theorem command_runs {s : State} {f g : Frame} {k : List Frame} {t' : Time} {xs : List Sample} {v a : Byte}
    (h : talkSeg s.cfg [.h2d v, .d2h a] (now s) xs t') (hb : s.busy = true)
    (hf : ∀ s, frameStep f s = callReceive g s) :
    ∃ c st, c.pins.nowUs = t' ∧ c.tResult = a ∧ ∀ rest,
      continueWith (xs ++ rest) (conclude (f :: k) (transmitStart v s)) =
        continueWith rest (conclude k (frameStep g (reached [.h2d v, .d2h a] c st s))) := by
  obtain ⟨x1, _, u1, rfl, h1, h2⟩ := talkSeg_cons h
  obtain ⟨x2, _, u2, rfl, h2, h3⟩ := talkSeg_cons h2
  obtain ⟨rfl, rfl⟩ := talkSeg_nil h3
  obtain ⟨c1, st1, e1, _, r1⟩ := exchange_runs (f := f) (k := k) _ h1 hb
  have hn : now (reached [.h2d v] c1 st1 s) = u1 := e1
  obtain ⟨c2, st2, e2, p2, r2⟩ := exchange_runs (s := reached [.h2d v] c1 st1 s) (f := g) (k := k) (.d2h a)
    (by rw [hn]; exact h2) hb
  refine ⟨c2, st2, e2, p2 _ rfl, fun rest => ?_⟩
  rw [List.append_nil, List.append_assoc]
  have r1' := r1 (x2 ++ rest)
  have r2' := r2 rest
  simp only [eventStart] at r1' r2'
  rw [r1', hf, conclude_callReceive, r2', reached_reached]
  rfl

end Sys2Proof.Machine
end

