-- ==== Sys2Proof/Laws/Helpers.lean ====
section
/-! SUPPORT. What the operations that other operations call do: ENABLE_DATA_REPORTING, DISABLE_DATA_REPORTING and
CMD_TOGGLED, above any caller (R191, R199, R200). -/

namespace Sys2Proof.Machine

theorem guardG_eq (s : State) : guardG s = toggles s := by
  unfold guardG toggles
  cases s.cfg.toggleGuard <;> cases s.mode <;> cases s.reportingEnabled <;> rfl

theorem reached_setReporting (es : List WireEvent) (c : Scratch) (st : List Frame) (b : Bool) (s : State) :
    reached es c st (setReporting b s) = setReporting b (reached es c st s) := rfl

theorem reached_setMode (es : List WireEvent) (c : Scratch) (st : List Frame) (m : Mode) (s : State) :
    reached es c st (setMode m s) = setMode m (reached es c st s) := rfl

theorem setReporting_setReporting (b b' : Bool) (s : State) :
    setReporting b (setReporting b' s) = setReporting b s := rfl

theorem setReporting_same {b : Bool} {s : State} (h : s.reportingEnabled = b) : setReporting b s = s := by
  subst h; rfl

/-- With the guard latched. -/
theorem latchGuard_eq (s : State) : latchGuard s = { s with resumeLatch := toggles s } := by
  rw [latchGuard, guardG_eq]

section inputs
variable (s : State)

theorem enableStart_inputs : (enableStart s).1.inputs = s.inputs := by
  unfold enableStart; split <;> rfl

theorem disableStart_inputs : (disableStart s).1.inputs = s.inputs := by
  unfold disableStart; split <;> rfl

theorem toggledStart_inputs (c : Byte) : (toggledStart c s).1.inputs = s.inputs := by
  unfold toggledStart
  simp only
  split
  · exact (callThen_inputs (disableStart_inputs _) (fun _ => rfl)).trans rfl
  · rfl

theorem finishMode_inputs (m : Mode) (f : Frame) : (finishMode m f s).1.inputs = s.inputs := by
  unfold finishMode; simp only; split <;> rfl

theorem setRemoteModeStart_inputs : (setRemoteModeStart s).1.inputs = s.inputs :=
  callThen_inputs (toggledStart_inputs s _) (fun _ => finishMode_inputs _ _ _)

theorem setStreamModeStart_inputs : (setStreamModeStart s).1.inputs = s.inputs :=
  callThen_inputs (toggledStart_inputs s _) (fun _ => finishMode_inputs _ _ _)

theorem setScaling21Start_inputs : (setScaling21Start s).1.inputs = s.inputs :=
  callThen_inputs (toggledStart_inputs s _) (fun _ => rfl)

theorem setScaling11Start_inputs : (setScaling11Start s).1.inputs = s.inputs :=
  callThen_inputs (toggledStart_inputs s _) (fun _ => rfl)

theorem setResolutionStart_inputs (r : Byte) : (setResolutionStart r s).1.inputs = s.inputs := by
  unfold setResolutionStart
  simp only
  split
  · exact (callThen_inputs (enableStart_inputs _) (fun _ => rfl)).trans rfl
  · rfl

theorem setSampleRateStart_inputs (n : Byte) : (setSampleRateStart n s).1.inputs = s.inputs := by
  unfold setSampleRateStart
  simp only
  split
  · exact (callThen_inputs (disableStart_inputs _) (fun _ => rfl)).trans rfl
  · rfl

theorem reportStart_inputs : (reportStart s).1.inputs = s.inputs := by
  unfold reportStart; cases s.mode <;> rfl

end inputs

/-- The timer and ports of a state, as the registers of a byte exchange. -/
def scratchOf (s : State) : Scratch := ⟨s.sh, s.par, s.bitidx, s.samp, s.t0, s.tResult, s.pins, s.clk⟩

/-- No exchange at all leaves the state, where the bus is held already. -/
theorem reached_nil {s : State} (hc : s.clockDrv = .low) (hd : s.dataDrv = .rel) :
    reached [] (scratchOf s) s.stack s = s := by
  cases s; simp_all [reached, exchanged, State.withScratch, scratchOf]

/-- DISABLE_DATA_REPORTING where reporting is enabled, above any caller (R200). -/
theorem disable_runs {s : State} {k : List Frame} {t' : Time} {xs : List Sample} {a : Byte}
    (h : talkSeg s.cfg (command 0xF5#8 a) (now s) xs t') (hb : s.busy = true) (hr : s.reportingEnabled = true) :
    ∃ c st, c.pins.nowUs = t' ∧ ∀ rest, continueWith (xs ++ rest) (conclude k (disableStart s)) =
      continueWith rest (resume k (setReporting false (reached (command 0xF5#8 a) c st s))) := by
  obtain ⟨c, st, e, _, r⟩ := command_runs (f := .disableReporting .afterByte) (g := .disableReporting .afterAck)
    (k := k) h hb (fun _ => rfl)
  refine ⟨c, st, e, fun rest => ?_⟩
  rw [disableStart, if_pos hr, conclude_callTransmit, r]
  rfl

/-- ENABLE_DATA_REPORTING where reporting is disabled, above any caller (R199). -/
theorem enable_runs {s : State} {k : List Frame} {t' : Time} {xs : List Sample} {a : Byte}
    (h : talkSeg s.cfg (command 0xF4#8 a) (now s) xs t') (hb : s.busy = true) (hr : s.reportingEnabled = false) :
    ∃ c st, c.pins.nowUs = t' ∧ ∀ rest, continueWith (xs ++ rest) (conclude k (enableStart s)) =
      continueWith rest (resume k (setReporting true (reached (command 0xF4#8 a) c st s))) := by
  obtain ⟨c, st, e, _, r⟩ := command_runs (f := .enableReporting .afterByte) (g := .enableReporting .afterAck)
    (k := k) h hb (fun _ => rfl)
  refine ⟨c, st, e, fun rest => ?_⟩
  rw [enableStart, if_neg (by simp [hr]), conclude_callTransmit, r]
  rfl

/-- H.3 and H.4 of CMD_TOGGLED, with the guard latched (R191). -/
theorem toggledCommand_runs {s : State} {k : List Frame} {t' : Time} {xs : List Sample} {c a a1 : Byte} {g : Bool}
    (h : talkSeg s.cfg (command c a ++ if g then command 0xF4#8 a1 else []) (now s) xs t') (hb : s.busy = true)
    (hg : s.resumeLatch = g) (hr : g = true → s.reportingEnabled = false) :
    ∃ d st, d.pins.nowUs = t' ∧ ∀ rest, continueWith (xs ++ rest) (conclude k (toggledCommand c s)) =
      continueWith rest (resume k (setReporting (g || s.reportingEnabled)
        (reached (command c a ++ if g then command 0xF4#8 a1 else []) d st s))) := by
  obtain ⟨ys, zs, u, rfl, h1, h2⟩ := talkSeg_append.1 h
  obtain ⟨d1, st1, e1, _, r1⟩ := command_runs (f := .toggled c .afterCommand) (g := .toggled c .afterAck) (k := k) h1 hb
    (fun _ => rfl)
  cases g with
  | false =>
    obtain ⟨rfl, rfl⟩ := talkSeg_nil h2
    refine ⟨d1, st1, e1, fun rest => ?_⟩
    rw [List.append_nil, toggledCommand, conclude_callTransmit, r1, frameStep, toggledStep]
    simp only [reached_resumeLatch, hg, Bool.false_eq_true, if_false, return', conclude_ret, Bool.false_or,
      List.append_nil]
    rfl
  | true =>
    let s1 : State := reached (command c a) d1 st1 s
    obtain ⟨d2, st2, e2, r2⟩ := enable_runs (s := s1) (k := .toggled c .afterResume :: k)
      (show talkSeg s1.cfg _ (now s1) zs t' by rw [show now s1 = u from e1]; exact h2) hb (hr rfl)
    refine ⟨d2, st2, e2, fun rest => ?_⟩
    rw [List.append_assoc, toggledCommand, conclude_callTransmit, r1, frameStep, toggledStep]
    simp only [reached_resumeLatch, hg, if_true, Bool.true_or]
    rw [conclude_callThen (K := return') (fun _ => rfl)]
    have r2' := r2 rest
    rw [show s1 = reached [.h2d c, .d2h a] d1 st1 s from rfl] at r2'
    rw [r2', resume_cons, reached_reached]
    rfl

/-- CMD_TOGGLED(c) above any caller (R191). -/
theorem toggled_runs {s : State} {k : List Frame} {t' : Time} {xs : List Sample} {c a0 a a1 : Byte}
    (h : talkSeg s.cfg (toggledTalk s c a0 a a1) (now s) xs t') (hb : s.busy = true) :
    ∃ d st, d.pins.nowUs = t' ∧ ∀ rest, continueWith (xs ++ rest) (conclude k (toggledStart c s)) =
      continueWith rest (resume k (setReporting (toggles s || s.reportingEnabled)
        (reached (toggledTalk s c a0 a a1) d st (latchGuard s)))) := by
  let s1 := latchGuard s
  have hl : s1.resumeLatch = toggles s := guardG_eq s
  unfold toggledTalk suspension resumption at h ⊢
  by_cases hg : toggles s = true
  · by_cases hr : s.reportingEnabled = true
    · simp only [hg, hr, Bool.and_self, if_true] at h ⊢
      obtain ⟨ys, zs, u, rfl, h1, h2⟩ := talkSeg_append.1 h
      obtain ⟨d1, st1, e1, r1⟩ := disable_runs (s := s1) (k := .toggled c .afterSuspend :: k) h1 hb hr
      let s2 : State := setReporting false (reached (command 0xF5#8 a0) d1 st1 s1)
      obtain ⟨d2, st2, e2, r2⟩ := toggledCommand_runs (s := s2) (k := k) (g := true) (c := c) (a := a) (a1 := a1)
        (show talkSeg s2.cfg _ (now s2) zs t' by rw [show now s2 = u from e1, if_pos rfl]; exact h2) hb
        (hl.trans hg) (fun _ => rfl)
      refine ⟨d2, st2, e2, fun rest => ?_⟩
      have h3 : conclude k (toggledStart c s) = conclude (.toggled c .afterSuspend :: k) (disableStart s1) := by
        rw [← conclude_callThen (K := toggledCommand c) (fun _ => rfl), toggledStart]
        simp only [hl, hg, s1, if_true]
      have r2' := r2 rest
      have h4 : resume (.toggled c .afterSuspend :: k) s2 = conclude k (toggledCommand c s2) := rfl
      rw [h3, List.append_assoc, r1, h4, r2', show s2 = setReporting false (reached (command 0xF5#8 a0) d1 st1 s1) from rfl,
        reached_setReporting, setReporting_setReporting, reached_reached]
      simp only [if_true]
      rfl
    · have hr : s.reportingEnabled = false := by simpa using hr
      simp only [hg, hr, Bool.and_false, if_true, Bool.false_eq_true, if_false, List.nil_append, Bool.or_false] at h ⊢
      obtain ⟨d2, st2, e2, r2⟩ := toggledCommand_runs (s := s1) (k := k) (g := true) (c := c) (a := a) (a1 := a1)
        (by rw [if_pos rfl]; exact h) hb (hl.trans hg) (fun _ => hr)
      refine ⟨d2, st2, e2, fun rest => ?_⟩
      have h3 : conclude k (toggledStart c s) = conclude k (toggledCommand c s1) := by
        have h4 : disableStart s1 = (s1, .ret) := by
          rw [disableStart, if_neg (by simp [s1, latchGuard, hr])]; rfl
        rw [toggledStart]
        simp only [← hl, s1] at hg ⊢
        rw [if_pos hg, callThen, h4]
      rw [h3, r2]
      simp only [if_true, Bool.true_or]
      rfl
  · have hg : toggles s = false := by simpa using hg
    simp only [hg, Bool.false_and, Bool.false_eq_true, if_false, List.nil_append, Bool.false_or, List.append_nil] at h ⊢
    obtain ⟨d2, st2, e2, r2⟩ := toggledCommand_runs (s := s1) (k := k) (g := false) (c := c) (a := a) (a1 := a1)
      (by rw [if_neg (by simp), List.append_nil]; exact h) hb (hl.trans hg) (by simp)
    refine ⟨d2, st2, e2, fun rest => ?_⟩
    have h3 : conclude k (toggledStart c s) = conclude k (toggledCommand c s1) := by
      rw [toggledStart, if_neg (by rw [hl, hg]; simp)]
    rw [h3, r2]
    simp only [Bool.false_eq_true, if_false, List.append_nil, Bool.false_or]
    rfl

/-- The end of SET_REMOTE_MODE and SET_STREAM_MODE, above any caller: the mode is written, then the settle wait if
initialized (R192 to R194). -/
theorem finishMode_runs {s : State} {k : List Frame} {t t' : Time} {xs : List Sample} {m : Mode} {f : Frame}
    (h : settleSeg s t xs t') (ht : now s = t) (hb : s.busy = true)
    (hf : ∀ s, frameStep f s = waitThen s.cfg.tModeSettle f return' s) :
    ∃ c st, c.pins.nowUs = t' ∧ ∀ rest, continueWith (xs ++ rest) (conclude k (finishMode m f s)) =
      continueWith rest (resume k { (setMode m s).withScratch c with stack := st }) := by
  subst ht
  unfold settleSeg at h
  cases hin : s.initialized with
  | false =>
    simp only [hin] at h
    obtain ⟨rfl, rfl⟩ := h
    refine ⟨scratchOf s, s.stack, rfl, fun rest => ?_⟩
    have h1 : finishMode m f s = (setMode m s, .ret) := by
      simp only [finishMode, setMode, hin]; rfl
    rw [h1]; rfl
  | true =>
    simp only [hin] at h
    obtain ⟨ys, _, u, rfl, h1, rfl, rfl⟩ := h
    obtain ⟨x, n, e, r⟩ := run_wait (s := { armTimer (setMode m s) with stack := f :: k }) (f := f) (k := k)
      (K := return') h1 hb rfl rfl (fun _ _ => by rw [hf]; rfl)
    refine ⟨{ scratchOf s with t0 := now s, pins := x, clk := n }, f :: k, e, fun rest => ?_⟩
    have h2 : conclude k (finishMode m f s) = .next { armTimer (setMode m s) with stack := f :: k } := by
      simp only [finishMode, setMode, hin]; rfl
    rw [h2, List.append_nil, continueWith_next, r]
    rfl

/-- The three bytes of a movement report, read and decoded, as the outermost operation's last steps (R97, R220). -/
theorem reportRead_runs {s : State} {t' : Time} {xs : List Sample} {b0 b1 b2 : Byte}
    (h : talkSeg s.cfg [.d2h b0, .d2h b1, .d2h b2] (now s) xs t') (hb : s.busy = true) :
    ∃ c st, c.pins.nowUs = t' ∧ ∀ rest, continueWith (xs ++ rest) (conclude [] (reportRead s)) =
      continueWith rest (resume [] { reached [.d2h b0, .d2h b1, .d2h b2] c st s with
        status := b0
        mag := b2
        dx := sext9to16 (b0.getLsbD 4) b1
        dy := sext9to16 (b0.getLsbD 5) b2 }) := by
  obtain ⟨a0, _, u0, rfl, h0, g0⟩ := talkSeg_cons h
  obtain ⟨a1, _, u1, rfl, h1, g1⟩ := talkSeg_cons g0
  obtain ⟨a2, _, u2, rfl, h2, g2⟩ := talkSeg_cons g1
  obtain ⟨rfl, rfl⟩ := talkSeg_nil g2
  obtain ⟨k0, st0, e0, p0, r0⟩ := exchange_runs (s := s) (f := .report .afterStatus) (k := []) (.d2h b0) h0 hb
  let s0 := keepStatus (reached [.d2h b0] k0 st0 s)
  obtain ⟨k1, st1, e1, p1, r1⟩ := exchange_runs (s := s0) (f := .decode .x) (k := [.report .afterX]) (.d2h b1)
    (show segSeq _ _ (now s0) _ _ by rw [show now s0 = u0 from e0]; exact h1) hb
  let s1 := keepMovement .x (reached [.d2h b1] k1 st1 s0)
  obtain ⟨k2, st2, e2, p2, r2⟩ := exchange_runs (s := s1) (f := .decode .y) (k := [.report .afterY]) (.d2h b2)
    (show segSeq _ _ (now s1) _ _ by rw [show now s1 = u1 from e1]; exact h2) hb
  refine ⟨k2, st2, e2, fun rest => ?_⟩
  have q0 := r0 (a1 ++ (a2 ++ rest))
  have q1 := r1 (a2 ++ rest)
  have q2 := r2 rest
  simp only [eventStart] at q0 q1 q2
  have hx : conclude [] (frameStep (.report .afterStatus) (reached [.d2h b0] k0 st0 s)) =
      conclude [.decode .x, .report .afterX] (receiveStart s0) := by
    exact conclude_callThen (f := .report .afterX) (callee := decodeStart .x) (K := reportY) (fun _ => rfl)
  have hy : conclude [.report .afterX] (frameStep (.decode .x) (reached [.d2h b1] k1 st1 s0)) =
      conclude [.decode .y, .report .afterY] (receiveStart s1) := by
    exact conclude_callThen (f := .report .afterY) (callee := decodeStart .y) (K := return') (fun _ => rfl)
  have e : a0 ++ (a1 ++ (a2 ++ [])) ++ rest = a0 ++ (a1 ++ (a2 ++ rest)) := by simp
  rw [e, reportRead, conclude_callReceive, q0, hx, q1, hy, q2]
  obtain rfl := p0 _ rfl
  obtain rfl := p1 _ rfl
  obtain rfl := p2 _ rfl
  show continueWith rest (resume [] (keepMovement .y (reached _ k2 st2 s1))) = _
  congr 2

end Sys2Proof.Machine
end

