-- ==== Sys2Proof/Laws/Device.lean ====
section
/-! SUPPORT. Samples that meet the device's contract: the reference shape of a device-to-host frame (log entry 8), and one of a
host-to-device exchange, so that the premises of the completion claims are met by runs that exist. -/

namespace Sys2Proof.Machine

/-- One sample lifts a `Wait` of legal length (R132). -/
theorem waitSeg_lift {n t : Time} {x : Sample} (hn : n < 0x80000000#32) (hr : x.rst = false) (hx : x.nowUs = lift t n) :
    waitSeg n t [x] (lift t n) := by
  refine ⟨[], x, rfl, by simp, hr, ?_, hx.symm⟩
  rw [hx, lift]
  bv_omega

/-- One sample that shows the awaited level ends a `WaitWhile` (R133). -/
theorem pollSeg_once {p : Params} {c : Sample → Bool} {t : Time} {x : Sample} (hr : x.rst = false) (hc : c x = false) :
    pollSeg p c t [x] x.nowUs := ⟨[], x, rfl, by simp, hr, hc, rfl⟩

/-- Segments in a row. -/
theorem segAll_cons {a : Seg} {as : List Seg} {t u t' : Time} {xs ys : List Sample} (h : a t xs u)
    (hs : segAll as u ys t') : segAll (a :: as) t (xs ++ ys) t' := ⟨xs, ys, u, rfl, h, hs⟩

theorem segAll_nil {t : Time} : segAll [] t [] t := ⟨rfl, rfl⟩

theorem bitSeg_pulse {p : Params} {t u : Time} {b : Bool} : bitSeg p b u (pulse t b) t := by
  have h : dataSeg b t [linesAt t false b] t := ⟨_, rfl, rfl, rfl, rfl⟩
  exact segAll_cons (pollSeg_once (x := linesAt t false b) rfl rfl) (segAll_cons h
    (segAll_cons (pollSeg_once (x := linesAt t true b) rfl rfl) segAll_nil))

theorem bitsSeg_pulses {p : Params} (t : Time) (bs : List Bool) : bitsSeg p bs t (bs.flatMap (pulse t)) t := by
  induction bs with
  | nil => exact segAll_nil
  | cons b bs ih => exact segAll_cons bitSeg_pulse ih

/-- The reference shape of a device-to-host frame meets the contract of RECEIVE_BYTE on the seen-low path. -/
theorem deviceFrame_meets {p : Params} (h : p.Legal) (t : Time) (slots : BitVec 11) :
    receiveSeg p slots t (deviceFrame p t slots) (deviceFrameEnd p t) := by
  have h1 := waitSeg_lift (t := t) (x := linesAt (lift t p.tRxSettle) true true) h.2.2.2.2.1 rfl rfl
  have h2 : softSeenSeg p (lift t p.tRxSettle) [linesAt (lift t p.tRxSettle) false (slots.getLsbD 0)]
      (lift t p.tRxSettle) := ⟨[], _, rfl, by simp, rfl, rfl, rfl⟩
  have h3 := waitSeg_lift (t := lift t p.tRxSettle) (x := linesAt (deviceFrameEnd p t) false (slots.getLsbD 0))
    h.2.2.2.2.2.1 rfl rfl
  have h4 := pollSeg_once (p := p) (c := clockLow) (t := deviceFrameEnd p t)
    (x := linesAt (deviceFrameEnd p t) true (slots.getLsbD 0)) rfl rfl
  have h5 : bitsSeg p (slotBits slots 1 10) (deviceFrameEnd p t) (pulses (deviceFrameEnd p t) slots)
      (deviceFrameEnd p t) := by
    have h := bitsSeg_pulses (p := p) (deviceFrameEnd p t) (slotBits slots 1 10)
    simpa [slotBits_first, pulses] using h
  have h6 := segAll_cons h1 (segAll_cons h2 (segAll_cons h3 (segAll_cons h4 (segAll_cons h5 segAll_nil))))
  rw [List.append_nil] at h6
  exact h6

theorem frameByte_goodFrame (v : Byte) : frameByte (goodFrame v) = v := by
  revert v; decide +kernel

/-- A device byte in the reference shape is one exchange and the edge after it. -/
theorem deviceByte_meets {p : Params} (h : p.Legal) (t : Time) (v : Byte) :
    segSeq (eventSeg p (.d2h v)) edgeSeg t (deviceByte p t v) (deviceFrameEnd p t) :=
  ⟨deviceFrame p t (goodFrame v), betweenBytes (deviceFrameEnd p t), deviceFrameEnd p t, rfl,
    ⟨goodFrame v, .inl ⟨frameByte_goodFrame v, deviceFrame_meets h t _⟩⟩, ⟨_, rfl, rfl, rfl⟩⟩

/-- The reference shape of a movement report is three exchanges. -/
theorem deviceReport_meets {p : Params} (h : p.Legal) (t : Time) (status x y : Byte) :
    talkSeg p [.d2h status, .d2h x, .d2h y] t (deviceReport p t status x y)
      (deviceFrameEnd p (deviceFrameEnd p (deviceFrameEnd p t))) := by
  have h1 := segAll_cons (deviceByte_meets h t status) (segAll_cons (deviceByte_meets h (deviceFrameEnd p t) x)
    (segAll_cons (deviceByte_meets h (deviceFrameEnd p (deviceFrameEnd p t)) y) segAll_nil))
  simpa [deviceReport, talkSeg] using h1

/-- The samples in which the device takes one byte: it grants, clocks ten pulses and acknowledges (R290). -/
def deviceTakes (p : Params) (t : Time) : List Sample :=
  let t1 := lift t p.tTxSettle
  let t2 := lift t1 p.tTxInhibit
  let t3 := lift t2 p.tTxStart
  let t4 := lift t3 p.tTxPost
  [linesAt t1 true true, linesAt t2 true true, linesAt t3 true true, linesAt t3 false true] ++
  (List.replicate 10 [linesAt t3 false true, linesAt t3 true true]).flatten ++
  [linesAt t4 false false, linesAt t4 false false]

/-- The time at which `deviceTakes` ends. -/
def deviceTakesEnd (p : Params) (t : Time) : Time :=
  lift (lift (lift (lift t p.tTxSettle) p.tTxInhibit) p.tTxStart) p.tTxPost

theorem cycleSeg_once {p : Params} {t u : Time} : cycleSeg p u [linesAt t false true, linesAt t true true] t :=
  segAll_cons (pollSeg_once (x := linesAt t false true) rfl rfl)
    (segAll_cons (pollSeg_once (x := linesAt t true true) rfl rfl) segAll_nil)

theorem cyclesSeg_meets {p : Params} (t : Time) (n : Nat) :
    cyclesSeg p n t (List.replicate n [linesAt t false true, linesAt t true true]).flatten t := by
  induction n with
  | zero => exact segAll_nil
  | succ n ih => exact segAll_cons cycleSeg_once ih

/-- `deviceTakes` meets the contract of TRANSMIT_BYTE. -/
theorem deviceTakes_meets {p : Params} (h : p.Legal) (t : Time) :
    transmitSeg p t (deviceTakes p t) (deviceTakesEnd p t) := by
  let t1 := lift t p.tTxSettle
  let t2 := lift t1 p.tTxInhibit
  let t3 := lift t2 p.tTxStart
  have h1 := waitSeg_lift (t := t) (x := linesAt t1 true true) h.1 rfl rfl
  have h2 := waitSeg_lift (t := t1) (x := linesAt t2 true true) h.2.1 rfl rfl
  have h3 := waitSeg_lift (t := t2) (x := linesAt t3 true true) h.2.2.1 rfl rfl
  have h4 := pollSeg_once (p := p) (c := clockHigh) (t := t3) (x := linesAt t3 false true) rfl rfl
  have h5 := cyclesSeg_meets (p := p) t3 10
  have h6 := waitSeg_lift (t := t3) (x := linesAt (deviceTakesEnd p t) false false) h.2.2.2.1 rfl rfl
  have h7 : pollSeg p notBothLow (deviceTakesEnd p t) [linesAt (deviceTakesEnd p t) false false]
      (deviceTakesEnd p t) := pollSeg_once (x := linesAt (deviceTakesEnd p t) false false) rfl rfl
  have h8 := segAll_cons h1 (segAll_cons h2 (segAll_cons h3 (segAll_cons h4 (segAll_cons h5 (segAll_cons h6
    (segAll_cons h7 segAll_nil))))))
  simpa [transmitSeg, deviceTakes, t1, t2, t3, deviceTakesEnd] using h8

/-- The samples of one exchange and the edge after it. -/
def eventSamples (p : Params) (e : WireEvent) (t : Time) : List Sample :=
  match e with
  | .h2d _ => deviceTakes p t ++ betweenBytes (deviceTakesEnd p t)
  | .d2h v => deviceByte p t v

/-- The time at which `eventSamples` ends. -/
def eventEnd (p : Params) (e : WireEvent) (t : Time) : Time :=
  match e with
  | .h2d _ => deviceTakesEnd p t
  | .d2h _ => deviceFrameEnd p t

theorem eventSamples_meets {p : Params} (h : p.Legal) (e : WireEvent) (t : Time) :
    segSeq (eventSeg p e) edgeSeg t (eventSamples p e t) (eventEnd p e t) := by
  cases e with
  | h2d v => exact ⟨deviceTakes p t, betweenBytes (deviceTakesEnd p t), deviceTakesEnd p t, rfl, deviceTakes_meets h t,
      _, rfl, rfl, rfl⟩
  | d2h v => exact deviceByte_meets h t v

/-- The samples of exchanges in order. -/
def talkSamples (p : Params) (es : List WireEvent) (t : Time) : List Sample :=
  match es with
  | [] => []
  | e :: es => eventSamples p e t ++ talkSamples p es (eventEnd p e t)

/-- The time at which `talkSamples` ends. -/
def talkEnd (p : Params) (es : List WireEvent) (t : Time) : Time :=
  match es with
  | [] => t
  | e :: es => talkEnd p es (eventEnd p e t)

/-- Every list of exchanges can take place. -/
theorem talkSamples_meets {p : Params} (h : p.Legal) (es : List WireEvent) (t : Time) :
    talkSeg p es t (talkSamples p es t) (talkEnd p es t) := by
  induction es generalizing t with
  | nil => exact segAll_nil
  | cons e es ih => exact segAll_cons (eventSamples_meets h e t) (ih _)

/-- The samples in which the device sends these eleven slots after the soft window (R152, R243). -/
def lateFrame (p : Params) (t : Time) (slots : BitVec 11) : List Sample :=
  let t1 := lift t p.tRxSettle
  let t2 := t1 + p.tRxSoft
  let t3 := lift t2 p.tRxSkew
  [linesAt t1 true true] ++ ([linesAt t2 true true] ++ ([linesAt t3 true true] ++ ([linesAt t3 true true] ++
    ((slotBits slots 0 10).flatMap (pulse t3) ++ []))))

/-- `lateFrame` meets the contract of RECEIVE_BYTE on the timed-out path. -/
theorem lateFrame_meets {p : Params} (h : p.Legal) (t : Time) (slots : BitVec 11) :
    receiveLateSeg p slots t (lateFrame p t slots) (lift (lift t p.tRxSettle + p.tRxSoft) p.tRxSkew) := by
  have h1 := waitSeg_lift (t := t) (x := linesAt (lift t p.tRxSettle) true true) h.2.2.2.2.1 rfl rfl
  have h2 : softExpiredSeg p (lift t p.tRxSettle) [linesAt (lift t p.tRxSettle + p.tRxSoft) true true]
      (lift t p.tRxSettle + p.tRxSoft) := by
    refine ⟨[], _, rfl, by simp, rfl, rfl, ?_, rfl⟩
    show ¬ (lift t p.tRxSettle + p.tRxSoft - lift t p.tRxSettle < p.tRxSoft)
    bv_omega
  have h3 := waitSeg_lift (t := lift t p.tRxSettle + p.tRxSoft)
    (x := linesAt (lift (lift t p.tRxSettle + p.tRxSoft) p.tRxSkew) true true) h.2.2.2.2.2.1 rfl rfl
  have h4 : highSeg (lift (lift t p.tRxSettle + p.tRxSoft) p.tRxSkew)
      [linesAt (lift (lift t p.tRxSettle + p.tRxSoft) p.tRxSkew) true true]
      (lift (lift t p.tRxSettle + p.tRxSoft) p.tRxSkew) := ⟨_, rfl, rfl, rfl, rfl⟩
  exact segAll_cons h1 (segAll_cons h2 (segAll_cons h3 (segAll_cons h4 (segAll_cons
    (bitsSeg_pulses (p := p) _ (slotBits slots 0 10)) segAll_nil))))

end Sys2Proof.Machine
end

