-- ==== Sys2Proof/Laws/PerInstr.lean ====
section
/-! SUPPORT. Per-instruction laws. EncodeFits: the encoder sets no bit that the operation's port does not have. -/

namespace Sys2Proof.Laws

/-- A word of `n` bits carried in 24 has no bit from `m` on, for `n` at most `m`. -/
theorem shift_setWidth {n : Nat} (v : BitVec n) (m : Nat) (h : n ≤ m) : (v.setWidth 24) >>> m = 0#24 := by
  apply BitVec.eq_of_getLsbD_eq
  intro i _
  simp [BitVec.getLsbD_ushiftRight, BitVec.getLsbD_of_ge v (m + i) (by omega)]

/-- The bits a port has; `tReq2` counts the operand `t_byte` in the byte after the select code. -/
def portBits (p : Port) : Nat :=
  match p with
  | .op12 => 12
  | .wireCmd8 => 16
  | .respBat8 => 8
  | .respAck8 => 8
  | .respId8 => 8
  | .frameH2D11 => 11
  | .frameD2H11 => 11
  | .report24 => 24
  | .tReq2 => 16
  | .tState5 => 5
  | .decSel1 => 1
  | .cmd8 => 8
  | .toggled8 => 8

/-- No bit is set that the port does not have. -/
def EncodeFits.Statement (i : Instr) : Prop := (encode i).bits >>> portBits (encode i).port = 0#24

theorem EncodeFits.initializeLink (a : Byte) : EncodeFits.Statement (.initializeLink a) := shift_setWidth _ 12 (by decide)
theorem EncodeFits.setRemoteMode (a : Byte) : EncodeFits.Statement (.setRemoteMode a) := shift_setWidth _ 12 (by decide)
theorem EncodeFits.setStreamMode (a : Byte) : EncodeFits.Statement (.setStreamMode a) := shift_setWidth _ 12 (by decide)
theorem EncodeFits.setScaling21 (a : Byte) : EncodeFits.Statement (.setScaling21 a) := shift_setWidth _ 12 (by decide)
theorem EncodeFits.setScaling11 (a : Byte) : EncodeFits.Statement (.setScaling11 a) := shift_setWidth _ 12 (by decide)
theorem EncodeFits.setResolution (a : Byte) : EncodeFits.Statement (.setResolution a) := shift_setWidth _ 12 (by decide)
theorem EncodeFits.setSampleRate (a : Byte) : EncodeFits.Statement (.setSampleRate a) := shift_setWidth _ 12 (by decide)
theorem EncodeFits.enableDataReporting (a : Byte) : EncodeFits.Statement (.enableDataReporting a) := shift_setWidth _ 12 (by decide)
theorem EncodeFits.disableDataReporting (a : Byte) : EncodeFits.Statement (.disableDataReporting a) := shift_setWidth _ 12 (by decide)
theorem EncodeFits.report (a : Byte) : EncodeFits.Statement (.report a) := shift_setWidth _ 12 (by decide)
theorem EncodeFits.reservedA (a : Byte) : EncodeFits.Statement (.reservedA a) := shift_setWidth _ 12 (by decide)
theorem EncodeFits.reservedB (a : Byte) : EncodeFits.Statement (.reservedB a) := shift_setWidth _ 12 (by decide)
theorem EncodeFits.reservedC (a : Byte) : EncodeFits.Statement (.reservedC a) := shift_setWidth _ 12 (by decide)
theorem EncodeFits.reservedD (a : Byte) : EncodeFits.Statement (.reservedD a) := shift_setWidth _ 12 (by decide)
theorem EncodeFits.reservedE (a : Byte) : EncodeFits.Statement (.reservedE a) := shift_setWidth _ 12 (by decide)
theorem EncodeFits.reservedF (a : Byte) : EncodeFits.Statement (.reservedF a) := shift_setWidth _ 12 (by decide)
theorem EncodeFits.wireReset : EncodeFits.Statement .wireReset := shift_setWidth _ 16 (by decide)
theorem EncodeFits.wireSetRemoteMode : EncodeFits.Statement .wireSetRemoteMode := shift_setWidth _ 16 (by decide)
theorem EncodeFits.wireSetStreamMode : EncodeFits.Statement .wireSetStreamMode := shift_setWidth _ 16 (by decide)
theorem EncodeFits.wireSetScaling21 : EncodeFits.Statement .wireSetScaling21 := shift_setWidth _ 16 (by decide)
theorem EncodeFits.wireSetScaling11 : EncodeFits.Statement .wireSetScaling11 := shift_setWidth _ 16 (by decide)
theorem EncodeFits.wireSetResolution (a : Byte) : EncodeFits.Statement (.wireSetResolution a) := shift_setWidth _ 16 (by decide)
theorem EncodeFits.wireSetSampleRate (a : Byte) : EncodeFits.Statement (.wireSetSampleRate a) := shift_setWidth _ 16 (by decide)
theorem EncodeFits.wireEnableDataReporting : EncodeFits.Statement .wireEnableDataReporting := shift_setWidth _ 16 (by decide)
theorem EncodeFits.wireDisableDataReporting : EncodeFits.Statement .wireDisableDataReporting := shift_setWidth _ 16 (by decide)
theorem EncodeFits.wireReadData : EncodeFits.Statement .wireReadData := shift_setWidth _ 16 (by decide)
theorem EncodeFits.respBatPass : EncodeFits.Statement .respBatPass := shift_setWidth _ 8 (by decide)
theorem EncodeFits.respAck (a : Byte) : EncodeFits.Statement (.respAck a) := shift_setWidth _ 8 (by decide)
theorem EncodeFits.respDeviceId (a : Byte) : EncodeFits.Statement (.respDeviceId a) := shift_setWidth _ 8 (by decide)
theorem EncodeFits.frameH2D (a : Byte) (b : Bool) : EncodeFits.Statement (.frameH2D a b) := shift_setWidth _ 11 (by decide)
theorem EncodeFits.frameD2H (a : BitVec 11) : EncodeFits.Statement (.frameD2H a) := shift_setWidth _ 11 (by decide)
theorem EncodeFits.movementReport (a : Byte) (b : Byte) (c : Byte) : EncodeFits.Statement (.movementReport a b c) := BitVec.ushiftRight_eq_zero (Nat.le_refl 24)
theorem EncodeFits.transmitByte (a : Byte) : EncodeFits.Statement (.transmitByte a) := shift_setWidth _ 16 (by decide)
theorem EncodeFits.receiveByte : EncodeFits.Statement .receiveByte := rfl
theorem EncodeFits.readBit : EncodeFits.Statement .readBit := rfl
theorem EncodeFits.decodeX : EncodeFits.Statement .decodeX := rfl
theorem EncodeFits.decodeY : EncodeFits.Statement .decodeY := rfl
theorem EncodeFits.cmd (a : Byte) : EncodeFits.Statement (.cmd a) := shift_setWidth _ 8 (by decide)
theorem EncodeFits.cmdToggled (a : Byte) : EncodeFits.Statement (.cmdToggled a) := shift_setWidth _ 8 (by decide)

end Sys2Proof.Laws
end

