-- ==== Sys2Proof/Laws/Step.lean ====
section
/-! SUPPORT. What a clock edge and a step can do: one inversion lemma per shared operation of the sequencer. -/

namespace Sys2Proof.Machine

/-- A `Wait` stays, or goes on past its limit (R132). -/
theorem waitThen_cases (n : Time) (f : Frame) (k : State → Ran) (s : State) :
    waitThen n f k s = (s, .block [f]) ∧ elapsed s ≤ n ∨ waitThen n f k s = k s ∧ n < elapsed s := by
  unfold waitThen
  split
  · exact .inl ⟨rfl, ‹_›⟩
  · exact .inr ⟨rfl, BitVec.not_le.mp ‹_›⟩

/-- A `WaitWhile` stays, times out, or goes on (R133, R250). -/
theorem pollThen_cases (c : Bool) (f : Frame) (k : State → Ran) (s : State) :
    pollThen c f k s = (s, .block [f]) ∧ c = true ∧ expired s = false ∨
    pollThen c f k s = (s, .timeout) ∧ c = true ∧ expired s = true ∨ pollThen c f k s = k s ∧ c = false := by
  unfold pollThen
  cases c <;> cases expired s <;> simp [goto]

/-- The limit has passed only under the Bounded policy (R250). -/
theorem expired_iff (s : State) :
    expired s = true ↔ s.cfg.timeoutPolicy = .bounded ∧ s.cfg.tTimeout < elapsed s := by
  unfold expired
  cases s.cfg.timeoutPolicy <;> simp

/-- A pseudo-operation is not accepted by a busy HOST, runs if the block sends its byte, and is refused else (R105, R108). -/
theorem startCommand_cases (c : Byte) (sends : Bool) (op : State → Ran) (s : State) :
    s.busy = true ∧ startCommand c sends op s = .next s ∨
    s.busy = false ∧ sends = true ∧ startCommand c sends op s = start none op s ∨
    s.busy = false ∧ sends = false ∧ startCommand c sends op s = .refused (.unsentCommand c) := by
  unfold startCommand
  cases s.busy <;> cases sends <;> simp

/-- CMD of a command of the table, or of a byte where an argument is due, runs as its steps say. -/
theorem execCmd_eq_start {c : Byte} {s : State} (h : c ∈ commandBytes ∨ argumentDue s = true) :
    execCmd c s = start none (cmdStart c) s := by
  have hs : (decide (c ∈ commandBytes) || argumentDue s) = true := by simpa using h
  cases hb : s.busy <;> simp [execCmd, startCommand, start, hs, hb]

/-- CMD_TOGGLED of a command of the table runs as its steps say. -/
theorem execCmdToggled_eq_start {c : Byte} {s : State} (h : c ∈ commandBytes) :
    execCmdToggled c s = start none (toggledStart c) s := by
  cases hb : s.busy <;> simp [execCmdToggled, startCommand, start, h, hb]

/-- Whether an argument is due after a byte and its ack (R95). -/
@[simp] theorem argumentDueAfter_command (a c : Byte) (es : List WireEvent) :
    argumentDueAfter (.d2h a :: .h2d c :: es) = (takesArgument c && !argumentDueAfter es) := rfl

/-- What the sequencer makes of a step that answers a next state. -/
theorem conclude_cases {k : List Frame} {r : Ran} {t : State} (h : conclude k r = .next t) :
    (∃ s fs, r = (s, .block fs) ∧ t = { s with stack := fs ++ k }) ∨
    (∃ s, r = (s, .ret) ∧ resume k s = .next t) ∨
    (∃ s, r = (s, .hold) ∧ k = [] ∧ t = opEnd s) ∨
    (∃ s, r = (s, .hold) ∧ k ≠ [] ∧ t = { s with stack := k }) ∨
    (∃ s, r = (s, .timeout) ∧ t = raiseTimeout s) := by
  obtain ⟨s, fs | _ | _ | _ | _⟩ := r
  · exact .inl ⟨s, fs, rfl, by simpa using h.symm⟩
  · exact .inr (.inl ⟨s, rfl, h⟩)
  · cases k with
    | nil => exact .inr (.inr (.inl ⟨s, rfl, rfl, by simpa using h.symm⟩))
    | cons f k => exact .inr (.inr (.inr (.inl ⟨s, rfl, by simp, by simpa using h.symm⟩)))
  · exact .inr (.inr (.inr (.inr ⟨s, rfl, by simpa using h.symm⟩)))
  · simp at h

/-- A clock edge resets the block or lets the innermost operation take its step. -/
theorem edge_cases (x : Sample) (s : State) :
    x.rst = true ∧ edge x s = .next (resetEdge (sampled x s)) ∨
    x.rst = false ∧ edge x s = resume s.stack (sampled x s) := by
  unfold edge
  cases h : x.rst
  · exact .inr ⟨rfl, rfl⟩
  · exact .inl ⟨rfl, rfl⟩

/-- What a step is, case by case. -/
theorem step_cases (s : State) :
    s.busy = true ∧ step s = edge (nextSample s).1 { s with inputs := (nextSample s).2 } ∨
    s.busy = false ∧ (∃ w, s.sel = some w ∧ step s = execWord w { s with sel := none }) ∨
    s.busy = false ∧ s.sel = none ∧ (idleSampled s).pins.rst = true ∧ step s = .next (resetEdge (idleSampled s)) ∨
    s.busy = false ∧ s.sel = none ∧ (idleSampled s).pins.rst = false ∧ (idleSampled s).pins.opValid = true ∧
      step s = execWord ⟨.op12, (idleSampled s).pins.op.setWidth 24⟩ (idleSampled s) ∨
    s.busy = false ∧ s.sel = none ∧ (idleSampled s).pins.rst = false ∧ (idleSampled s).pins.opValid = false ∧
      step s = .next (idleSampled s) := by
  by_cases hb : s.busy = true
  · exact .inl ⟨hb, by rw [step, if_pos hb]; rfl⟩
  · have hb' : s.busy = false := by simpa using hb
    rw [step, if_neg hb]
    cases hs : s.sel with
    | some w => exact .inr (.inl ⟨hb', w, rfl, rfl⟩)
    | none =>
      cases hr : (idleSampled s).pins.rst with
      | true => exact .inr (.inr (.inl ⟨hb', rfl, rfl, by simp [hr]⟩))
      | false =>
        cases hv : (idleSampled s).pins.opValid with
        | true => exact .inr (.inr (.inr (.inl ⟨hb', rfl, rfl, rfl, by simp [hr, presented, hv]⟩)))
        | false => exact .inr (.inr (.inr (.inr ⟨hb', rfl, rfl, rfl, by simp [hr, presented, hv]⟩)))

/-- The sample at the next edge is the queue's first, where there is one. -/
theorem nextSample_cons {x : Sample} {xs : List Sample} {s : State} (h : s.inputs = x :: xs) :
    nextSample s = (x, xs) := by simp [nextSample, h]

/-- The op word at the op port is the operation `decodeOp` names (R100, R101). -/
theorem execWord_op (op : BitVec 12) (s : State) : execWord ⟨.op12, op.setWidth 24⟩ s = exec (decodeOp op) s := by
  have h1 : within 12 (op.setWidth 24) (.instr (decodeOp ((op.setWidth 24).setWidth 12))) = .instr (decodeOp op) := by
    have h2 : (op.setWidth 24) >>> 12 = 0#24 := by
      apply BitVec.eq_of_getLsbD_eq
      intro i _
      simp [BitVec.getLsbD_ushiftRight, BitVec.getLsbD_of_ge]
    have h3 : (op.setWidth 24).setWidth 12 = op := by
      apply BitVec.eq_of_getLsbD_eq
      intro i hi
      simp
    rw [within, if_pos h2, h3]
  rw [execWord, decode]
  simp only
  rw [h1]

/-- `rst` leaves the state of R34, with the ports, the queue and the edge count as they are (R280). -/
theorem resetEdge_eq (s : State) : resetEdge s =
    { State.afterReset s.cfg s.pins.cfgMode with pins := s.pins, inputs := s.inputs, clk := s.clk } := rfl

end Sys2Proof.Machine
end

