-- ==== Sys2Proof/Tests/Slice0.lean ====
section
/-! SUPPORT. The model's own tests: the check of well-formedness, the decoding of words written out from the tables of
30_encoding.md, the vectors of 95_test_vectors.md, and a witness for the premises of each statement. -/

namespace Sys2Proof.Tests.Slice0

open Sys2Proof Sys2Proof.Machine

/-- The byte 0xF4 has five ones, so its parity slot is 0 (95_test_vectors.md section 2): the other slot value is no frame. -/
theorem test_wellFormed_refuses_wrong_parity : (Instr.frameH2D 0xF4#8 true).wellFormed = false := by decide

theorem test_wellFormed_refuses_unknown_command : (Instr.cmdToggled 0xF2#8).wellFormed = false := by decide

theorem test_wellFormed_accepts_right_parity : (Instr.frameH2D 0xF4#8 false).wellFormed = true := by decide

/-! Decoding: op words (R100, R101, R104), bits written as code, then argument. -/

theorem test_decode_initializeLink : decode ⟨.op12, 0b0000_0000_0000#24⟩ = .instr (.initializeLink 0x00#8) := by decide
theorem test_decode_setRemoteMode : decode ⟨.op12, 0b0001_0000_0000#24⟩ = .instr (.setRemoteMode 0x00#8) := by decide
theorem test_decode_setStreamMode : decode ⟨.op12, 0b0010_0000_0000#24⟩ = .instr (.setStreamMode 0x00#8) := by decide
theorem test_decode_setScaling21 : decode ⟨.op12, 0b0011_0000_0000#24⟩ = .instr (.setScaling21 0x00#8) := by decide
theorem test_decode_setScaling11 : decode ⟨.op12, 0b0100_0000_0000#24⟩ = .instr (.setScaling11 0x00#8) := by decide
theorem test_decode_setResolution : decode ⟨.op12, 0b0101_0000_0011#24⟩ = .instr (.setResolution 0x03#8) := by decide
theorem test_decode_setSampleRate : decode ⟨.op12, 0b0110_0110_0100#24⟩ = .instr (.setSampleRate 0x64#8) := by decide
theorem test_decode_enableDataReporting : decode ⟨.op12, 0b0111_1010_0101#24⟩ = .instr (.enableDataReporting 0xA5#8) := by decide
theorem test_decode_disableDataReporting : decode ⟨.op12, 0b1000_0000_0000#24⟩ = .instr (.disableDataReporting 0x00#8) := by decide
theorem test_decode_report : decode ⟨.op12, 0b1001_0000_0000#24⟩ = .instr (.report 0x00#8) := by decide
theorem test_decode_reservedA : decode ⟨.op12, 0b1010_0000_0000#24⟩ = .instr (.reservedA 0x00#8) := by decide
theorem test_decode_reservedB : decode ⟨.op12, 0b1011_0000_0001#24⟩ = .instr (.reservedB 0x01#8) := by decide
theorem test_decode_reservedC : decode ⟨.op12, 0b1100_0000_0010#24⟩ = .instr (.reservedC 0x02#8) := by decide
theorem test_decode_reservedD : decode ⟨.op12, 0b1101_0000_0011#24⟩ = .instr (.reservedD 0x03#8) := by decide
theorem test_decode_reservedE : decode ⟨.op12, 0b1110_0000_0100#24⟩ = .instr (.reservedE 0x04#8) := by decide
theorem test_decode_reservedF : decode ⟨.op12, 0b1111_0011_0111#24⟩ = .instr (.reservedF 0x37#8) := by decide

/-! Decoding: wire commands (R94), argument byte above command byte (R95). -/

theorem test_decode_wireReset : decode ⟨.wireCmd8, 0b11111111#24⟩ = .instr .wireReset := by decide
theorem test_decode_wireSetRemoteMode : decode ⟨.wireCmd8, 0b11110000#24⟩ = .instr .wireSetRemoteMode := by decide
theorem test_decode_wireSetStreamMode : decode ⟨.wireCmd8, 0b11101010#24⟩ = .instr .wireSetStreamMode := by decide
theorem test_decode_wireSetScaling21 : decode ⟨.wireCmd8, 0b11100111#24⟩ = .instr .wireSetScaling21 := by decide
theorem test_decode_wireSetScaling11 : decode ⟨.wireCmd8, 0b11100110#24⟩ = .instr .wireSetScaling11 := by decide
theorem test_decode_wireEnableDataReporting : decode ⟨.wireCmd8, 0b11110100#24⟩ = .instr .wireEnableDataReporting := by decide
theorem test_decode_wireDisableDataReporting : decode ⟨.wireCmd8, 0b11110101#24⟩ = .instr .wireDisableDataReporting := by decide
theorem test_decode_wireReadData : decode ⟨.wireCmd8, 0b11101011#24⟩ = .instr .wireReadData := by decide
theorem test_decode_wireSetResolution :
    decode ⟨.wireCmd8, 0b00000011_11101000#24⟩ = .instr (.wireSetResolution 0x03#8) := by decide
theorem test_decode_wireSetSampleRate :
    decode ⟨.wireCmd8, 0b01100100_11110011#24⟩ = .instr (.wireSetSampleRate 0x64#8) := by decide

/-- 0xF2, get device ID, is no command of R94 (R108). -/
theorem test_decode_rejects_getDeviceId : decode ⟨.wireCmd8, 0xF2#24⟩ = .reject .unknownWireCommand := by decide

/-! Decoding: responses (R96), frames (R92, R93; slot 0 is bit 0, so the strings of section 2 read from the right), the
movement report (R97), the select codes (R103), the pseudo-operations (R107). -/

theorem test_decode_respBatPass : decode ⟨.respBat8, 0b10101010#24⟩ = .instr .respBatPass := by decide
theorem test_decode_rejects_batFail : decode ⟨.respBat8, 0xFC#24⟩ = .reject .notBatPass := by decide
theorem test_decode_respAck : decode ⟨.respAck8, 0b11111010#24⟩ = .instr (.respAck 0xFA#8) := by decide
theorem test_decode_respDeviceId : decode ⟨.respId8, 0b00000000#24⟩ = .instr (.respDeviceId 0x00#8) := by decide
theorem test_decode_frameH2D : decode ⟨.frameH2D11, 0b1_0_11110100_0#24⟩ = .instr (.frameH2D 0xF4#8 false) := by decide
theorem test_decode_rejects_badParity : decode ⟨.frameH2D11, 0b1_1_11110100_0#24⟩ = .reject .badParity := by decide
theorem test_decode_frameD2H :
    decode ⟨.frameD2H11, 0b1_0_00011000_0#24⟩ = .instr (.frameD2H 0b1_0_00011000_0#11) := by decide
theorem test_decode_movementReport :
    decode ⟨.report24, 0b00000101_10000000_00011000#24⟩ = .instr (.movementReport 0x18#8 0x80#8 0x05#8) := by decide
theorem test_decode_transmitByte : decode ⟨.tReq2, 0b11110100_00000001#24⟩ = .instr (.transmitByte 0xF4#8) := by decide
theorem test_decode_receiveByte : decode ⟨.tReq2, 0b10#24⟩ = .instr .receiveByte := by decide
theorem test_decode_rejects_noRequest : decode ⟨.tReq2, 0b00#24⟩ = .reject .noTransportRequest := by decide
theorem test_decode_readBit : decode ⟨.tState5, 0b01110#24⟩ = .instr .readBit := by decide
theorem test_decode_decodeX : decode ⟨.decSel1, 0b0#24⟩ = .instr .decodeX := by decide
theorem test_decode_decodeY : decode ⟨.decSel1, 0b1#24⟩ = .instr .decodeY := by decide
theorem test_decode_cmd : decode ⟨.cmd8, 0xF0#24⟩ = .instr (.cmd 0xF0#8) := by decide
theorem test_decode_rejects_toggled_getDeviceId : decode ⟨.toggled8, 0xF2#24⟩ = .reject .unknownWireCommand := by decide
theorem test_decode_cmdToggled : decode ⟨.toggled8, 0xE7#24⟩ = .instr (.cmdToggled 0xE7#8) := by decide

/-- The table's SET_SAMPLE_RATE row, in whole bytes. -/
theorem test_table_setSampleRate : decodeTableWord 16 0x600 = some (.setSampleRate 0x00#8) := by decide
theorem test_table_wireReadData : decodeTableWord 8 0xEB = some .wireReadData := by decide

/-! Parity and late bytes (section 2 of the vectors). -/

theorem test_parity : oddParity 0x00#8 = true ∧ oddParity 0xFF#8 = true ∧ oddParity 0xF4#8 = false := by decide
theorem test_goodFrame : goodFrame 0xEB#8 = 0b1_1_11101011_0#11 ∧ goodFrame 0x64#8 = 0b1_0_01100100_0#11 := by decide
theorem test_late : lateByte (goodFrame 0xAA#8) = 0x54#8 ∧ lateByte (goodFrame 0x80#8) = 0x00#8 := by decide

/-! Runs against the device of Laws/Device.lean. -/

/-- What the tests look at: an idle next state that has a property. -/
def ends (r : Result) (p : State → Bool) : Bool :=
  match r with
  | .next s => !s.busy && p s
  | .fault _ => false
  | .refused _ => false

/-- An idle block in a mode, with its belief about reporting, and samples to come. -/
def idleIn (m : Mode) (reporting : Bool) (xs : List Sample) : State :=
  { State.reset with mode := m, reportingEnabled := reporting, inputs := xs }

/-- The bytes that the device takes and sends in these exchanges, from time 0. -/
def talkOf (es : List WireEvent) : List Sample := talkSamples Params.default es 0#32

/-- The exchanges that took place, in order. -/
def heard (s : State) : List WireEvent := s.wire.reverse

/-- Section 3: TRANSMIT_BYTE(0xF4) ends with `sh` = 0xF4, `par` = 1, `bitidx` = 9 and the bus held. -/
theorem test_transmit_F4 : ends (exec (.transmitByte 0xF4#8) (idleIn .remote false (deviceTakes Params.default 0#32)))
    (fun s => s.sh == 0xF4#8 && s.par && s.bitidx == 9#4 && s.clockDrv == .low && s.dataDrv == .rel) = true := by
  decide +kernel

/-- Section 4.2: the frame of 0xAA after the soft window is read as 0x54. -/
theorem test_receive_late : ends (exec .receiveByte
      (idleIn .remote false (lateFrame Params.default 0#32 (goodFrame 0xAA#8)))) (fun s => s.tResult == 0x54#8) = true := by
  decide +kernel

/-- Section 4.3: 0x18 with the wrong parity slot is received as 0x18. -/
theorem test_receive_wrong_parity : ends (exec (.frameD2H 0b1_0_00011000_0#11) State.reset)
    (fun s => s.tResult == 0x18#8) = true := by decide +kernel

/-- Section 5: status 0x28, bytes 0x03 and 0xFB. -/
theorem test_movement_report : ends (exec (.movementReport 0x28#8 0x03#8 0xFB#8) State.reset)
    (fun s => s.status == 0x28#8 && s.dx == 0x0003#16 && s.dy == 0xFFFB#16) = true := by decide +kernel

/-- Section 6: SET_SAMPLE_RATE 0x64 from (Stream, 1). -/
theorem test_setSampleRate_stream : ends (exec (.setSampleRate 0x64#8) (idleIn .stream true (talkOf
      [.h2d 0xF5#8, .d2h 0xFA#8, .h2d 0xF3#8, .d2h 0xFA#8, .h2d 0x64#8, .d2h 0xFA#8, .h2d 0xF4#8, .d2h 0xFA#8])))
    (fun s => heard s == [.h2d 0xF5#8, .d2h 0xFA#8, .h2d 0xF3#8, .d2h 0xFA#8, .h2d 0x64#8, .d2h 0xFA#8, .h2d 0xF4#8,
      .d2h 0xFA#8] && s.reportingEnabled && s.mode == .stream) = true := by decide +kernel

/-- Section 6: SET_RESOLUTION 0x03 from (Stream, 1) ends in (Stream, 0). -/
theorem test_setResolution_stream : ends (exec (.setResolution 0x03#8) (idleIn .stream true (talkOf
      [.h2d 0xE8#8, .d2h 0xFA#8, .h2d 0x03#8, .d2h 0xFA#8, .h2d 0xF5#8, .d2h 0xFA#8])))
    (fun s => heard s == [.h2d 0xE8#8, .d2h 0xFA#8, .h2d 0x03#8, .d2h 0xFA#8, .h2d 0xF5#8, .d2h 0xFA#8] &&
      !s.reportingEnabled && s.mode == .stream) = true := by decide +kernel

/-- Section 6: ENABLE_DATA_REPORTING with reporting enabled sends nothing; `arg` is ignored. -/
theorem test_enable_noop : ends (exec (.enableDataReporting 0xA5#8) (idleIn .stream true []))
    (fun s => heard s == [] && s.drives == [] && s.reportingEnabled) = true := by decide

/-- Section 8: REPORT in Remote mode, the device answering FA 18 80 05. -/
theorem test_report_remote : ends (exec (.report 0x00#8) (idleIn .remote false (talkOf
      [.h2d 0xEB#8, .d2h 0xFA#8, .d2h 0x18#8, .d2h 0x80#8, .d2h 0x05#8])))
    (fun s => heard s == [.h2d 0xEB#8, .d2h 0xFA#8, .d2h 0x18#8, .d2h 0x80#8, .d2h 0x05#8] &&
      s.status == 0x18#8 && s.dx == 0xFF80#16 && s.dy == 0x0005#16) = true := by decide +kernel

/-- Section 9, E6: op word 0xF37 while idle. -/
theorem test_illegal_op : ends (exec (decodeOp 0xF37#12) State.reset)
    (fun s => s == { State.reset with err := .illegalOp }) = true := by decide

/-- Section 9, E2: with the device absent, RECEIVE_BYTE stays in RB.1 of its first READ_BIT with both lines released. -/
theorem test_receive_hangs : (match exec .receiveByte (idleIn .stream true
        [linesAt 51#32 true true, linesAt 76#32 true true, linesAt 82#32 true true, linesAt 83#32 true true,
         linesAt 90#32 true true, linesAt 900#32 true true]) with
      | .next s => s.busy && s.stack == [.readBit .waitLow, .receive .bit] && s.clockDrv == .rel && s.dataDrv == .rel
      | _ => false) = true := by decide

/-- A step after reset takes an op word from the op port. -/
theorem test_step_takes_op : (match step (State.reset.withFetchWord 16 0x700) with
      | .next s => s.busy && s.opCode == some 0x7#4 && s.tState == 1#5
      | _ => false) = true := by decide

/-- A wait that no sample has lifted yet: Clock and Data are released, nothing is sampled (R181). -/
theorem test_initialize_powerup : (match exec (.initializeLink 0x00#8) (idleIn .remote false
        [linesAt 20000#32 false false]) with
      | .next s => s.busy && s.stack == [.initLink .powerup] && s.clockDrv == .rel
      | _ => false) = true := by decide

/-! Witnesses: for each statement with premises, a concrete state and operands that meet them all. -/

theorem default_legal : Params.default.Legal := by decide

/-- Samples queued with nothing after them. -/
theorem queued (xs : List Sample) : xs = xs ++ [] := (List.append_nil xs).symm

/-- The exchanges `es` meet the contract from time 0. -/
theorem talkOf_meets (es : List WireEvent) : talkSeg Params.default es 0#32 (talkOf es) (talkEnd Params.default es 0#32) :=
  talkSamples_meets default_legal es 0#32

theorem witness_DecodeEncode : (Instr.frameH2D 0xF4#8 false).wellFormed = true := rfl

theorem witness_DecodedWordsAreEncodings : decode ⟨.wireCmd8, 0x03E8#24⟩ = .instr (.wireSetResolution 0x03#8) := by decide

theorem witness_TransmitByteCompletes :
    let xs := deviceTakes Params.default 0#32
    let s := idleIn .remote false xs
    s.busy = false ∧ s.inputs = xs ++ [] ∧ transmitSeg s.cfg (now s) xs (deviceTakesEnd Params.default 0#32) :=
  ⟨rfl, queued _, deviceTakes_meets default_legal 0#32⟩

theorem witness_WrongParityRefused : true ≠ oddParity 0xF4#8 := by decide

theorem witness_ReceiveByteSeenLow :
    let xs := deviceFrame Params.default 0#32 0b0_0_00011000_1#11
    let s := idleIn .remote false xs
    s.busy = false ∧ s.inputs = xs ++ [] ∧
      receiveSeg s.cfg 0b0_0_00011000_1#11 (now s) xs (deviceFrameEnd Params.default 0#32) :=
  ⟨rfl, queued _, deviceFrame_meets default_legal 0#32 _⟩

theorem witness_ReceiveByteTimedOut :
    let xs := lateFrame Params.default 0#32 (goodFrame 0xAA#8)
    let s := idleIn .remote false xs
    s.busy = false ∧ s.inputs = xs ++ [] ∧ receiveLateSeg s.cfg (goodFrame 0xAA#8) (now s) xs
      (lift (lift 0#32 Params.default.tRxSettle + Params.default.tRxSoft) Params.default.tRxSkew) :=
  ⟨rfl, queued _, lateFrame_meets default_legal 0#32 _⟩

theorem witness_ReadBitCompletes :
    let xs := pulse 7#32 true
    let s := idleIn .remote false xs
    s.busy = false ∧ s.clockDrv = .rel ∧ s.dataDrv = .rel ∧ s.inputs = xs ++ [] ∧ bitSeg s.cfg true (now s) xs 7#32 :=
  ⟨rfl, rfl, rfl, queued _, bitSeg_pulse⟩

theorem witness_DeviceBytesConsumed : State.reset.cfg.Legal ∧ State.reset.busy = false := ⟨default_legal, rfl⟩

theorem witness_BatByteKept : State.reset.cfg.Legal ∧ State.reset.busy = false := ⟨default_legal, rfl⟩

theorem witness_MovementReportDecoded : State.reset.cfg.Legal ∧ State.reset.busy = false := ⟨default_legal, rfl⟩

theorem witness_CommandCompletes :
    let xs := talkOf [.h2d 0xFF#8, .d2h 0xFA#8]
    let s := idleIn .remote false xs
    (Instr.wireReset, 0xFF#8) ∈ [(Instr.cmd 0xFF#8, 0xFF#8), (.wireReset, 0xFF#8), (.wireSetRemoteMode, 0xF0#8),
      (.wireSetStreamMode, 0xEA#8), (.wireSetScaling21, 0xE7#8), (.wireSetScaling11, 0xE6#8),
      (.wireEnableDataReporting, 0xF4#8), (.wireDisableDataReporting, 0xF5#8), (.wireReadData, 0xEB#8)] ∧
    (0xFF#8 ∈ commandBytes ∨ argumentDue s = true) ∧
    s.busy = false ∧ s.inputs = xs ++ [] ∧ talkSeg s.cfg [.h2d 0xFF#8, .d2h 0xFA#8] (now s) xs
      (talkEnd Params.default [.h2d 0xFF#8, .d2h 0xFA#8] 0#32) :=
  ⟨by simp, .inl (by decide), rfl, queued _, talkOf_meets _⟩

/-- CMD(0xEB) and every one-byte wire command: the row stands in the statement's list, its byte in R94's table, and the device's
answer is queued. -/
theorem witness_CommandCompletes_each :
    ∀ p ∈ [(Instr.cmd 0xEB#8, 0xEB#8), (.wireReset, 0xFF#8), (.wireSetRemoteMode, 0xF0#8),
      (.wireSetStreamMode, 0xEA#8), (.wireSetScaling21, 0xE7#8), (.wireSetScaling11, 0xE6#8),
      (.wireEnableDataReporting, 0xF4#8), (.wireDisableDataReporting, 0xF5#8), (.wireReadData, 0xEB#8)],
    p ∈ [(Instr.cmd p.2, p.2), (.wireReset, 0xFF#8), (.wireSetRemoteMode, 0xF0#8),
      (.wireSetStreamMode, 0xEA#8), (.wireSetScaling21, 0xE7#8), (.wireSetScaling11, 0xE6#8),
      (.wireEnableDataReporting, 0xF4#8), (.wireDisableDataReporting, 0xF5#8), (.wireReadData, 0xEB#8)] ∧
    let xs := talkOf [.h2d p.2, .d2h 0xFA#8]
    let s := idleIn .remote false xs
    (p.2 ∈ commandBytes ∨ argumentDue s = true) ∧ s.busy = false ∧ s.inputs = xs ++ [] ∧ talkSeg s.cfg [.h2d p.2, .d2h 0xFA#8] (now s) xs
      (talkEnd Params.default [.h2d p.2, .d2h 0xFA#8] 0#32) :=
  fun p hp => ⟨by revert p; decide, .inl (by revert p; decide), rfl, queued _, talkOf_meets _⟩

/-- CMD(0x03) where the argument of 0xE8 is due. -/
theorem witness_CommandCompletes_argument :
    let xs := talkOf [.h2d 0x03#8, .d2h 0xFA#8]
    let s : State := { idleIn .remote false xs with wire := [.d2h 0xFA#8, .h2d 0xE8#8] }
    (Instr.cmd 0x03#8, 0x03#8) ∈ [(Instr.cmd 0x03#8, 0x03#8)] ∧ 0x03#8 ∉ commandBytes ∧ argumentDue s = true ∧
    s.busy = false ∧ s.inputs = xs ++ [] ∧ talkSeg s.cfg [.h2d 0x03#8, .d2h 0xFA#8] (now s) xs
      (talkEnd Params.default [.h2d 0x03#8, .d2h 0xFA#8] 0#32) :=
  ⟨by simp, by decide, rfl, rfl, queued _, talkOf_meets _⟩

/-- The two rows of two bytes, with arguments at both ends of the range (R95). -/
theorem witness_TwoByteCommandCompletes :
    ∀ p ∈ [(Instr.wireSetResolution 0x03#8, 0xE8#8, 0x03#8), (.wireSetSampleRate 0xFF#8, 0xF3#8, 0xFF#8)],
    (p.1, p.2.1) ∈ [(Instr.wireSetResolution p.2.2, 0xE8#8), (.wireSetSampleRate p.2.2, 0xF3#8)] ∧
    let es := [.h2d p.2.1, .d2h 0xFA#8, .h2d p.2.2, .d2h 0xFA#8]
    let s := idleIn .remote false (talkOf es)
    s.busy = false ∧ s.inputs = talkOf es ++ [] ∧
      talkSeg s.cfg es (now s) (talkOf es) (talkEnd Params.default es 0#32) :=
  fun p hp => ⟨by revert p; decide, rfl, queued _, talkOf_meets _⟩

theorem witness_CommandToggledCompletes_byte : 0xE7#8 ∈ commandBytes := by decide

theorem witness_CommandToggledCompletes_toggling :
    let es : List WireEvent := toggledTalk (idleIn .stream true []) 0xE7#8 0xFA#8 0xFA#8 0xFA#8
    let s := idleIn .stream true (talkOf es)
    s.busy = false ∧ s.inputs = talkOf es ++ [] ∧
      talkSeg s.cfg (toggledTalk s 0xE7#8 0xFA#8 0xFA#8 0xFA#8) (now s) (talkOf es) (talkEnd Params.default es 0#32) :=
  ⟨rfl, queued _, talkOf_meets _⟩

theorem witness_CommandToggledCompletes_plain :
    let es : List WireEvent := toggledTalk (idleIn .remote true []) 0xE7#8 0xFA#8 0xFA#8 0xFA#8
    let s := idleIn .remote true (talkOf es)
    s.busy = false ∧ s.inputs = talkOf es ++ [] ∧
      talkSeg s.cfg (toggledTalk s 0xE7#8 0xFA#8 0xFA#8 0xFA#8) (now s) (talkOf es) (talkEnd Params.default es 0#32) :=
  ⟨rfl, queued _, talkOf_meets _⟩

/-- The settle wait in one sample, for an initialized block. -/
def settled (t : Time) : List Sample := [linesAt (lift t Params.default.tModeSettle) true true]

theorem witness_SetRemoteModeCompletes_initialized :
    let es : List WireEvent := toggledTalk (idleIn .stream true []) 0xF0#8 0xFA#8 0xFA#8 0xFA#8
    let xs := talkOf es ++ (settled (talkEnd Params.default es 0#32) ++ [])
    let s : State := { idleIn .stream true xs with initialized := true }
    s.busy = false ∧ s.inputs = xs ++ [] ∧
      segSeq (talkSeg s.cfg (toggledTalk s 0xF0#8 0xFA#8 0xFA#8 0xFA#8)) (settleSeg s) (now s) xs
        (lift (talkEnd Params.default es 0#32) Params.default.tModeSettle) :=
  ⟨rfl, queued _, ⟨_, _, _, rfl, talkOf_meets _, segAll_cons (waitSeg_lift (by decide) rfl rfl) segAll_nil⟩⟩

theorem witness_SetRemoteModeCompletes_constructing :
    let es : List WireEvent := toggledTalk (idleIn .stream true []) 0xF0#8 0xFA#8 0xFA#8 0xFA#8
    let xs := talkOf es ++ ([])
    let s : State := { idleIn .stream true xs with initialized := false }
    s.busy = false ∧ s.inputs = xs ++ [] ∧
      segSeq (talkSeg s.cfg (toggledTalk s 0xF0#8 0xFA#8 0xFA#8 0xFA#8)) (settleSeg s) (now s) xs
        (talkEnd Params.default es 0#32) :=
  ⟨rfl, queued _, ⟨_, _, _, rfl, talkOf_meets _, segAll_nil⟩⟩

theorem witness_SetStreamModeCompletes_initialized :
    let es : List WireEvent := toggledTalk (idleIn .stream true []) 0xEA#8 0xFA#8 0xFA#8 0xFA#8
    let xs := talkOf es ++ (settled (talkEnd Params.default es 0#32) ++ [])
    let s : State := { idleIn .stream true xs with initialized := true }
    s.busy = false ∧ s.inputs = xs ++ [] ∧
      segSeq (talkSeg s.cfg (toggledTalk s 0xEA#8 0xFA#8 0xFA#8 0xFA#8)) (settleSeg s) (now s) xs
        (lift (talkEnd Params.default es 0#32) Params.default.tModeSettle) :=
  ⟨rfl, queued _, ⟨_, _, _, rfl, talkOf_meets _, segAll_cons (waitSeg_lift (by decide) rfl rfl) segAll_nil⟩⟩

theorem witness_SetStreamModeCompletes_constructing :
    let es : List WireEvent := toggledTalk (idleIn .stream true []) 0xEA#8 0xFA#8 0xFA#8 0xFA#8
    let xs := talkOf es ++ ([])
    let s : State := { idleIn .stream true xs with initialized := false }
    s.busy = false ∧ s.inputs = xs ++ [] ∧
      segSeq (talkSeg s.cfg (toggledTalk s 0xEA#8 0xFA#8 0xFA#8 0xFA#8)) (settleSeg s) (now s) xs
        (talkEnd Params.default es 0#32) :=
  ⟨rfl, queued _, ⟨_, _, _, rfl, talkOf_meets _, segAll_nil⟩⟩

/-- Both scaling rows, from (Stream, 1). -/
theorem witness_ScalingCompletes :
    ∀ p ∈ [(Instr.setScaling21 0x00#8, 0xE7#8), (.setScaling11 0x00#8, 0xE6#8)],
    p ∈ [(Instr.setScaling21 0x00#8, 0xE7#8), (.setScaling11 0x00#8, 0xE6#8)] ∧
    let es : List WireEvent := toggledTalk (idleIn .stream true []) p.2 0xFA#8 0xFA#8 0xFA#8
    let s := idleIn .stream true (talkOf es)
    s.busy = false ∧ s.inputs = talkOf es ++ [] ∧ talkSeg s.cfg (toggledTalk s p.2 0xFA#8 0xFA#8 0xFA#8) (now s) (talkOf es)
      (talkEnd Params.default es 0#32) :=
  fun _ hp => ⟨hp, rfl, queued _, talkOf_meets _⟩

theorem witness_SetResolutionCompletes_toggling :
    let es : List WireEvent := resolutionTalk (idleIn .stream true []) 0x03#8 0xFA#8 0xFA#8 0xFA#8 0xFA#8
    let s := idleIn .stream true (talkOf es)
    s.busy = false ∧ s.inputs = talkOf es ++ [] ∧
      talkSeg s.cfg (resolutionTalk s 0x03#8 0xFA#8 0xFA#8 0xFA#8 0xFA#8) (now s) (talkOf es) (talkEnd Params.default es 0#32) :=
  ⟨rfl, queued _, talkOf_meets _⟩

theorem witness_SetResolutionCompletes_plain :
    let es : List WireEvent := resolutionTalk (idleIn .stream false []) 0xFF#8 0xFA#8 0xFA#8 0xFA#8 0xFA#8
    let s := idleIn .stream false (talkOf es)
    s.busy = false ∧ s.inputs = talkOf es ++ [] ∧
      talkSeg s.cfg (resolutionTalk s 0xFF#8 0xFA#8 0xFA#8 0xFA#8 0xFA#8) (now s) (talkOf es) (talkEnd Params.default es 0#32) :=
  ⟨rfl, queued _, talkOf_meets _⟩

theorem witness_SetSampleRateCompletes_toggling :
    let es : List WireEvent := sampleRateTalk (idleIn .stream true []) 0x64#8 0xFA#8 0xFA#8 0xFA#8 0xFA#8
    let s := idleIn .stream true (talkOf es)
    s.busy = false ∧ s.inputs = talkOf es ++ [] ∧
      talkSeg s.cfg (sampleRateTalk s 0x64#8 0xFA#8 0xFA#8 0xFA#8 0xFA#8) (now s) (talkOf es) (talkEnd Params.default es 0#32) :=
  ⟨rfl, queued _, talkOf_meets _⟩

theorem witness_SetSampleRateCompletes_plain :
    let es : List WireEvent := sampleRateTalk (idleIn .remote false []) 0x00#8 0xFA#8 0xFA#8 0xFA#8 0xFA#8
    let s := idleIn .remote false (talkOf es)
    s.busy = false ∧ s.inputs = talkOf es ++ [] ∧
      talkSeg s.cfg (sampleRateTalk s 0x00#8 0xFA#8 0xFA#8 0xFA#8 0xFA#8) (now s) (talkOf es) (talkEnd Params.default es 0#32) :=
  ⟨rfl, queued _, talkOf_meets _⟩

theorem witness_EnableDataReportingCompletes_nothing :
    (idleIn .stream true []).busy = false ∧ (idleIn .stream true []).reportingEnabled = true := ⟨rfl, rfl⟩

theorem witness_EnableDataReportingCompletes_sends :
    let es := [.h2d 0xF4#8, .d2h 0xFA#8]
    let s := idleIn .stream false (talkOf es)
    s.busy = false ∧ s.reportingEnabled = false ∧ s.inputs = talkOf es ++ [] ∧
      talkSeg s.cfg es (now s) (talkOf es) (talkEnd Params.default es 0#32) :=
  ⟨rfl, rfl, queued _, talkOf_meets _⟩

theorem witness_DisableDataReportingCompletes_nothing :
    (idleIn .stream false []).busy = false ∧ (idleIn .stream false []).reportingEnabled = false := ⟨rfl, rfl⟩

theorem witness_DisableDataReportingCompletes_sends :
    let es := [.h2d 0xF5#8, .d2h 0xFA#8]
    let s := idleIn .stream true (talkOf es)
    s.busy = false ∧ s.reportingEnabled = true ∧ s.inputs = talkOf es ++ [] ∧
      talkSeg s.cfg es (now s) (talkOf es) (talkEnd Params.default es 0#32) :=
  ⟨rfl, rfl, queued _, talkOf_meets _⟩

theorem witness_DecodersComplete :
    let es : List WireEvent := [.d2h 0x80#8]
    let s := idleIn .stream true (talkOf es)
    s.busy = false ∧ s.inputs = talkOf es ++ [] ∧
      talkSeg s.cfg ([.d2h 0x80#8]) (now s) (talkOf es) (talkEnd Params.default es 0#32) :=
  ⟨rfl, queued _, talkOf_meets _⟩

theorem witness_ReportCompletes_remote :
    let es : List WireEvent := reportTalk (idleIn .remote false []) 0xFA#8 0x18#8 0x80#8 0x05#8
    let s := idleIn .remote false (talkOf es)
    s.busy = false ∧ s.inputs = talkOf es ++ [] ∧
      talkSeg s.cfg (reportTalk s 0xFA#8 0x18#8 0x80#8 0x05#8) (now s) (talkOf es) (talkEnd Params.default es 0#32) :=
  ⟨rfl, queued _, talkOf_meets _⟩

theorem witness_ReportCompletes_stream :
    let es : List WireEvent := reportTalk (idleIn .stream true []) 0xFA#8 0x28#8 0x03#8 0xFB#8
    let s := idleIn .stream true (talkOf es)
    s.busy = false ∧ s.inputs = talkOf es ++ [] ∧
      talkSeg s.cfg (reportTalk s 0xFA#8 0x28#8 0x03#8 0xFB#8) (now s) (talkOf es) (talkEnd Params.default es 0#32) :=
  ⟨rfl, queued _, talkOf_meets _⟩

/-- The samples of INITIALIZE up to the test of the BAT byte. -/
def untilBatSamples (bat : Byte) : List Sample :=
  let t1 := lift 0#32 Params.default.tInitPowerup
  let es := resetTalk 0xFA#8 bat 0x00#8
  [linesAt t1 true true] ++ (talkSamples Params.default es t1 ++
    ([linesAt (lift (talkEnd Params.default es t1) Params.default.tInitPostBat) true true] ++ []))

/-- The time at which `untilBatSamples` ends. -/
def untilBatEnd (bat : Byte) : Time :=
  lift (talkEnd Params.default (resetTalk 0xFA#8 bat 0x00#8) (lift 0#32 Params.default.tInitPowerup))
    Params.default.tInitPostBat

theorem untilBat_meets (m : Mode) (re : Bool) (xs : List Sample) (bat : Byte) :
    untilBat (idleIn m re xs) 0xFA#8 bat 0x00#8 0#32 (untilBatSamples bat) (untilBatEnd bat) :=
  segAll_cons (waitSeg_lift (show Params.default.tInitPowerup < _ by decide) rfl rfl)
    (segAll_cons (talkSamples_meets default_legal _ _)
      (segAll_cons (waitSeg_lift (show Params.default.tInitPostBat < _ by decide) rfl rfl) segAll_nil))

/-- The samples of INITIALIZE after a passed BAT, from time `t`, for a block that was not initialized. -/
def afterBatSamples (m : Mode) (t : Time) : List Sample :=
  let es := setUpTalk (idleIn m false []) 0xFA#8
  talkSamples Params.default es t ++
    ([] ++ ([linesAt (lift (talkEnd Params.default es t) Params.default.tInitFinal) true true] ++ []))

theorem afterBat_meets (m : Mode) (xs : List Sample) (t : Time) :
    afterBat (idleIn m false xs) 0xFA#8 t (afterBatSamples m t)
      (lift (talkEnd Params.default (setUpTalk (idleIn m false []) 0xFA#8) t) Params.default.tInitFinal) := by
  have h : setUpSettle (idleIn m false xs) (talkEnd Params.default (setUpTalk (idleIn m false []) 0xFA#8) t) []
      (talkEnd Params.default (setUpTalk (idleIn m false []) 0xFA#8) t) := by
    cases m <;> exact segAll_nil
  exact segAll_cons (talkSamples_meets default_legal _ _) (segAll_cons h
    (segAll_cons (waitSeg_lift (show Params.default.tInitFinal < _ by decide) rfl rfl) segAll_nil))

theorem witness_InitializePasses_remote :
    let xs := untilBatSamples 0xAA#8 ++ afterBatSamples .remote (untilBatEnd 0xAA#8)
    let s := idleIn .remote false xs
    s.busy = false ∧ s.inputs = xs ++ [] ∧ ∃ t, segSeq (untilBat s 0xFA#8 0xAA#8 0x00#8) (afterBat s 0xFA#8) (now s) xs t :=
  ⟨rfl, queued _, _, _, _, _, rfl, untilBat_meets _ _ _ _, afterBat_meets _ _ _⟩

theorem witness_InitializePasses_stream :
    let xs := untilBatSamples 0xAA#8 ++ afterBatSamples .stream (untilBatEnd 0xAA#8)
    let s := idleIn .stream false xs
    s.busy = false ∧ s.inputs = xs ++ [] ∧ ∃ t, segSeq (untilBat s 0xFA#8 0xAA#8 0x00#8) (afterBat s 0xFA#8) (now s) xs t :=
  ⟨rfl, queued _, _, _, _, _, rfl, untilBat_meets _ _ _ _, afterBat_meets _ _ _⟩

/-- A repeated INITIALIZE in Remote mode: the set-up ends with the settle wait (R186, R192). -/
theorem witness_InitializePasses_repeated :
    let u := untilBatEnd 0xAA#8
    let v := talkEnd Params.default (command 0xF0#8 0xFA#8) u
    let w := lift v Params.default.tModeSettle
    let xs := untilBatSamples 0xAA#8 ++ (talkSamples Params.default (command 0xF0#8 0xFA#8) u ++
      (settled v ++ ([linesAt (lift w Params.default.tInitFinal) true true] ++ [])))
    let s : State := { idleIn .remote false xs with initialized := true }
    s.busy = false ∧ s.inputs = xs ++ [] ∧
      ∃ t, segSeq (untilBat s 0xFA#8 0xAA#8 0x00#8) (afterBat s 0xFA#8) (now s) xs t :=
  ⟨rfl, queued _, _, _, _, _, rfl, untilBat_meets .remote false [] _,
    segAll_cons (talkSamples_meets default_legal _ _)
      (segAll_cons (segAll_cons (waitSeg_lift (show Params.default.tModeSettle < _ by decide) rfl rfl) segAll_nil)
        (segAll_cons (waitSeg_lift (show Params.default.tInitFinal < _ by decide) rfl rfl) segAll_nil))⟩

theorem witness_InitializeFails :
    let xs := untilBatSamples 0xFC#8
    let s := idleIn .remote false xs
    0xFC#8 ≠ 0xAA#8 ∧ s.busy = false ∧ s.inputs = xs ++ [] ∧
      untilBat s 0xFA#8 0xFC#8 0x00#8 (now s) xs (untilBatEnd 0xFC#8) :=
  ⟨by decide, rfl, queued _, untilBat_meets _ _ _ _⟩

theorem witness_ReservedCodesComplete :
    Instr.reservedF 0x37#8 ∈ [Instr.reservedA 0x37#8, .reservedB 0x37#8, .reservedC 0x37#8, .reservedD 0x37#8,
      .reservedE 0x37#8, .reservedF 0x37#8] ∧ State.reset.busy = false := ⟨by simp, rfl⟩

/-- A block in the middle of ENABLE_DATA_REPORTING: TX.4, Data low, Clock released (section 9, E2). -/
def granting (policy : TimeoutPolicy) : State :=
  { State.reset with
    busy := true
    opCode := some 0x7#4
    stack := [.transmit .grant, .enableReporting .afterByte]
    sh := 0xF4#8
    dataDrv := .low
    cfg := { Params.default with timeoutPolicy := policy } }

theorem granting_sound (policy : TimeoutPolicy) : Sound (granting policy) where
  idle := by intro h; cases h
  busy := fun _ => ⟨rfl, .transmit .grant, [.enableReporting .afterByte], rfl, rfl⟩
  lines := ⟨rfl, rfl⟩
  noSel := rfl

/-- The same block in TX.2, inside a `Wait` (R138). -/
def inhibiting : State := { granting .unbounded with stack := [.transmit .inhibit, .enableReporting .afterByte], clockDrv := .low, dataDrv := .rel }

theorem inhibiting_sound : Sound inhibiting where
  idle := by intro h; cases h
  busy := fun _ => ⟨by decide, .transmit .inhibit, [.enableReporting .afterByte], rfl, rfl⟩
  lines := ⟨rfl, rfl⟩
  noSel := rfl

theorem witness_BusyAcceptsNothing : (Instr.report 0#8).wellFormed = true ∧ (granting .unbounded).busy = true :=
  ⟨rfl, rfl⟩

theorem witness_OpPortIgnoredWhileBusy : (granting .unbounded).busy = true ∧
    edge (linesAt 1#32 true true) (granting .unbounded) =
      .next { granting .unbounded with pins := linesAt 1#32 true true, clk := 1 } := ⟨rfl, rfl⟩

theorem witness_ResetAtAnEdge :
    let x : Sample := { linesAt 1#32 true true with rst := true, cfgMode := .stream }
    x.rst = true ∧ ({ granting .unbounded with inputs := [x] } : State).inputs = x :: [] ∧
      (({ granting .unbounded with inputs := [x] } : State).busy = true ∨
        ({ granting .unbounded with inputs := [x] } : State).sel = none) := ⟨rfl, rfl, .inl rfl⟩

theorem witness_MissingLevelHolds :
    Sound (granting .bounded) ∧ (granting .bounded).stack = .transmit .grant :: [.enableReporting .afterByte] ∧
    (granting .bounded).busy = true ∧ (linesAt 1000#32 true true).rst = false ∧ polling (.transmit .grant) = true ∧
    lacking (.transmit .grant) (linesAt 1000#32 true true) = true ∧
    ((granting .bounded).cfg.timeoutPolicy = .bounded →
      (linesAt 1000#32 true true).nowUs - (granting .bounded).t0 ≤ (granting .bounded).cfg.tTimeout) :=
  ⟨granting_sound _, rfl, rfl, rfl, rfl, rfl, fun _ => by decide⟩

theorem witness_TimeoutRaised :
    Sound (granting .bounded) ∧ (granting .bounded).stack = .transmit .grant :: [.enableReporting .afterByte] ∧
    (granting .bounded).busy = true ∧ (linesAt 1001#32 true true).rst = false ∧ polling (.transmit .grant) = true ∧
    lacking (.transmit .grant) (linesAt 1001#32 true true) = true ∧
    (granting .bounded).cfg.timeoutPolicy = .bounded ∧
    (granting .bounded).cfg.tTimeout < (linesAt 1001#32 true true).nowUs - (granting .bounded).t0 :=
  ⟨granting_sound _, rfl, rfl, rfl, rfl, rfl, rfl, by decide⟩

theorem witness_AwaitedLevelWins :
    Sound (granting .bounded) ∧ (granting .bounded).stack = .transmit .grant :: [.enableReporting .afterByte] ∧
    (granting .bounded).busy = true ∧ (linesAt 5000#32 false true).rst = false ∧ polling (.transmit .grant) = true ∧
    lacking (.transmit .grant) (linesAt 5000#32 false true) = false :=
  ⟨granting_sound _, rfl, rfl, rfl, rfl, rfl⟩

theorem witness_UnsampledWindows :
    Sound inhibiting ∧ inhibiting.stack = .transmit .inhibit :: [.enableReporting .afterByte] ∧
    inhibiting.busy = true ∧ sampling (.transmit .inhibit) = false := ⟨inhibiting_sound, rfl, rfl, rfl⟩

theorem witness_LevelIsTheDevices :
    Sound (granting .unbounded) ∧ (granting .unbounded).stack = .transmit .grant :: [.enableReporting .afterByte] ∧
    sampling (.transmit .grant) = true := ⟨granting_sound _, rfl, rfl⟩

/-- A block in TX.8 (R143): both lines released, about to see the acknowledge. -/
def acknowledging : State :=
  { granting .unbounded with stack := [.transmit .ack, .enableReporting .afterByte], dataDrv := .rel }

theorem acknowledging_sound : Sound acknowledging where
  idle := by intro h; cases h
  busy := fun _ => ⟨by decide, .transmit .ack, [.enableReporting .afterByte], rfl, rfl⟩
  lines := ⟨rfl, rfl⟩
  noSel := rfl

theorem witness_LevelIsTheDevices_data :
    Sound acknowledging ∧ acknowledging.stack = .transmit .ack :: [.enableReporting .afterByte] ∧
    sampling (.transmit .ack) = true := ⟨acknowledging_sound, rfl, rfl⟩

/-- An idle block that has sent a byte. -/
def held : State := { State.reset with clockDrv := .low, wire := [.h2d 0xF4#8] }

theorem held_sound : Sound held where
  idle := fun _ => ⟨rfl, rfl⟩
  busy := by intro h; cases h
  lines := ⟨rfl, fun _ => rfl⟩
  noSel := rfl

theorem witness_IdleHoldsTheBus : Sound held ∧ held.busy = false ∧ held.wire ≠ [] :=
  ⟨held_sound, rfl, by simp [held]⟩

theorem witness_StackDepth : Sound (granting .unbounded) := granting_sound _

theorem witness_SoundStep :
    let s : State := { granting .unbounded with inputs := [linesAt 1#32 true true] }
    Sound s ∧ step s = .next { granting .unbounded with pins := linesAt 1#32 true true, inputs := [], clk := 1 } :=
  ⟨⟨(by intro h; cases h), (granting_sound .unbounded).busy, (granting_sound .unbounded).lines, rfl⟩, rfl⟩

theorem witness_SoundGoes : Sound held := held_sound

theorem witness_ParametersFixed :
    step { State.reset with inputs := [linesAt 1#32 true true] } =
      .next { State.reset with pins := linesAt 1#32 true true, clk := 1 } := rfl

theorem witness_StepRunsTheOpWord :
    let x := presenting (linesAt 1#32 true true) 0x900#12
    let s : State := { State.reset with inputs := [x] }
    s.busy = false ∧ s.sel = none ∧ s.inputs = x :: [] ∧ x.rst = false ∧ x.opValid = true := ⟨rfl, rfl, rfl, rfl, rfl⟩

theorem witness_StepRunsTheSelectWord :
    let s : State := { State.reset with sel := some ⟨.wireCmd8, 0xFF#24⟩ }
    s.busy = false ∧ s.sel = some ⟨.wireCmd8, 0xFF#24⟩ ∧ decode ⟨.wireCmd8, 0xFF#24⟩ = .instr .wireReset :=
  ⟨rfl, rfl, by decide⟩

theorem witness_StepWithoutAnOpWord_idle :
    let x := linesAt 1#32 true true
    let s : State := { State.reset with inputs := [x] }
    s.inputs = x :: [] ∧ s.busy = false ∧ s.sel = none ∧ x.rst = false ∧ x.opValid = false := ⟨rfl, rfl, rfl, rfl, rfl⟩

theorem witness_StepWithoutAnOpWord_busy :
    let x := linesAt 1#32 true true
    ({ granting .unbounded with inputs := [x] } : State).inputs = x :: [] ∧ (granting .unbounded).busy = true :=
  ⟨rfl, rfl⟩

theorem witness_ExecIsSteps : State.reset.busy = false ∧
    exec (decodeOp 0xF37#12) State.reset = .next { State.reset with err := .illegalOp } := ⟨rfl, rfl⟩

/-- The samples of a REPORT in Stream mode carry no reset. -/
theorem witness_ControlBitsFrame :
    let s := idleIn .stream true [linesAt 51#32 true true]
    (∀ x ∈ s.inputs, x.rst = false) ∧ (∃ s', exec (.report 0#8) s = .next s') ∧ writesMode (.report 0#8) = false ∧
      writesOk (.report 0#8) = false ∧ writesReporting (.report 0#8) = false :=
  ⟨by simp [idleIn, linesAt, Sample.quietAt], ⟨_, rfl⟩, rfl, rfl, rfl⟩

theorem witness_ResultsFrame :
    let s := idleIn .stream true [linesAt 51#32 true true]
    (∀ x ∈ s.inputs, x.rst = false) ∧ (∃ s', exec (.setResolution 3#8) s = .next s') ∧ writesOk (.setResolution 3#8) = false ∧
      writesStatus (.setResolution 3#8) = false ∧ writesDx (.setResolution 3#8) = false ∧
      writesDy (.setResolution 3#8) = false :=
  ⟨by simp [idleIn, linesAt, Sample.quietAt], ⟨_, rfl⟩, rfl, rfl, rfl, rfl⟩

theorem witness_ProtocolRegistersFrame :
    let s := idleIn .stream true [linesAt 51#32 true true]
    (∀ x ∈ s.inputs, x.rst = false) ∧ (∃ s', exec (.report 0#8) s = .next s') ∧ writesArg (.report 0#8) = false ∧
      writesBat (.report 0#8) = false ∧ writesLatch (.report 0#8) = false :=
  ⟨by simp [idleIn, linesAt, Sample.quietAt], ⟨_, rfl⟩, rfl, rfl, rfl⟩

/-- Both clauses: a byte that was on the wire before, and the argument of SET_RESOLUTION. -/
theorem witness_BytesTheHostSends_argument : handedByte (decodeOp 0x5F2#12) State.reset = some 0xF2#8 := by decide

theorem witness_BytesTheHostSends : exec (decodeOp 0xF37#12) held = .next { held with err := .illegalOp } ∧
    .h2d 0xF4#8 ∈ held.wire := ⟨rfl, by simp [held]⟩

/-- A mode command in mode `m`, after its helper's last exchange (R193, R194). -/
def changingMode (m : Mode) (code : BitVec 4) (c : Byte) (f : Frame) (xs : List Sample) : State :=
  { State.reset with
    mode := m
    busy := true
    opCode := some code
    stack := [.toggled c .afterAck, f]
    clockDrv := .low
    inputs := xs }

theorem witness_ModeTransitions_stream :
    let s := changingMode .remote 0x2#4 0xEA#8 (.setStreamMode .afterHelper) [linesAt 1#32 true true]
    s.busy = true ∧ .setStreamMode .afterHelper ∈ s.stack ∧ ∃ t, step s = .next t ∧ t.mode ≠ s.mode :=
  ⟨rfl, by simp [changingMode], _, rfl, by decide⟩

theorem witness_ModeTransitions_remote :
    let s := changingMode .stream 0x1#4 0xF0#8 (.setRemoteMode .afterHelper) [linesAt 1#32 true true]
    s.busy = true ∧ .setRemoteMode .afterHelper ∈ s.stack ∧ ∃ t, step s = .next t ∧ t.mode ≠ s.mode :=
  ⟨rfl, by simp [changingMode], _, rfl, by decide⟩

/-- A reset of an idle block. -/
theorem witness_ModeTransitions_reset :
    let x : Sample := { linesAt 1#32 true true with rst := true, cfgMode := .stream }
    let s := idleIn .remote false [x]
    x ∈ (nextSample s).1 :: (nextSample s).2 ∧ x.rst = true ∧ ∃ t, step s = .next t ∧ t.mode ≠ s.mode :=
  ⟨by simp [nextSample, idleIn], rfl, _, rfl, by decide⟩

/-- An op word that an idle block takes and runs to its end in one step. -/
theorem witness_ModeTransitions_started :
    let x := presenting (Sample.quietAt 0#32) 0x200#12
    let s := idleIn .remote false (x :: talkOf [.h2d 0xEA#8, .d2h 0xFA#8])
    started s = some (.setStreamMode 0x00#8) ∧
      (match step s with
        | .next t => t.mode == .stream && !t.busy
        | _ => false) = true := by
  decide +kernel

/-- The three ends of TRANSMIT_BYTE that the statement tells apart: it completes, it hangs in TX.4, it times out there. -/
theorem witness_TransmitDriveOrder_completes :
    let s := idleIn .remote false (deviceTakes Params.default 0#32)
    s.busy = false ∧ (s.inputs.all (fun x => !x.rst)) = true ∧
      (match exec (.transmitByte 0xF4#8) s with
        | .next t => !t.busy
        | _ => false) = true := by
  decide +kernel

/-- Samples up to the grant of TX.4, which the device never gives. -/
def noGrant : List Sample :=
  [linesAt 301#32 true true, linesAt 602#32 true true, linesAt 613#32 true true, linesAt 614#32 true true,
    linesAt 1614#32 true true]

theorem witness_TransmitDriveOrder_hangs :
    let s := idleIn .remote false noGrant
    s.busy = false ∧ (s.inputs.all (fun x => !x.rst)) = true ∧
      (match exec (.transmitByte 0xF4#8) s with
        | .next t => t.busy && t.stack == [.transmit .grant]
        | _ => false) = true := by
  decide +kernel

theorem witness_TransmitDriveOrder_timesOut :
    let s : State := { idleIn .remote false noGrant with cfg := { Params.default with timeoutPolicy := .bounded } }
    s.busy = false ∧ (s.inputs.all (fun x => !x.rst)) = true ∧
      (match exec (.transmitByte 0xF4#8) s with
        | .next t => !t.busy && t.err == .timeout
        | _ => false) = true := by
  decide +kernel

theorem witness_InitializedNeverCleared_edge :
    let s : State := { granting .bounded with initialized := true }
    (linesAt 1001#32 true true).rst = false ∧ s.initialized = true ∧ ∃ t, edge (linesAt 1001#32 true true) s = .next t :=
  ⟨rfl, rfl, _, rfl⟩

/-- INITIALIZE of an initialized block, left in its first wait. -/
theorem witness_InitializedNeverCleared_exec :
    let s : State := { idleIn .stream true [linesAt 51#32 true true] with initialized := true }
    (∀ x ∈ s.inputs, x.rst = false) ∧ s.initialized = true ∧ ∃ t, exec (.initializeLink 0x00#8) s = .next t :=
  ⟨by simp [idleIn, linesAt, Sample.quietAt], rfl, _, rfl⟩

/-- "Get device ID" is no command of the table, and no argument is due at reset. -/
theorem witness_UnknownCommandRefused :
    0xF2#8 ∉ commandBytes ∧ State.reset.busy = false ∧ argumentDue State.reset = false := by decide

/-- SET_RESOLUTION's bytes 0xE8, ack, 0xE8, ack: the argument is not taken for a command. -/
theorem witness_ArgumentDue : argumentDue State.reset = false ∧ (0xE8#8 = 0xE8#8 ∨ 0xE8#8 = 0xF3#8) ∧
    argumentDueAfter [.d2h 0xFA#8, .h2d 0xE8#8] = true ∧
    argumentDueAfter [.d2h 0xFA#8, .h2d 0xE8#8, .d2h 0xFA#8, .h2d 0xE8#8] = false := by decide

theorem witness_SelectWordRefused :
    let s : State := { State.reset with sel := some ⟨.tReq2, 0b11#24⟩ }
    s.busy = false ∧ s.sel = some ⟨.tReq2, 0b11#24⟩ ∧ decode ⟨.tReq2, 0b11#24⟩ = .reject .unusedTransportCode :=
  ⟨rfl, rfl, by decide⟩

theorem witness_ResultPorts_report :
    let es : List WireEvent := reportTalk (idleIn .stream true []) 0xFA#8 0x28#8 0x03#8 0xFB#8
    let s := idleIn .stream true (talkOf es)
    s.busy = false ∧ s.inputs = talkOf es ++ [] ∧
      talkSeg s.cfg (reportTalk s 0xFA#8 0x28#8 0x03#8 0xFB#8) (now s) (talkOf es) (talkEnd Params.default es 0#32) :=
  witness_ReportCompletes_stream

theorem witness_ResultPorts_passes :
    let xs := untilBatSamples 0xAA#8 ++ afterBatSamples .remote (untilBatEnd 0xAA#8)
    let s := idleIn .remote false xs
    s.busy = false ∧ s.inputs = xs ++ [] ∧ ∃ t, segSeq (untilBat s 0xFA#8 0xAA#8 0x00#8) (afterBat s 0xFA#8) (now s) xs t :=
  witness_InitializePasses_remote

theorem witness_ResultPorts_fails :
    let xs := untilBatSamples 0xFC#8
    let s := idleIn .remote false xs
    0xFC#8 ≠ 0xAA#8 ∧ s.busy = false ∧ s.inputs = xs ++ [] ∧
      untilBat s 0xFA#8 0xFC#8 0x00#8 (now s) xs (untilBatEnd 0xFC#8) :=
  witness_InitializeFails

end Sys2Proof.Tests.Slice0
end

/-! The parameters of the instantiation are kept: by the position combinators, by each operation's steps, by the
sequencer, by every instruction, and so by every step (R7, R8, R21). -/

namespace Sys2Proof.Machine

@[simp] theorem driveBit_cfg (l : Line) (b : Bool) (s : State) : (driveBit l b s).cfg = s.cfg := by cases l <;> rfl

@[simp] theorem keepMovement_cfg (a : Axis) (s : State) : (keepMovement a s).cfg = s.cfg := by cases a <;> rfl

@[simp] theorem present_cfg (xs : List Sample) (s : State) : (present xs s).cfg = s.cfg := rfl

@[simp] theorem idleSampled_cfg (s : State) : (idleSampled s).cfg = s.cfg := rfl

@[simp] theorem resetEdge_cfg (s : State) : (resetEdge s).cfg = s.cfg := rfl

/-! The combinators keep the parameters where what they go on with does. The lemmas about a step that hold by computation are
proved by `(rfl)`: `simp` then rewrites with them as propositions, which it must do to prove the combinators' premises. -/

section combinators
variable {k callee : State → Ran}

@[simp] theorem goto_cfg (f : Frame) (s : State) : (goto f s).1.cfg = s.cfg := (rfl)

@[simp] theorem enterWait_cfg (f : Frame) (s : State) : (enterWait f s).1.cfg = s.cfg := (rfl)

@[simp] theorem enterPoll_cfg (f : Frame) (s : State) : (enterPoll f s).1.cfg = s.cfg := armPoll_cfg s

@[simp] theorem return'_cfg (s : State) : (return' s).1.cfg = s.cfg := (rfl)

@[simp] theorem waitThen_cfg (hk : ∀ s, (k s).1.cfg = s.cfg) (n : Time) (f : Frame) (s : State) :
    (waitThen n f k s).1.cfg = s.cfg := by
  obtain ⟨h, -⟩ | ⟨h, -⟩ := waitThen_cases n f k s
  · rw [h]
  · rw [h, hk]

@[simp] theorem pollThen_cfg (hk : ∀ s, (k s).1.cfg = s.cfg) (c : Bool) (f : Frame) (s : State) :
    (pollThen c f k s).1.cfg = s.cfg := by
  obtain ⟨h, -⟩ | ⟨h, -⟩ | ⟨h, -⟩ := pollThen_cases c f k s
  · rw [h]
  · rw [h]
  · rw [h, hk]

@[simp] theorem callThen_cfg (hc : ∀ s, (callee s).1.cfg = s.cfg) (hk : ∀ s, (k s).1.cfg = s.cfg) (f : Frame)
    (s : State) : (callThen callee f k s).1.cfg = s.cfg := by
  have h := hc s
  unfold callThen
  generalize callee s = r at h
  obtain ⟨s', fs | _ | _ | _ | _⟩ := r
  case ret => exact (hk s').trans h
  all_goals exact h

end combinators

/-! Transport (40_transport.md). -/

@[simp] theorem transmitStart_cfg (v : Byte) (s : State) : (transmitStart v s).1.cfg = s.cfg := (rfl)

@[simp] theorem enterSlot_cfg (i : BitVec 4) (s : State) : (enterSlot i s).1.cfg = s.cfg := by simp [enterSlot]

@[simp] theorem nextSlot_cfg (s : State) : (nextSlot s).1.cfg = s.cfg := by
  unfold nextSlot
  split_ifs <;> simp

@[simp] theorem transmitDone_cfg (s : State) : (transmitDone s).1.cfg = s.cfg := (rfl)

@[simp] theorem transmitStep_cfg (p : TxPos) (s : State) : (transmitStep p s).1.cfg = s.cfg := by
  cases p <;> simp [transmitStep]

@[simp] theorem readBitStart_cfg (s : State) : (readBitStart s).1.cfg = s.cfg := enterPoll_cfg _ s

@[simp] theorem readBitStep_cfg (p : RbPos) (s : State) : (readBitStep p s).1.cfg = s.cfg := by
  cases p <;> simp [readBitStep]

@[simp] theorem readSlot_cfg (i : BitVec 4) (s : State) : (readSlot i s).1.cfg = s.cfg := by simp [readSlot]

@[simp] theorem receiveDone_cfg (s : State) : (receiveDone s).1.cfg = s.cfg := (rfl)

@[simp] theorem slotRead_cfg (s : State) : (slotRead s).1.cfg = s.cfg := by
  unfold slotRead
  split_ifs <;> simp

@[simp] theorem receiveStart_cfg (s : State) : (receiveStart s).1.cfg = s.cfg := (rfl)

@[simp] theorem receiveStep_cfg (p : RxPos) (s : State) : (receiveStep p s).1.cfg = s.cfg := by
  cases p with
  | soft => unfold receiveStep; split_ifs <;> simp
  | _ => simp [receiveStep]

@[simp] theorem callTransmit_cfg (v : Byte) (f : Frame) (s : State) : (callTransmit v f s).1.cfg = s.cfg := (rfl)

@[simp] theorem callReceive_cfg (f : Frame) (s : State) : (callReceive f s).1.cfg = s.cfg := (rfl)

/-! Mode and configuration commands (42_config.md). -/

@[simp] theorem enableStart_cfg (s : State) : (enableStart s).1.cfg = s.cfg := by
  unfold enableStart
  split_ifs <;> simp

@[simp] theorem enableStep_cfg (p : CmdPos) (s : State) : (enableStep p s).1.cfg = s.cfg := by
  cases p <;> simp [enableStep]

@[simp] theorem disableStart_cfg (s : State) : (disableStart s).1.cfg = s.cfg := by
  unfold disableStart
  split_ifs <;> simp

@[simp] theorem disableStep_cfg (p : CmdPos) (s : State) : (disableStep p s).1.cfg = s.cfg := by
  cases p <;> simp [disableStep]

@[simp] theorem toggledCommand_cfg (c : Byte) (s : State) : (toggledCommand c s).1.cfg = s.cfg := (rfl)

@[simp] theorem toggledStart_cfg (c : Byte) (s : State) : (toggledStart c s).1.cfg = s.cfg := by
  unfold toggledStart
  dsimp only
  split_ifs <;> simp

@[simp] theorem toggledStep_cfg (c : Byte) (p : ToggledPos) (s : State) : (toggledStep c p s).1.cfg = s.cfg := by
  cases p with
  | afterAck => unfold toggledStep; dsimp only; split_ifs <;> simp
  | _ => simp [toggledStep]

@[simp] theorem finishMode_cfg (m : Mode) (f : Frame) (s : State) : (finishMode m f s).1.cfg = s.cfg := by
  unfold finishMode
  dsimp only
  split_ifs <;> simp

@[simp] theorem setRemoteModeStart_cfg (s : State) : (setRemoteModeStart s).1.cfg = s.cfg := by
  simp [setRemoteModeStart]

@[simp] theorem setRemoteModeStep_cfg (p : ModePos) (s : State) : (setRemoteModeStep p s).1.cfg = s.cfg := by
  cases p <;> simp [setRemoteModeStep]

@[simp] theorem setStreamModeStart_cfg (s : State) : (setStreamModeStart s).1.cfg = s.cfg := by
  simp [setStreamModeStart]

@[simp] theorem setStreamModeStep_cfg (p : ModePos) (s : State) : (setStreamModeStep p s).1.cfg = s.cfg := by
  cases p <;> simp [setStreamModeStep]

@[simp] theorem setScaling21Start_cfg (s : State) : (setScaling21Start s).1.cfg = s.cfg := by simp [setScaling21Start]

@[simp] theorem setScaling11Start_cfg (s : State) : (setScaling11Start s).1.cfg = s.cfg := by simp [setScaling11Start]

@[simp] theorem resolutionCommand_cfg (s : State) : (resolutionCommand s).1.cfg = s.cfg := (rfl)

@[simp] theorem setResolutionStart_cfg (r : Byte) (s : State) : (setResolutionStart r s).1.cfg = s.cfg := by
  unfold setResolutionStart
  dsimp only
  split_ifs <;> simp

@[simp] theorem setResolutionStep_cfg (p : ArgPos) (s : State) : (setResolutionStep p s).1.cfg = s.cfg := by
  cases p with
  | afterArgumentAck => unfold setResolutionStep; dsimp only; split_ifs <;> simp
  | _ => simp [setResolutionStep]

@[simp] theorem sampleRateCommand_cfg (s : State) : (sampleRateCommand s).1.cfg = s.cfg := (rfl)

@[simp] theorem setSampleRateStart_cfg (n : Byte) (s : State) : (setSampleRateStart n s).1.cfg = s.cfg := by
  unfold setSampleRateStart
  dsimp only
  split_ifs <;> simp

@[simp] theorem setSampleRateStep_cfg (p : ArgPos) (s : State) : (setSampleRateStep p s).1.cfg = s.cfg := by
  cases p with
  | afterArgumentAck => unfold setSampleRateStep; dsimp only; split_ifs <;> simp
  | _ => simp [setSampleRateStep]

@[simp] theorem cmdStart_cfg (c : Byte) (s : State) : (cmdStart c s).1.cfg = s.cfg := (rfl)

@[simp] theorem cmdStep_cfg (p : CmdPos) (s : State) : (cmdStep p s).1.cfg = s.cfg := by cases p <;> rfl

@[simp] theorem cmdThenArgStart_cfg (c a : Byte) (s : State) : (cmdThenArgStart c a s).1.cfg = s.cfg := (rfl)

@[simp] theorem cmdThenArgStep_cfg (a : Byte) (p : CmdPos) (s : State) : (cmdThenArgStep a p s).1.cfg = s.cfg := by
  cases p <;> rfl

/-! INITIALIZE (41_init.md). -/

@[simp] theorem initStart_cfg (s : State) : (initStart s).1.cfg = s.cfg := (rfl)

@[simp] theorem initFinal_cfg (s : State) : (initFinal s).1.cfg = s.cfg := (rfl)

@[simp] theorem initSetUp_cfg (s : State) : (initSetUp s).1.cfg = s.cfg := by
  unfold initSetUp
  split <;> simp

@[simp] theorem initTest_cfg (s : State) : (initTest s).1.cfg = s.cfg := by
  unfold initTest
  split_ifs <;> simp

@[simp] theorem initStep_cfg (p : InitPos) (s : State) : (initStep p s).1.cfg = s.cfg := by
  cases p <;> simp [initStep]

@[simp] theorem batResponseStart_cfg (s : State) : (batResponseStart s).1.cfg = s.cfg := (rfl)

@[simp] theorem batResponseStep_cfg (s : State) : (batResponseStep s).1.cfg = s.cfg := (rfl)

/-! REPORT and the decoders (43_report.md). -/

@[simp] theorem decodeStart_cfg (a : Axis) (s : State) : (decodeStart a s).1.cfg = s.cfg := (rfl)

@[simp] theorem decodeStep_cfg (a : Axis) (s : State) : (decodeStep a s).1.cfg = s.cfg := by simp [decodeStep]

@[simp] theorem reportRead_cfg (s : State) : (reportRead s).1.cfg = s.cfg := (rfl)

@[simp] theorem reportStart_cfg (s : State) : (reportStart s).1.cfg = s.cfg := by
  unfold reportStart
  split <;> simp

@[simp] theorem reportY_cfg (s : State) : (reportY s).1.cfg = s.cfg := by simp [reportY]

@[simp] theorem reportStep_cfg (p : ReportPos) (s : State) : (reportStep p s).1.cfg = s.cfg := by
  cases p <;> simp [reportStep]

/-! The sequencer (R28). -/

theorem frameStep_cfg (f : Frame) (s : State) : (frameStep f s).1.cfg = s.cfg := by
  cases f <;> simp [frameStep]

section sequencer
variable {s t : State}

theorem resume_cfg {k : List Frame} (h : resume k s = .next t) : t.cfg = s.cfg := by
  induction k generalizing s with
  | nil =>
    cases h
    exact opEnd_cfg s
  | cons f k ih =>
    have hf := frameStep_cfg f s
    rw [resume_cons] at h
    obtain ⟨s', fs, hr, rfl⟩ | ⟨s', hr, h⟩ | ⟨s', hr, -, rfl⟩ | ⟨s', hr, -, rfl⟩ | ⟨s', hr, rfl⟩ := conclude_cases h <;>
      rw [hr] at hf
    case inr.inl => exact (ih h).trans hf
    all_goals exact hf

theorem edge_cfg {x : Sample} (h : edge x s = .next t) : t.cfg = s.cfg := by
  obtain ⟨-, he⟩ | ⟨-, he⟩ := edge_cases x s <;> rw [he] at h
  · cases h
    rfl
  · exact (resume_cfg h).trans (sampled_cfg x s)

theorem run_cfg {xs : List Sample} (h : run xs s = .next t) : t.cfg = s.cfg := by
  induction xs generalizing s with
  | nil =>
    cases h
    rfl
  | cons x xs ih =>
    cases hb : s.busy with
    | false =>
      rw [run_idle hb] at h
      cases h
      rfl
    | true =>
      rw [run, if_pos hb] at h
      cases he : edge x s with
      | next s' =>
        rw [he] at h
        exact (ih h).trans (edge_cfg he)
      | fault e => simp [he] at h
      | refused e => simp [he] at h

/-- How an operation that answers a next state began: it was not accepted, it blocked and ran on over the queued samples, it
ended at once, or it timed out at once (R28, R105). -/
theorem start_cases {code : Option (BitVec 4)} {op : State → Ran} (h : start code op s = .next t) :
    s.busy = true ∧ t = s ∨
    s.busy = false ∧ (∃ s' fs, op (accepted code s) = (s', .block fs) ∧ run s'.inputs { s' with stack := fs } = .next t) ∨
    s.busy = false ∧ (∃ s', (op (accepted code s) = (s', .ret) ∨ op (accepted code s) = (s', .hold)) ∧ t = opEnd s') ∨
    s.busy = false ∧ (∃ s', op (accepted code s) = (s', .timeout) ∧ t = raiseTimeout s') := by
  cases hb : s.busy with
  | true =>
    rw [start_busy hb] at h
    cases h
    exact .inl ⟨rfl, rfl⟩
  | false =>
    rw [start, if_neg (by simp [hb]), ← accepted] at h
    generalize op (accepted code s) = r at h
    obtain ⟨s', fs | _ | _ | _ | _⟩ := r
    case block => exact .inr (.inl ⟨rfl, s', fs, rfl, h⟩)
    all_goals cases h
    · exact .inr (.inr (.inl ⟨rfl, s', .inl rfl, rfl⟩))
    · exact .inr (.inr (.inl ⟨rfl, s', .inr rfl, rfl⟩))
    · exact .inr (.inr (.inr ⟨rfl, s', rfl, rfl⟩))

/-! Every way to start an operation, and so every instruction. -/

section starts
variable {op : State → Ran} (hop : ∀ s, (op s).1.cfg = s.cfg)
include hop

theorem start_cfg {code : Option (BitVec 4)} (h : start code op s = .next t) : t.cfg = s.cfg := by
  have ha : (op (accepted code s)).1.cfg = s.cfg := hop (accepted code s)
  obtain ⟨-, rfl⟩ | ⟨-, s', fs, hr, h⟩ | ⟨-, s', hr | hr, rfl⟩ | ⟨-, s', hr, rfl⟩ := start_cases h
  · rfl
  · rw [hr] at ha
    exact (run_cfg h).trans ha
  all_goals
    rw [hr] at ha
    exact ha

theorem startWith_cfg {xs : List Sample} (h : startWith xs op s = .next t) : t.cfg = s.cfg := by
  unfold startWith at h
  split_ifs at h
  · cases h
    rfl
  · exact (start_cfg hop h).trans (present_cfg xs s)

theorem startCommand_cfg {c : Byte} {sends : Bool} (h : startCommand c sends op s = .next t) : t.cfg = s.cfg := by
  obtain ⟨-, he⟩ | ⟨-, -, he⟩ | ⟨-, -, he⟩ := startCommand_cases c sends op s <;> rw [he] at h
  · cases h
    rfl
  · exact start_cfg hop h
  · cases h

end starts

theorem startIllegal_cfg (h : startIllegal s = .next t) : t.cfg = s.cfg := by
  unfold startIllegal at h
  split_ifs at h <;> cases h <;> rfl

theorem execFrameH2D_cfg {v : Byte} {parity : Bool} (h : execFrameH2D v parity s = .next t) : t.cfg = s.cfg := by
  unfold execFrameH2D at h
  split_ifs at h
  exact start_cfg (transmitStart_cfg v) h

theorem exec_cfg {i : Instr} (h : exec i s = .next t) : t.cfg = s.cfg := by
  cases i with
  | initializeLink => exact start_cfg initStart_cfg h
  | setRemoteMode => exact start_cfg setRemoteModeStart_cfg h
  | setStreamMode => exact start_cfg setStreamModeStart_cfg h
  | setScaling21 => exact start_cfg setScaling21Start_cfg h
  | setScaling11 => exact start_cfg setScaling11Start_cfg h
  | setResolution r => exact start_cfg (setResolutionStart_cfg r) h
  | setSampleRate n => exact start_cfg (setSampleRateStart_cfg n) h
  | enableDataReporting => exact start_cfg enableStart_cfg h
  | disableDataReporting => exact start_cfg disableStart_cfg h
  | report => exact start_cfg reportStart_cfg h
  | reservedA | reservedB | reservedC | reservedD | reservedE | reservedF => exact startIllegal_cfg h
  | wireReset | wireSetRemoteMode | wireSetStreamMode | wireSetScaling21 | wireSetScaling11
  | wireEnableDataReporting | wireDisableDataReporting | wireReadData => exact start_cfg (cmdStart_cfg _) h
  | wireSetResolution v | wireSetSampleRate v => exact start_cfg (cmdThenArgStart_cfg _ v) h
  | respBatPass => exact startWith_cfg batResponseStart_cfg h
  | respAck | respDeviceId | frameD2H => exact startWith_cfg receiveStart_cfg h
  | frameH2D => exact execFrameH2D_cfg h
  | movementReport => exact startWith_cfg reportRead_cfg h
  | transmitByte v => exact start_cfg (transmitStart_cfg v) h
  | receiveByte => exact start_cfg receiveStart_cfg h
  | readBit => exact start_cfg readBitStart_cfg h
  | decodeX | decodeY => exact start_cfg (decodeStart_cfg _) h
  | cmd c => exact startCommand_cfg (cmdStart_cfg c) h
  | cmdToggled c => exact startCommand_cfg (toggledStart_cfg c) h

theorem execWord_cfg {w : PortWord} (h : execWord w s = .next t) : t.cfg = s.cfg := by
  unfold execWord at h
  split at h
  · exact exec_cfg h
  · cases h

theorem step_cfg (h : step s = .next t) : t.cfg = s.cfg := by
  obtain ⟨-, he⟩ | ⟨-, w, -, he⟩ | ⟨-, -, -, he⟩ | ⟨-, -, -, -, he⟩ | ⟨-, -, -, -, he⟩ := step_cases s <;> rw [he] at h
  · exact (edge_cfg h).trans rfl
  · exact (execWord_cfg h).trans rfl
  · cases h
    rfl
  · exact (execWord_cfg h).trans (idleSampled_cfg s)
  · cases h
    exact idleSampled_cfg s

end sequencer

/-- Settles O44: the step function keeps the parameters in each of its cases. -/
theorem parametersFixed : Obligations.ParametersFixed := fun _ _ h => step_cfg h

end Sys2Proof.Machine

/-! Sound states: reset, the bus hold, the depth of the stack, and a sound state that a step leaves unsound (R28, R33,
R34). -/

namespace Sys2Proof.Machine

/-- Settles O32: the values that R34 gives are those of the state after reset. -/
theorem resetValues : Obligations.ResetValues := fun _ _ => ⟨rfl, rfl, rfl, rfl, rfl, rfl, rfl, rfl, rfl⟩

/-- An idle state with both lines released, no exchange on record and no select word is sound. -/
theorem sound_of_released {s : State} (hb : s.busy = false) (hk : s.stack = []) (hc : s.opCode = none)
    (hd : s.dataDrv = .rel) (hw : s.wire = []) (hs : s.sel = none) : Sound s where
  idle _ := ⟨hk, hc⟩
  busy h := absurd h (by simp [hb])
  lines := by simp [linesFit, hk, hd, hw]
  noSel := hs

/-- Settles O41: after reset nothing has been exchanged and both lines are released. -/
theorem soundReset : Obligations.SoundReset := fun _ _ => sound_of_released rfl rfl rfl rfl rfl rfl

/-- Settles O39: idle means an empty stack, where `linesFit` is the bus hold. -/
theorem idleHoldsTheBus : Obligations.IdleHoldsTheBus := by
  intro s hs hb hw
  obtain ⟨hk, -⟩ := hs.idle hb
  have hl := hs.lines
  rw [linesFit, hk] at hl
  exact ⟨hl.2 hw, hl.1⟩

/-- How many calls may still be made above a frame: each call goes to an operation of lower rank (R28). -/
def callRank (f : Frame) : Nat :=
  match f with
  | .transmit _ | .readBit _ | .cmd _ | .cmdThenArg _ _ | .batResponse => 1
  | .receive _ => 2
  | .enableReporting _ | .disableReporting _ | .decode _ => 3
  | .toggled _ _ | .report _ => 4
  | .setRemoteMode _ | .setStreamMode _ | .setScaling21 | .setScaling11 | .setResolution _ | .setSampleRate _ => 5
  | .initLink _ => 6

theorem callRank_le (f : Frame) : callRank f ≤ 6 := by cases f <;> simp [callRank]

theorem callRank_pos (f : Frame) : 1 ≤ callRank f := by cases f <;> simp [callRank]

theorem callRank_lt_of_awaits {g f : Frame} (h : awaits g f = true) : callRank f < callRank g := by
  unfold awaits at h
  split at h <;> simp_all [callRank]

/-- A legal chain climbs in rank from the innermost frame to its foot. -/
theorem length_add_callRank_le {code : Option (BitVec 4)} {f : Frame} {k : List Frame}
    (h : legalChain code (f :: k) = true) : (f :: k).length + callRank f ≤ 7 := by
  induction k generalizing f with
  | nil => simpa [Nat.add_comm] using Nat.add_le_add_left (callRank_le f) 1
  | cons g k ih =>
    rw [legalChain, Bool.and_eq_true] at h
    obtain ⟨hcall, hrest⟩ := h
    have h1 := callRank_lt_of_awaits hcall
    have h2 := ih hrest
    simp only [List.length_cons] at h2 ⊢
    omega

/-- Settles O40: an idle stack is empty, a busy one is a legal chain, whose ranks bound its length. -/
theorem stackDepth : Obligations.StackDepth := by
  intro s hs
  cases hb : s.busy with
  | false => simp [(hs.idle hb).1]
  | true =>
    obtain ⟨hchain, f, k, hk, -⟩ := hs.busy hb
    rw [hk] at hchain ⊢
    have h1 := length_add_callRank_le hchain
    have h2 := callRank_pos f
    omega

/-- ENABLE_DATA_REPORTING at the grant of its first byte, with the running parity set, and a DEVICE that grants at the
next edge. `linesFit` asks for the parity only from slot 0 on; on a run from reset TX.1 has cleared it (R137). -/
def grantedWithParity : State :=
  { State.reset with
    busy := true
    opCode := some 0x7#4
    stack := [.transmit .grant, .enableReporting .afterByte]
    dataDrv := .low
    par := true
    inputs := [linesAt 0#32 false true] }

theorem grantedWithParity_sound : Sound grantedWithParity where
  idle h := by cases h
  busy _ := ⟨by decide, _, _, rfl, rfl⟩
  lines := ⟨rfl, rfl⟩
  noSel := rfl

/-- Slot 0 adds its data bit to the parity that was there: it stands at 1 where the byte sent so far has parity 0. -/
theorem grantedWithParity_step :
    step grantedWithParity = .next
      { grantedWithParity with
        stack := [.transmit .slotLow, .enableReporting .afterByte]
        drives := [(.data, .low)]
        pins := linesAt 0#32 false true
        inputs := []
        clk := 1 } := rfl

/-- Refutes O42: `Sound` says nothing of `par` before slot 0, so a sound state at the grant may hold `par` = 1, and
the step to slot 0 carries it into a parity that does not fit. -/
theorem not_soundStep : ¬ Obligations.SoundStep := by
  intro h
  have hs := (h _ _ grantedWithParity_sound grantedWithParity_step).lines
  obtain ⟨-, -, -, hpar⟩ := hs
  exact absurd hpar (by decide)

end Sys2Proof.Machine

/-! What an operation leaves as it was, for any predicate on the state: a predicate that reads nothing of a byte
exchange, and that the registers' own updates respect, survives each operation's steps, the sequencer, and every
instruction that makes only such updates, whether it completes, hangs or times out. -/

namespace Sys2Proof.Machine

/-- The state with everything blanked that any byte exchange or clock edge writes: the lines, the registers of a byte
exchange, the timer, the ports, the sequencer's position and the records (R22, R26, R28, R32; log entries 3 and 11).
-/
def registers (s : State) : State :=
  { s with
    clockDrv := .rel, dataDrv := .rel, sh := 0#8, par := false, bitidx := 0#4, samp := false, stack := [], t0 := 0#32
    tResult := 0#8, pins := Sample.quietAt 0#32, inputs := [], clk := 0, wire := [], drives := [] }

@[simp] theorem registers_drive (l : Line) (d : Drv) (s : State) : registers (drive l d s) = registers s := by
  cases l <;> rfl

@[simp] theorem registers_armTimer (s : State) : registers (armTimer s) = registers s := rfl

@[simp] theorem registers_armPoll (s : State) : registers (armPoll s) = registers s := by
  obtain ⟨h, -⟩ | ⟨h, -⟩ := armPoll_cases s <;> simp [h]

@[simp] theorem registers_loadByte (v : Byte) (s : State) : registers (loadByte v s) = registers s := rfl

@[simp] theorem registers_clearByte (s : State) : registers (clearByte s) = registers s := rfl

@[simp] theorem registers_setBitidx (i : BitVec 4) (s : State) : registers (setBitidx i s) = registers s := rfl

@[simp] theorem registers_accumulateParity (b : Bool) (s : State) : registers (accumulateParity b s) = registers s := rfl

@[simp] theorem registers_driveSlot (s : State) : registers (driveSlot s) = registers s := by
  unfold driveSlot
  split_ifs <;> simp [driveBit]

@[simp] theorem registers_takeSample (s : State) : registers (takeSample s) = registers s := rfl

@[simp] theorem registers_storeSample (s : State) : registers (storeSample s) = registers s := by
  unfold storeSample
  split <;> rfl

@[simp] theorem registers_returnByte (s : State) : registers (returnByte s) = registers s := rfl

@[simp] theorem registers_logWire (e : WireEvent) (s : State) : registers (logWire e s) = registers s := rfl

@[simp] theorem registers_sampled (x : Sample) (s : State) : registers (sampled x s) = registers s := rfl

@[simp] theorem registers_present (xs : List Sample) (s : State) : registers (present xs s) = registers s := rfl

theorem registers_withStack (k : List Frame) (s : State) : registers { s with stack := k } = registers s := rfl

theorem registers_withInputs (xs : List Sample) (s : State) : registers { s with inputs := xs } = registers s := rfl

/-- `Q` reads nothing that a byte exchange or a clock edge writes. -/
def Steady (Q : State → Prop) : Prop := ∀ ⦃s t : State⦄, registers t = registers s → Q s → Q t

/-- The update `u` respects `Q`. -/
abbrev Closed (Q : State → Prop) (u : State → State) : Prop := ∀ s, Q s → Q (u s)

/-- The updates of ENABLE_ and DISABLE_DATA_REPORTING respect `Q` (R199, R200). -/
abbrev ReportingClosed (Q : State → Prop) : Prop := ∀ b, Closed Q (setReporting b)

/-- The updates of CMD_TOGGLED respect `Q` (R191). -/
abbrev ToggleClosed (Q : State → Prop) : Prop := Closed Q latchGuard ∧ ReportingClosed Q

/-- The updates of SET_REMOTE_MODE and SET_STREAM_MODE respect `Q` (R193, R194). -/
abbrev ModeClosed (Q : State → Prop) : Prop := (∀ m, Closed Q (setMode m)) ∧ ToggleClosed Q

/-- The updates that remain to an operation at `f`, with those of the operations it calls, respect `Q` (R23 to R30). -/
def Harmless (Q : State → Prop) (f : Frame) : Prop :=
  match f with
  | .initLink _ => Closed Q keepBat ∧ Closed Q failInit ∧ Closed Q passInit ∧ ModeClosed Q
  | .setRemoteMode _ | .setStreamMode _ => ModeClosed Q
  | .setScaling21 | .setScaling11 | .toggled _ _ => ToggleClosed Q
  | .setResolution _ | .setSampleRate _ | .enableReporting _ | .disableReporting _ => ReportingClosed Q
  | .report _ => Closed Q keepStatus ∧ Closed Q (keepMovement .x) ∧ Closed Q (keepMovement .y)
  | .decode a => Closed Q (keepMovement a)
  | .batResponse => Closed Q keepBat
  | .transmit _ | .receive _ | .readBit _ | .cmd _ | .cmdThenArg _ _ => True

/-- A step keeps `Q`, and where it blocks the frames that it leaves will keep it too. -/
def Keeps (Q : State → Prop) (r : Ran) : Prop := Q r.1 ∧ ∀ fs, r.2 = .block fs → ∀ f ∈ fs, Harmless Q f

section keeps
variable {Q : State → Prop} {s : State} {f : Frame} {k callee : State → Ran}

/-! The position combinators. -/

theorem goto_keeps (hf : Harmless Q f) (h : Q s) : Keeps Q (goto f s) := ⟨h, by rintro _ ⟨⟩; simpa using hf⟩

theorem return'_keeps (h : Q s) : Keeps Q (return' s) := ⟨h, by rintro _ ⟨⟩⟩

theorem waitThen_keeps {n : Time} (hf : Harmless Q f) (h : Q s) (hk : Keeps Q (k s)) : Keeps Q (waitThen n f k s) := by
  obtain ⟨e, -⟩ | ⟨e, -⟩ := waitThen_cases n f k s <;> rw [e]
  · exact goto_keeps hf h
  · exact hk

theorem pollThen_keeps {c : Bool} (hf : Harmless Q f) (h : Q s) (hk : Keeps Q (k s)) : Keeps Q (pollThen c f k s) := by
  obtain ⟨e, -⟩ | ⟨e, -⟩ | ⟨e, -⟩ := pollThen_cases c f k s <;> rw [e]
  · exact goto_keeps hf h
  · exact ⟨h, by rintro _ ⟨⟩⟩
  · exact hk

theorem callThen_keeps (hf : Harmless Q f) (hc : Keeps Q (callee s)) (hk : ∀ s, Q s → Keeps Q (k s)) :
    Keeps Q (callThen callee f k s) := by
  unfold callThen
  generalize callee s = r at hc
  obtain ⟨s', fs | _ | _ | _ | _⟩ := r <;> obtain ⟨hs, hfs⟩ := hc
  case block =>
    refine ⟨hs, ?_⟩
    rintro _ ⟨⟩ g hg
    obtain hg | rfl := by simpa using hg
    · exact hfs fs rfl g hg
    · exact hf
  case ret => exact hk s' hs
  case hold => exact goto_keeps hf hs
  all_goals exact ⟨hs, by rintro _ ⟨⟩⟩

section steady
variable (hQ : Steady Q)
include hQ

theorem enterWait_keeps (hf : Harmless Q f) (h : Q s) : Keeps Q (enterWait f s) :=
  goto_keeps hf (hQ (registers_armTimer s) h)

theorem enterPoll_keeps (hf : Harmless Q f) (h : Q s) : Keeps Q (enterPoll f s) :=
  goto_keeps hf (hQ (registers_armPoll s) h)

/-! Transport (40_transport.md): nothing but registers of a byte exchange is written. -/

theorem transmitStart_keeps (v : Byte) (h : Q s) : Keeps Q (transmitStart v s) :=
  enterWait_keeps hQ trivial (hQ (by simp) h)

theorem enterSlot_keeps (i : BitVec 4) (h : Q s) : Keeps Q (enterSlot i s) :=
  enterPoll_keeps hQ trivial (hQ (by simp) h)

theorem nextSlot_keeps (h : Q s) : Keeps Q (nextSlot s) := by
  unfold nextSlot
  split_ifs
  · exact enterSlot_keeps hQ _ h
  · exact enterWait_keeps hQ trivial h
  · exact ⟨h, by rintro _ ⟨⟩⟩

theorem transmitDone_keeps (h : Q s) : Keeps Q (transmitDone s) :=
  ⟨hQ (by simp [transmitDone]) h, by rintro _ ⟨⟩⟩

theorem transmitStep_keeps (p : TxPos) (h : Q s) : Keeps Q (transmitStep p s) := by
  cases p with
  | settle | inhibit => exact waitThen_keeps trivial h (enterWait_keeps hQ trivial (hQ (by simp) h))
  | start => exact waitThen_keeps trivial h (enterPoll_keeps hQ trivial (hQ (by simp) h))
  | grant => exact pollThen_keeps trivial h (enterSlot_keeps hQ _ h)
  | slotLow => exact pollThen_keeps trivial h (enterPoll_keeps hQ trivial h)
  | slotHigh => exact pollThen_keeps trivial h (nextSlot_keeps hQ h)
  | post => exact waitThen_keeps trivial h (enterPoll_keeps hQ trivial h)
  | ack => exact pollThen_keeps trivial h (transmitDone_keeps hQ h)

theorem readBitStart_keeps (h : Q s) : Keeps Q (readBitStart s) := enterPoll_keeps hQ trivial h

theorem readBitStep_keeps (p : RbPos) (h : Q s) : Keeps Q (readBitStep p s) := by
  cases p with
  | waitLow => exact pollThen_keeps trivial h (goto_keeps trivial h)
  | sample => exact enterPoll_keeps hQ trivial (hQ (by simp) h)
  | waitHigh => exact pollThen_keeps trivial h (return'_keeps h)

theorem readSlot_keeps (i : BitVec 4) (h : Q s) : Keeps Q (readSlot i s) :=
  callThen_keeps trivial (readBitStart_keeps hQ (hQ (by simp) h)) fun _ => return'_keeps

theorem receiveDone_keeps (h : Q s) : Keeps Q (receiveDone s) :=
  ⟨hQ (by simp [receiveDone]) h, by rintro _ ⟨⟩⟩

theorem slotRead_keeps (h : Q s) : Keeps Q (slotRead s) := by
  unfold slotRead
  split_ifs
  · exact readSlot_keeps hQ _ (hQ (by simp) h)
  · exact receiveDone_keeps hQ h
  · exact ⟨h, by rintro _ ⟨⟩⟩

theorem receiveStart_keeps (h : Q s) : Keeps Q (receiveStart s) := enterWait_keeps hQ trivial (hQ (by simp) h)

theorem receiveStep_keeps (p : RxPos) (h : Q s) : Keeps Q (receiveStep p s) := by
  cases p with
  | settle => exact waitThen_keeps trivial h (enterWait_keeps hQ trivial h)
  | soft =>
    unfold receiveStep
    split_ifs
    · exact goto_keeps trivial h
    · exact enterWait_keeps hQ trivial h
  | skew => exact waitThen_keeps trivial h (enterPoll_keeps hQ trivial h)
  | eat => exact pollThen_keeps trivial h (readSlot_keeps hQ _ h)
  | bit => exact slotRead_keeps hQ h

theorem callTransmit_keeps (v : Byte) (hf : Harmless Q f) (h : Q s) : Keeps Q (callTransmit v f s) :=
  callThen_keeps hf (transmitStart_keeps hQ v h) fun _ => return'_keeps

theorem callReceive_keeps (hf : Harmless Q f) (h : Q s) : Keeps Q (callReceive f s) :=
  callThen_keeps hf (receiveStart_keeps hQ h) fun _ => return'_keeps

/-! The pseudo-operations and responses run on their own (R107, R183). -/

theorem cmdStart_keeps (c : Byte) (h : Q s) : Keeps Q (cmdStart c s) := callTransmit_keeps hQ c trivial h

theorem cmdStep_keeps (p : CmdPos) (h : Q s) : Keeps Q (cmdStep p s) := by
  cases p with
  | afterByte => exact callReceive_keeps hQ trivial h
  | afterAck => exact return'_keeps h

theorem cmdThenArgStart_keeps (c a : Byte) (h : Q s) : Keeps Q (cmdThenArgStart c a s) :=
  callTransmit_keeps hQ c trivial h

theorem cmdThenArgStep_keeps (a : Byte) (p : CmdPos) (h : Q s) : Keeps Q (cmdThenArgStep a p s) := by
  cases p with
  | afterByte => exact callReceive_keeps hQ trivial h
  | afterAck => exact cmdStart_keeps hQ a h

theorem batResponseStart_keeps (hb : Closed Q keepBat) (h : Q s) : Keeps Q (batResponseStart s) :=
  callReceive_keeps hQ hb h

/-! Mode and configuration commands (42_config.md). -/

section reporting
variable (hr : ReportingClosed Q)
include hr

theorem enableStart_keeps (h : Q s) : Keeps Q (enableStart s) := by
  unfold enableStart
  split_ifs
  · exact return'_keeps h
  · exact callTransmit_keeps hQ _ hr h

theorem enableStep_keeps (p : CmdPos) (h : Q s) : Keeps Q (enableStep p s) := by
  cases p with
  | afterByte => exact callReceive_keeps hQ hr h
  | afterAck => exact return'_keeps (hr _ _ h)

theorem disableStart_keeps (h : Q s) : Keeps Q (disableStart s) := by
  unfold disableStart
  split_ifs
  · exact callTransmit_keeps hQ _ hr h
  · exact return'_keeps h

theorem disableStep_keeps (p : CmdPos) (h : Q s) : Keeps Q (disableStep p s) := by
  cases p with
  | afterByte => exact callReceive_keeps hQ hr h
  | afterAck => exact return'_keeps (hr _ _ h)

theorem resolutionCommand_keeps (h : Q s) : Keeps Q (resolutionCommand s) := callTransmit_keeps hQ _ hr h

theorem setResolutionStart_keeps (r : Byte) (ha : Closed Q (latchArg r)) (hl : Closed Q latchGuard) (h : Q s) :
    Keeps Q (setResolutionStart r s) := by
  have h' := hl _ (ha _ h)
  unfold setResolutionStart
  dsimp only
  split_ifs
  · exact callThen_keeps hr (enableStart_keeps hQ hr h') fun _ => resolutionCommand_keeps hQ hr
  · exact resolutionCommand_keeps hQ hr h'

theorem setResolutionStep_keeps (p : ArgPos) (h : Q s) : Keeps Q (setResolutionStep p s) := by
  cases p with
  | afterFirstToggle => exact resolutionCommand_keeps hQ hr h
  | afterCommand | afterArgument => exact callReceive_keeps hQ hr h
  | afterCommandAck => exact callTransmit_keeps hQ _ hr h
  | afterArgumentAck =>
    unfold setResolutionStep
    dsimp only
    split_ifs
    · exact callThen_keeps hr (disableStart_keeps hQ hr h) fun _ => return'_keeps
    · exact return'_keeps h
  | afterLastToggle => exact return'_keeps h

theorem sampleRateCommand_keeps (h : Q s) : Keeps Q (sampleRateCommand s) := callTransmit_keeps hQ _ hr h

theorem setSampleRateStart_keeps (n : Byte) (ha : Closed Q (latchArg n)) (hl : Closed Q latchGuard) (h : Q s) :
    Keeps Q (setSampleRateStart n s) := by
  have h' := hl _ (ha _ h)
  unfold setSampleRateStart
  dsimp only
  split_ifs
  · exact callThen_keeps hr (disableStart_keeps hQ hr h') fun _ => sampleRateCommand_keeps hQ hr
  · exact sampleRateCommand_keeps hQ hr h'

theorem setSampleRateStep_keeps (p : ArgPos) (h : Q s) : Keeps Q (setSampleRateStep p s) := by
  cases p with
  | afterFirstToggle => exact sampleRateCommand_keeps hQ hr h
  | afterCommand | afterArgument => exact callReceive_keeps hQ hr h
  | afterCommandAck => exact callTransmit_keeps hQ _ hr h
  | afterArgumentAck =>
    unfold setSampleRateStep
    dsimp only
    split_ifs
    · exact callThen_keeps hr (enableStart_keeps hQ hr h) fun _ => return'_keeps
    · exact return'_keeps h
  | afterLastToggle => exact return'_keeps h

end reporting

section toggle
variable (ht : ToggleClosed Q)
include ht

theorem toggledCommand_keeps (c : Byte) (h : Q s) : Keeps Q (toggledCommand c s) := callTransmit_keeps hQ c ht h

theorem toggledStart_keeps (c : Byte) (h : Q s) : Keeps Q (toggledStart c s) := by
  have h' := ht.1 _ h
  unfold toggledStart
  dsimp only
  split_ifs
  · exact callThen_keeps ht (disableStart_keeps hQ ht.2 h') fun _ => toggledCommand_keeps hQ ht c
  · exact toggledCommand_keeps hQ ht c h'

theorem toggledStep_keeps (c : Byte) (p : ToggledPos) (h : Q s) : Keeps Q (toggledStep c p s) := by
  cases p with
  | afterSuspend => exact toggledCommand_keeps hQ ht c h
  | afterCommand => exact callReceive_keeps hQ ht h
  | afterAck =>
    unfold toggledStep
    dsimp only
    split_ifs
    · exact callThen_keeps ht (enableStart_keeps hQ ht.2 h) fun _ => return'_keeps
    · exact return'_keeps h
  | afterResume => exact return'_keeps h

theorem setScaling21Start_keeps (h : Q s) : Keeps Q (setScaling21Start s) :=
  callThen_keeps ht (toggledStart_keeps hQ ht _ h) fun _ => return'_keeps

theorem setScaling11Start_keeps (h : Q s) : Keeps Q (setScaling11Start s) :=
  callThen_keeps ht (toggledStart_keeps hQ ht _ h) fun _ => return'_keeps

end toggle

section mode
variable (hm : ModeClosed Q)
include hm

theorem finishMode_keeps (m : Mode) (hf : Harmless Q f) (h : Q s) : Keeps Q (finishMode m f s) := by
  have h' := hm.1 m _ h
  unfold finishMode
  dsimp only
  split_ifs
  · exact enterWait_keeps hQ hf h'
  · exact return'_keeps h'

theorem setRemoteModeStart_keeps (h : Q s) : Keeps Q (setRemoteModeStart s) :=
  callThen_keeps hm (toggledStart_keeps hQ hm.2 _ h) fun _ => finishMode_keeps hQ hm _ hm

theorem setRemoteModeStep_keeps (p : ModePos) (h : Q s) : Keeps Q (setRemoteModeStep p s) := by
  cases p with
  | afterHelper => exact finishMode_keeps hQ hm _ hm h
  | settle => exact waitThen_keeps hm h (return'_keeps h)

theorem setStreamModeStart_keeps (h : Q s) : Keeps Q (setStreamModeStart s) :=
  callThen_keeps hm (toggledStart_keeps hQ hm.2 _ h) fun _ => finishMode_keeps hQ hm _ hm

theorem setStreamModeStep_keeps (p : ModePos) (h : Q s) : Keeps Q (setStreamModeStep p s) := by
  cases p with
  | afterHelper => exact finishMode_keeps hQ hm _ hm h
  | settle => exact waitThen_keeps hm h (return'_keeps h)

end mode

/-! INITIALIZE (41_init.md). -/

section init
variable (hi : ∀ p, Harmless Q (.initLink p))
include hi

theorem initStart_keeps (h : Q s) : Keeps Q (initStart s) := enterWait_keeps hQ (hi _) (hQ (by simp) h)

theorem initFinal_keeps (h : Q s) : Keeps Q (initFinal s) := enterWait_keeps hQ (hi _) h

theorem initSetUp_keeps (h : Q s) : Keeps Q (initSetUp s) := by
  obtain ⟨-, -, -, hm⟩ := hi .powerup
  unfold initSetUp
  split
  · exact callThen_keeps (hi _) (setRemoteModeStart_keeps hQ hm h) fun _ => initFinal_keeps hQ hi
  · exact callThen_keeps (hi _) (enableStart_keeps hQ hm.2.2 h) fun _ => initFinal_keeps hQ hi

theorem initTest_keeps (h : Q s) : Keeps Q (initTest s) := by
  obtain ⟨-, hfail, -⟩ := hi .powerup
  unfold initTest
  split_ifs
  · exact initSetUp_keeps hQ hi h
  · exact return'_keeps (hfail _ h)

theorem initStep_keeps (p : InitPos) (h : Q s) : Keeps Q (initStep p s) := by
  obtain ⟨hbat, -, hpass, -⟩ := hi .powerup
  cases p with
  | powerup => exact waitThen_keeps (hi _) h (callTransmit_keeps hQ _ (hi _) h)
  | afterReset | afterAck => exact callReceive_keeps hQ (hi _) h
  | afterBat => exact callReceive_keeps hQ (hi _) (hbat _ h)
  | afterId => exact enterWait_keeps hQ (hi _) h
  | postBat => exact waitThen_keeps (hi _) h (initTest_keeps hQ hi h)
  | afterSetUp => exact initFinal_keeps hQ hi h
  | final => exact waitThen_keeps (hi _) h (return'_keeps (hpass _ h))

end init

/-! REPORT and the decoders (43_report.md). -/

theorem decodeStart_keeps (a : Axis) (ha : Closed Q (keepMovement a)) (h : Q s) : Keeps Q (decodeStart a s) :=
  callReceive_keeps hQ ha h

section report
variable (hp : ∀ p, Harmless Q (.report p))
include hp

theorem reportRead_keeps (h : Q s) : Keeps Q (reportRead s) := callReceive_keeps hQ (hp _) h

theorem reportStart_keeps (h : Q s) : Keeps Q (reportStart s) := by
  unfold reportStart
  split
  · exact callTransmit_keeps hQ _ (hp _) h
  · exact reportRead_keeps hQ hp h

theorem reportY_keeps (h : Q s) : Keeps Q (reportY s) := by
  obtain ⟨-, -, hy⟩ := hp .afterY
  exact callThen_keeps (hp _) (decodeStart_keeps hQ .y hy h) fun _ => return'_keeps

theorem reportStep_keeps (p : ReportPos) (h : Q s) : Keeps Q (reportStep p s) := by
  obtain ⟨hst, hx, -⟩ := hp .afterStatus
  cases p with
  | afterPoll => exact callReceive_keeps hQ (hp _) h
  | afterPollAck => exact reportRead_keeps hQ hp h
  | afterStatus => exact callThen_keeps (hp _) (decodeStart_keeps hQ .x hx (hst _ h)) fun _ => reportY_keeps hQ hp
  | afterX => exact reportY_keeps hQ hp h
  | afterY => exact return'_keeps h

end report

/-! The sequencer (R28). -/

theorem frameStep_keeps (hf : Harmless Q f) (h : Q s) : Keeps Q (frameStep f s) := by
  cases f with
  | initLink p => exact initStep_keeps hQ (fun _ => hf) p h
  | setRemoteMode p => exact setRemoteModeStep_keeps hQ hf p h
  | setStreamMode p => exact setStreamModeStep_keeps hQ hf p h
  | setScaling21 | setScaling11 => exact return'_keeps h
  | setResolution p => exact setResolutionStep_keeps hQ hf p h
  | setSampleRate p => exact setSampleRateStep_keeps hQ hf p h
  | enableReporting p => exact enableStep_keeps hQ hf p h
  | disableReporting p => exact disableStep_keeps hQ hf p h
  | report p => exact reportStep_keeps hQ (fun _ => hf) p h
  | toggled c p => exact toggledStep_keeps hQ hf c p h
  | decode a => exact return'_keeps (hf _ h)
  | transmit p => exact transmitStep_keeps hQ p h
  | receive p => exact receiveStep_keeps hQ p h
  | readBit p => exact readBitStep_keeps hQ p h
  | cmd p => exact cmdStep_keeps hQ p h
  | cmdThenArg a p => exact cmdThenArgStep_keeps hQ a p h
  | batResponse => exact return'_keeps (hf _ h)

end steady
end keeps

/-- `Q` also survives where an operation is accepted and where it ends (R29, R102, R250, R251). -/
structure Lasting (Q : State → Prop) : Prop where
  steady       : Steady Q
  accepted     : ∀ code, Closed Q (accepted code)
  opEnd        : Closed Q opEnd
  raiseTimeout : Closed Q raiseTimeout
  illegalOp    : Closed Q illegalOp

/-- `Q` holds, and every operation on the stack will keep it. -/
def Kept (Q : State → Prop) (s : State) : Prop := Q s ∧ ∀ f ∈ s.stack, Harmless Q f

section sequencer
variable {Q : State → Prop} {s t : State} (hQ : Lasting Q)
include hQ

theorem resume_kept {k : List Frame} (hk : ∀ f ∈ k, Harmless Q f) (hs : Q s) (h : resume k s = .next t) : Kept Q t := by
  induction k generalizing s with
  | nil =>
    cases h
    exact ⟨hQ.opEnd _ hs, by simp⟩
  | cons f k ih =>
    obtain ⟨hf, hk⟩ : Harmless Q f ∧ ∀ g ∈ k, Harmless Q g := by simpa using hk
    have hstep := frameStep_keeps hQ.steady hf hs
    rw [resume_cons] at h
    obtain ⟨s', fs, hr, rfl⟩ | ⟨s', hr, h⟩ | ⟨s', hr, -, rfl⟩ | ⟨s', hr, -, rfl⟩ | ⟨s', hr, rfl⟩ := conclude_cases h <;>
      rw [hr] at hstep <;> obtain ⟨hs', hfs⟩ := hstep
    · refine ⟨hQ.steady (registers_withStack _ _) hs', fun g hg => ?_⟩
      obtain hg | hg := List.mem_append.mp hg
      · exact hfs fs rfl g hg
      · exact hk g hg
    · exact ih hk hs' h
    · exact ⟨hQ.opEnd _ hs', by simp⟩
    · exact ⟨hQ.steady (registers_withStack _ _) hs', hk⟩
    · exact ⟨hQ.raiseTimeout _ hs', by simp⟩

theorem edge_kept {x : Sample} (hx : x.rst = false) (hs : Kept Q s) (h : edge x s = .next t) : Kept Q t := by
  obtain ⟨hr, -⟩ | ⟨-, he⟩ := edge_cases x s
  · simp [hx] at hr
  · rw [he] at h
    exact resume_kept hQ hs.2 (hQ.steady (registers_sampled x s) hs.1) h

theorem run_kept {xs : List Sample} (hx : ∀ x ∈ xs, x.rst = false) (hs : Kept Q s) (h : run xs s = .next t) : Q t := by
  induction xs generalizing s with
  | nil =>
    cases h
    exact hQ.steady (registers_withInputs _ _) hs.1
  | cons x xs ih =>
    obtain ⟨hx, hxs⟩ : x.rst = false ∧ ∀ y ∈ xs, y.rst = false := by simpa using hx
    cases hb : s.busy with
    | false =>
      rw [run_idle hb] at h
      cases h
      exact hQ.steady (registers_withInputs _ _) hs.1
    | true =>
      rw [run, if_pos hb] at h
      cases he : edge x s with
      | next s' =>
        rw [he] at h
        exact ih hxs (edge_kept hQ hx hs he) h
      | fault e => simp [he] at h
      | refused e => simp [he] at h

end sequencer

/-! Every way to start an operation, and so every instruction. -/

section starts
variable {Q : State → Prop} {s t : State} (hQ : Lasting Q)
include hQ

theorem start_kept {code : Option (BitVec 4)} {op : State → Ran} (hx : ∀ x ∈ s.inputs, x.rst = false)
    (hi : ∀ s, (op s).1.inputs = s.inputs) (hop : ∀ s, Q s → Keeps Q (op s)) (hs : Q s)
    (h : start code op s = .next t) : Q t := by
  have hstep := hop _ (hQ.accepted code s hs)
  have hq : (op (accepted code s)).1.inputs = s.inputs := hi (accepted code s)
  obtain ⟨-, rfl⟩ | ⟨-, s', fs, hr, h⟩ | ⟨-, s', hr | hr, rfl⟩ | ⟨-, s', hr, rfl⟩ := start_cases h
  · exact hs
  all_goals
    rw [hr] at hstep hq
    obtain ⟨hs', hfs⟩ := hstep
  · exact run_kept hQ (hq ▸ hx) ⟨hQ.steady (registers_withStack _ _) hs', hfs fs rfl⟩ h
  · exact hQ.opEnd _ hs'
  · exact hQ.opEnd _ hs'
  · exact hQ.raiseTimeout _ hs'

theorem startWith_kept {xs : List Sample} {op : State → Ran} (hxs : ∀ x ∈ xs, x.rst = false)
    (hx : ∀ x ∈ s.inputs, x.rst = false) (hi : ∀ s, (op s).1.inputs = s.inputs) (hop : ∀ s, Q s → Keeps Q (op s))
    (hs : Q s) (h : startWith xs op s = .next t) : Q t := by
  unfold startWith at h
  split_ifs at h
  · cases h
    exact hs
  · exact start_kept hQ (List.forall_mem_append.mpr ⟨hxs, hx⟩) hi hop (hQ.steady (registers_present xs s) hs) h

theorem startCommand_kept {c : Byte} {sends : Bool} {op : State → Ran} (hx : ∀ x ∈ s.inputs, x.rst = false)
    (hi : ∀ s, (op s).1.inputs = s.inputs) (hop : ∀ s, Q s → Keeps Q (op s)) (hs : Q s)
    (h : startCommand c sends op s = .next t) : Q t := by
  obtain ⟨-, he⟩ | ⟨-, -, he⟩ | ⟨-, -, he⟩ := startCommand_cases c sends op s <;> rw [he] at h
  · cases h
    exact hs
  · exact start_kept hQ hx hi hop hs h
  · cases h

theorem startIllegal_kept (hs : Q s) (h : startIllegal s = .next t) : Q t := by
  unfold startIllegal at h
  split_ifs at h <;> cases h
  · exact hs
  · exact hQ.illegalOp _ hs

end starts

/-! The samples of the reference shape carry no reset (log entry 8). -/

theorem deviceFrame_rst (p : Params) (t : Time) (slots : BitVec 11) : ∀ x ∈ deviceFrame p t slots, x.rst = false := by
  simp [deviceFrame, pulses, pulse, linesAt, Sample.quietAt]

theorem deviceByte_rst (p : Params) (t : Time) (v : Byte) : ∀ x ∈ deviceByte p t v, x.rst = false :=
  List.forall_mem_append.mpr ⟨deviceFrame_rst p t _, by simp [betweenBytes, linesAt, Sample.quietAt]⟩

theorem deviceReport_rst (p : Params) (t : Time) (status x y : Byte) :
    ∀ z ∈ deviceReport p t status x y, z.rst = false :=
  List.forall_mem_append.mpr
    ⟨List.forall_mem_append.mpr ⟨deviceByte_rst p _ _, deviceByte_rst p _ _⟩, deviceByte_rst p _ _⟩

/-- The updates of the control bits, the protocol registers and the results (R23 to R27, R30). -/
inductive Update where
  | mode (m : Mode)
  | reporting (b : Bool)
  | latch
  | fail
  | pass
  | arg (v : Byte)
  | bat
  | status
  | dx
  | dy

/-- What an update does. -/
def Update.apply (u : Update) : State → State :=
  match u with
  | .mode m => setMode m
  | .reporting b => setReporting b
  | .latch => latchGuard
  | .fail => failInit
  | .pass => passInit
  | .arg v => latchArg v
  | .bat => keepBat
  | .status => keepStatus
  | .dx => keepMovement .x
  | .dy => keepMovement .y

/-- The instruction makes the update, or an operation that it calls does. -/
def makes (i : Instr) (u : Update) : Bool :=
  match u with
  | .mode _ => writesMode i
  | .reporting _ => writesReporting i
  | .latch => writesLatch i
  | .fail | .pass => writesOk i
  | .arg _ => writesArg i
  | .bat => writesBat i
  | .status => writesStatus i
  | .dx => writesDx i
  | .dy => writesDy i

/-- The updates of an instruction, with those of the operations it calls, respect `Q`. -/
def InstrHarmless (Q : State → Prop) (i : Instr) : Prop := ∀ u, makes i u = true → Closed Q u.apply

/-- An instruction whose updates respect `Q` keeps it: where it completes, where it hangs and where it times out. -/
theorem exec_kept {Q : State → Prop} {s t : State} {i : Instr} (hQ : Lasting Q) (hi : InstrHarmless Q i)
    (hx : ∀ x ∈ s.inputs, x.rst = false) (hs : Q s) (h : exec i s = .next t) : Q t := by
  have hst := hQ.steady
  have hm (h : writesMode i = true) (m : Mode) : Closed Q (setMode m) := hi (.mode m) h
  have hr (h : writesReporting i = true) : ReportingClosed Q := fun b => hi (.reporting b) h
  have hl : writesLatch i = true → Closed Q latchGuard := hi .latch
  have ha (h : writesArg i = true) (v : Byte) : Closed Q (latchArg v) := hi (.arg v) h
  have hb : writesBat i = true → Closed Q keepBat := hi .bat
  have hp (h : writesStatus i = true) (hx : writesDx i = true) (hy : writesDy i = true) (p : ReportPos) :
      Harmless Q (.report p) := ⟨hi .status h, hi .dx hx, hi .dy hy⟩
  cases i with
  | initializeLink =>
    exact start_kept hQ hx (fun _ => rfl)
      (fun _ => initStart_keeps hst fun _ => ⟨hb rfl, hi .fail rfl, hi .pass rfl, hm rfl, hl rfl, hr rfl⟩) hs h
  | setRemoteMode =>
    exact start_kept hQ hx setRemoteModeStart_inputs
      (fun _ => setRemoteModeStart_keeps hst ⟨hm rfl, hl rfl, hr rfl⟩) hs h
  | setStreamMode =>
    exact start_kept hQ hx setStreamModeStart_inputs
      (fun _ => setStreamModeStart_keeps hst ⟨hm rfl, hl rfl, hr rfl⟩) hs h
  | setScaling21 =>
    exact start_kept hQ hx setScaling21Start_inputs (fun _ => setScaling21Start_keeps hst ⟨hl rfl, hr rfl⟩) hs h
  | setScaling11 =>
    exact start_kept hQ hx setScaling11Start_inputs (fun _ => setScaling11Start_keeps hst ⟨hl rfl, hr rfl⟩) hs h
  | setResolution r =>
    exact start_kept hQ hx (setResolutionStart_inputs · r)
      (fun _ => setResolutionStart_keeps hst (hr rfl) r (ha rfl r) (hl rfl)) hs h
  | setSampleRate n =>
    exact start_kept hQ hx (setSampleRateStart_inputs · n)
      (fun _ => setSampleRateStart_keeps hst (hr rfl) n (ha rfl n) (hl rfl)) hs h
  | enableDataReporting => exact start_kept hQ hx enableStart_inputs (fun _ => enableStart_keeps hst (hr rfl)) hs h
  | disableDataReporting => exact start_kept hQ hx disableStart_inputs (fun _ => disableStart_keeps hst (hr rfl)) hs h
  | report =>
    exact start_kept hQ hx reportStart_inputs (fun _ => reportStart_keeps hst (hp rfl rfl rfl)) hs h
  | reservedA | reservedB | reservedC | reservedD | reservedE | reservedF => exact startIllegal_kept hQ hs h
  | wireReset | wireSetRemoteMode | wireSetStreamMode | wireSetScaling21 | wireSetScaling11
  | wireEnableDataReporting | wireDisableDataReporting | wireReadData =>
    exact start_kept hQ hx (fun _ => rfl) (fun _ => cmdStart_keeps hst _) hs h
  | wireSetResolution v | wireSetSampleRate v =>
    exact start_kept hQ hx (fun _ => rfl) (fun _ => cmdThenArgStart_keeps hst _ v) hs h
  | respBatPass =>
    exact startWith_kept hQ (deviceByte_rst _ _ _) hx (fun _ => rfl) (fun _ => batResponseStart_keeps hst (hb rfl)) hs h
  | respAck | respDeviceId | frameD2H =>
    exact startWith_kept hQ (deviceFrame_rst _ _ _) hx (fun _ => rfl) (fun _ => receiveStart_keeps hst) hs h
  | frameH2D v parity =>
    change execFrameH2D v parity s = .next t at h
    unfold execFrameH2D at h
    split_ifs at h
    exact start_kept hQ hx (fun _ => rfl) (fun _ => transmitStart_keeps hst v) hs h
  | movementReport =>
    exact startWith_kept hQ (deviceReport_rst _ _ _ _ _) hx (fun _ => rfl)
      (fun _ => reportRead_keeps hst (hp rfl rfl rfl)) hs h
  | transmitByte v => exact start_kept hQ hx (fun _ => rfl) (fun _ => transmitStart_keeps hst v) hs h
  | receiveByte => exact start_kept hQ hx (fun _ => rfl) (fun _ => receiveStart_keeps hst) hs h
  | readBit => exact start_kept hQ hx (fun _ => armPoll_inputs _) (fun _ => readBitStart_keeps hst) hs h
  | decodeX => exact start_kept hQ hx (fun _ => rfl) (fun _ => decodeStart_keeps hst .x (hi .dx rfl)) hs h
  | decodeY => exact start_kept hQ hx (fun _ => rfl) (fun _ => decodeStart_keeps hst .y (hi .dy rfl)) hs h
  | cmd c => exact startCommand_kept hQ hx (fun _ => rfl) (fun _ => cmdStart_keeps hst c) hs h
  | cmdToggled c =>
    exact startCommand_kept hQ hx (toggledStart_inputs · c) (fun _ => toggledStart_keeps hst ⟨hl rfl, hr rfl⟩ c) hs h

/-! Who writes the control bits and the protocol registers (R23 to R27, R30). -/

theorem lasting_mode (m : Mode) : Lasting (fun s => s.mode = m) :=
  ⟨fun _ _ h hs => (congrArg State.mode h).trans hs, fun _ _ h => h, fun _ h => h, fun _ h => h, fun _ h => h⟩

theorem lasting_initialized (b : Bool) : Lasting (fun s => s.initialized = b) :=
  ⟨fun _ _ h hs => (congrArg State.initialized h).trans hs, fun _ _ h => h, fun _ h => h, fun _ h => h, fun _ h => h⟩

theorem lasting_reportingEnabled (b : Bool) : Lasting (fun s => s.reportingEnabled = b) :=
  ⟨fun _ _ h hs => (congrArg State.reportingEnabled h).trans hs, fun _ _ h => h, fun _ h => h, fun _ h => h,
    fun _ h => h⟩

theorem lasting_arg (v : Byte) : Lasting (fun s => s.arg = v) :=
  ⟨fun _ _ h hs => (congrArg State.arg h).trans hs, fun _ _ h => h, fun _ h => h, fun _ h => h, fun _ h => h⟩

theorem lasting_bat (v : Byte) : Lasting (fun s => s.bat = v) :=
  ⟨fun _ _ h hs => (congrArg State.bat h).trans hs, fun _ _ h => h, fun _ h => h, fun _ h => h, fun _ h => h⟩

theorem lasting_resumeLatch (b : Bool) : Lasting (fun s => s.resumeLatch = b) :=
  ⟨fun _ _ h hs => (congrArg State.resumeLatch h).trans hs, fun _ _ h => h, fun _ h => h, fun _ h => h, fun _ h => h⟩

theorem instrHarmless_mode {i : Instr} (m : Mode) (hw : writesMode i = false) :
    InstrHarmless (fun s => s.mode = m) i := by
  intro u hu
  cases u with
  | mode => simp [makes, hw] at hu
  | _ => exact fun _ h => h

theorem instrHarmless_initialized {i : Instr} (b : Bool) (hw : writesOk i = false) :
    InstrHarmless (fun s => s.initialized = b) i := by
  intro u hu
  cases u with
  | pass => simp [makes, hw] at hu
  | _ => exact fun _ h => h

theorem instrHarmless_reportingEnabled {i : Instr} (b : Bool) (hw : writesReporting i = false) :
    InstrHarmless (fun s => s.reportingEnabled = b) i := by
  intro u hu
  cases u with
  | reporting => simp [makes, hw] at hu
  | _ => exact fun _ h => h

theorem instrHarmless_arg {i : Instr} (v : Byte) (hw : writesArg i = false) :
    InstrHarmless (fun s => s.arg = v) i := by
  intro u hu
  cases u with
  | arg => simp [makes, hw] at hu
  | _ => exact fun _ h => h

theorem instrHarmless_bat {i : Instr} (v : Byte) (hw : writesBat i = false) :
    InstrHarmless (fun s => s.bat = v) i := by
  intro u hu
  cases u with
  | bat => simp [makes, hw] at hu
  | _ => exact fun _ h => h

theorem instrHarmless_resumeLatch {i : Instr} (b : Bool) (hw : writesLatch i = false) :
    InstrHarmless (fun s => s.resumeLatch = b) i := by
  intro u hu
  cases u with
  | latch => simp [makes, hw] at hu
  | _ => exact fun _ h => h

/-- Settles O49: each control bit's value is a lasting predicate, and an instruction that is not among its writers
makes only updates that respect it. -/
theorem controlBitsFrame : Obligations.ControlBitsFrame := fun _ _ _ hx h =>
  ⟨fun hw => exec_kept (lasting_mode _) (instrHarmless_mode _ hw) hx rfl h,
    fun hw => exec_kept (lasting_initialized _) (instrHarmless_initialized _ hw) hx rfl h,
    fun hw => exec_kept (lasting_reportingEnabled _) (instrHarmless_reportingEnabled _ hw) hx rfl h⟩

/-- Settles O51, by the same argument for each protocol register. -/
theorem protocolRegistersFrame : Obligations.ProtocolRegistersFrame := fun _ _ _ hx h =>
  ⟨fun hw => exec_kept (lasting_arg _) (instrHarmless_arg _ hw) hx rfl h,
    fun hw => exec_kept (lasting_bat _) (instrHarmless_bat _ hw) hx rfl h,
    fun hw => exec_kept (lasting_resumeLatch _) (instrHarmless_resumeLatch _ hw) hx rfl h⟩

/-! Every update leaves `initialized` as it is or sets it (R24, decision D19). -/

theorem harmless_initialized (f : Frame) : Harmless (fun s => s.initialized = true) f := by
  have hr : ReportingClosed (fun s => s.initialized = true) := fun _ _ h => h
  have ht : ToggleClosed (fun s => s.initialized = true) := ⟨fun _ h => h, hr⟩
  have hm : ModeClosed (fun s => s.initialized = true) := ⟨fun _ _ h => h, ht⟩
  cases f with
  | initLink => exact ⟨fun _ h => h, fun _ h => h, fun _ _ => rfl, hm⟩
  | setRemoteMode | setStreamMode => exact hm
  | setScaling21 | setScaling11 | toggled => exact ht
  | setResolution | setSampleRate | enableReporting | disableReporting => exact hr
  | report => exact ⟨fun _ h => h, fun _ h => h, fun _ h => h⟩
  | decode a => cases a <;> exact fun _ h => h
  | batResponse => exact fun _ h => h
  | transmit | receive | readBit | cmd | cmdThenArg => trivial

theorem instrHarmless_initialized_true (i : Instr) : InstrHarmless (fun s => s.initialized = true) i := by
  intro u _
  cases u with
  | pass => exact fun _ _ => rfl
  | _ => exact fun _ h => h

/-- Settles O54: `initialized` = 1 is a lasting predicate that no update breaks, on any stack and for any instruction.
-/
theorem initializedNeverCleared : Obligations.InitializedNeverCleared := by
  have hQ := lasting_initialized true
  refine ⟨fun x s t hx h hs => ?_, fun i s t hx h hs => exec_kept hQ (instrHarmless_initialized_true i) hx hs h⟩
  exact (edge_kept hQ hx ⟨hs, fun f _ => harmless_initialized f⟩ h).1

end Sys2Proof.Machine

/-! No operation reads the queue of samples: only the sequencer's loop takes a sample from it. A caller operation run
over the queue is therefore its acceptance followed by single steps (R28, R160; log entries 3 and 6). -/

namespace Sys2Proof.Machine

/-- `s` with another queue of samples. -/
def withInputs (xs : List Sample) (s : State) : State := { s with inputs := xs }

/-- `op` does the same whatever the queue is, and leaves the queue alone. -/
def Blind (op : State → Ran) : Prop := ∀ xs s, op (withInputs xs s) = (withInputs xs (op s).1, (op s).2)

/-- The update `u` leaves the queue alone and does not read it. -/
abbrev BlindUpdate (u : State → State) : Prop := ∀ xs s, u (withInputs xs s) = withInputs xs (u s)

@[simp] theorem withInputs_mode (xs : List Sample) (s : State) : (withInputs xs s).mode = s.mode := rfl
@[simp] theorem withInputs_cfg (xs : List Sample) (s : State) : (withInputs xs s).cfg = s.cfg := rfl

theorem armPoll_blind : BlindUpdate armPoll := by
  intro xs s
  simp only [armPoll, withInputs_cfg]
  cases s.cfg.timeoutPolicy <;> rfl

theorem driveSlot_blind : BlindUpdate driveSlot := by
  intro xs s
  unfold driveSlot
  rw [apply_ite (withInputs xs), apply_ite (withInputs xs)]
  rfl

theorem storeSample_blind : BlindUpdate storeSample := by
  intro xs s
  unfold storeSample
  rw [apply_ite (withInputs xs)]
  rfl

theorem keepMovement_blind (a : Axis) : BlindUpdate (keepMovement a) := by
  intro xs s
  cases a <;> rfl

namespace Blind
variable {a b k callee : State → Ran}

/-! The position combinators. -/

theorem comp {u : State → State} (hk : Blind k) (hu : BlindUpdate u) : Blind (fun s => k (u s)) := by
  intro xs s
  show k (u (withInputs xs s)) = _
  rw [hu, hk]

theorem ite {c : State → Prop} {_ : DecidablePred c} (hc : ∀ xs s, c (withInputs xs s) ↔ c s) (ha : Blind a)
    (hb : Blind b) : Blind (fun s => if c s then a s else b s) := by
  intro xs s
  simp only [hc]
  split
  · exact ha xs s
  · exact hb xs s

theorem goto (f : Frame) : Blind (goto f) := fun _ _ => rfl

theorem enterWait (f : Frame) : Blind (enterWait f) := fun _ _ => rfl

theorem enterPoll (f : Frame) : Blind (enterPoll f) := (goto f).comp armPoll_blind

theorem return' : Blind return' := fun _ _ => rfl

theorem waitThen {n : State → Time} (hn : ∀ xs s, n (withInputs xs s) = n s) (f : Frame) (hk : Blind k) :
    Blind (fun s => waitThen (n s) f k s) := by
  have hc : ∀ xs s, elapsed (withInputs xs s) ≤ n (withInputs xs s) ↔ elapsed s ≤ n s := fun xs s => by rw [hn]; rfl
  exact ite hc (goto f) hk

theorem pollThen {c : State → Bool} (hc : ∀ xs s, c (withInputs xs s) = c s) (f : Frame) (hk : Blind k) :
    Blind (fun s => pollThen (c s) f k s) := by
  have ht : Blind (fun s => (s, .timeout)) := fun _ _ => rfl
  exact ite (fun xs s => by rw [hc]) (ite (fun _ _ => .rfl) ht (goto f)) hk

theorem callThen (hc : Blind callee) (f : Frame) (hk : Blind k) : Blind (callThen callee f k) := by
  intro xs s
  unfold Machine.callThen
  rw [hc]
  obtain ⟨s', fs | _ | _ | _ | _⟩ := callee s
  case ret => exact hk xs s'
  all_goals rfl

/-! Transport (40_transport.md). -/

theorem enterSlot (i : BitVec 4) : Blind (enterSlot i) :=
  (enterPoll _).comp fun xs s => by rw [← driveSlot_blind]; rfl

theorem nextSlot : Blind nextSlot :=
  ite (fun _ _ => .rfl) (fun xs s => enterSlot _ xs s) (ite (fun _ _ => .rfl) (enterWait _) fun _ _ => rfl)

theorem transmitStep (p : TxPos) : Blind (transmitStep p) := by
  cases p with
  | settle | inhibit => exact waitThen (fun _ _ => rfl) _ fun _ _ => rfl
  | start => exact waitThen (fun _ _ => rfl) _ ((enterPoll _).comp fun _ _ => rfl)
  | grant => exact pollThen (fun _ _ => rfl) _ (enterSlot _)
  | slotLow => exact pollThen (fun _ _ => rfl) _ (enterPoll _)
  | slotHigh => exact pollThen (fun _ _ => rfl) _ nextSlot
  | post => exact waitThen (fun _ _ => rfl) _ (enterPoll _)
  | ack => exact pollThen (fun _ _ => rfl) _ fun _ _ => rfl

theorem readBitStart : Blind readBitStart := enterPoll _

theorem readBitStep (p : RbPos) : Blind (readBitStep p) := by
  cases p with
  | waitLow => exact pollThen (fun _ _ => rfl) _ (goto _)
  | sample => exact (enterPoll _).comp fun _ _ => rfl
  | waitHigh => exact pollThen (fun _ _ => rfl) _ return'

theorem readSlot (i : BitVec 4) : Blind (readSlot i) := (callThen readBitStart _ return').comp fun _ _ => rfl

theorem slotRead : Blind slotRead :=
  ite (fun _ _ => .rfl) (fun xs s => (readSlot _).comp storeSample_blind xs s)
    (ite (fun _ _ => .rfl) (fun _ _ => rfl) fun _ _ => rfl)

theorem receiveStep (p : RxPos) : Blind (receiveStep p) := by
  cases p with
  | settle => exact waitThen (fun _ _ => rfl) _ (enterWait _)
  | soft => exact ite (fun _ _ => .rfl) (goto _) (enterWait _)
  | skew => exact waitThen (fun _ _ => rfl) _ (enterPoll _)
  | eat => exact pollThen (fun _ _ => rfl) _ (readSlot _)
  | bit => exact slotRead

theorem callTransmit (v : Byte) (f : Frame) : Blind (callTransmit v f) := fun _ _ => rfl

theorem callReceive (f : Frame) : Blind (callReceive f) := fun _ _ => rfl

/-! Mode and configuration commands (42_config.md). -/

theorem enableStart : Blind enableStart := ite (fun _ _ => .rfl) return' (callTransmit _ _)

theorem enableStep (p : CmdPos) : Blind (enableStep p) := by cases p <;> exact fun _ _ => rfl

theorem disableStart : Blind disableStart := ite (fun _ _ => .rfl) (callTransmit _ _) return'

theorem disableStep (p : CmdPos) : Blind (disableStep p) := by cases p <;> exact fun _ _ => rfl

theorem toggledStart (c : Byte) : Blind (toggledStart c) :=
  (ite (c := (·.resumeLatch = true)) (fun _ _ => .rfl) (callThen disableStart _ (callTransmit _ _))
    (callTransmit _ _)).comp (u := latchGuard)
    fun _ _ => rfl

theorem toggledStep (c : Byte) (p : ToggledPos) : Blind (toggledStep c p) := by
  cases p with
  | afterAck => exact ite (fun _ _ => .rfl) (callThen enableStart _ return') return'
  | _ => exact fun _ _ => rfl

theorem finishMode (m : Mode) (f : Frame) : Blind (finishMode m f) :=
  (ite (c := (·.initialized = true)) (fun _ _ => .rfl) (enterWait f) return').comp (u := setMode m) fun _ _ => rfl

theorem setRemoteModeStart : Blind setRemoteModeStart := callThen (toggledStart _) _ (finishMode _ _)

theorem setRemoteModeStep (p : ModePos) : Blind (setRemoteModeStep p) := by
  cases p with
  | afterHelper => exact finishMode _ _
  | settle => exact waitThen (fun _ _ => rfl) _ return'

theorem setStreamModeStart : Blind setStreamModeStart := callThen (toggledStart _) _ (finishMode _ _)

theorem setStreamModeStep (p : ModePos) : Blind (setStreamModeStep p) := by
  cases p with
  | afterHelper => exact finishMode _ _
  | settle => exact waitThen (fun _ _ => rfl) _ return'

theorem setScaling21Start : Blind setScaling21Start := callThen (toggledStart _) _ return'

theorem setScaling11Start : Blind setScaling11Start := callThen (toggledStart _) _ return'

theorem setResolutionStart (r : Byte) : Blind (setResolutionStart r) :=
  (ite (c := (·.resumeLatch = true)) (fun _ _ => .rfl) (callThen enableStart _ (callTransmit _ _))
    (callTransmit _ _)).comp
    (u := fun s => latchGuard (latchArg r s)) fun _ _ => rfl

theorem setResolutionStep (p : ArgPos) : Blind (setResolutionStep p) := by
  cases p with
  | afterArgumentAck => exact ite (fun _ _ => .rfl) (callThen disableStart _ return') return'
  | _ => exact fun _ _ => rfl

theorem setSampleRateStart (n : Byte) : Blind (setSampleRateStart n) :=
  (ite (c := (·.resumeLatch = true)) (fun _ _ => .rfl) (callThen disableStart _ (callTransmit _ _))
    (callTransmit _ _)).comp
    (u := fun s => latchGuard (latchArg n s)) fun _ _ => rfl

theorem setSampleRateStep (p : ArgPos) : Blind (setSampleRateStep p) := by
  cases p with
  | afterArgumentAck => exact ite (fun _ _ => .rfl) (callThen enableStart _ return') return'
  | _ => exact fun _ _ => rfl

theorem cmdStep (p : CmdPos) : Blind (cmdStep p) := by cases p <;> exact fun _ _ => rfl

theorem cmdThenArgStep (a : Byte) (p : CmdPos) : Blind (cmdThenArgStep a p) := by cases p <;> exact fun _ _ => rfl

/-! INITIALIZE (41_init.md). -/

theorem initStart : Blind initStart := fun _ _ => rfl

theorem initSetUp : Blind initSetUp := by
  intro xs s
  simp only [Machine.initSetUp, withInputs_mode]
  cases s.mode with
  | remote => exact callThen setRemoteModeStart _ (enterWait _) xs s
  | stream => exact callThen enableStart _ (enterWait _) xs s

theorem initTest : Blind initTest := ite (fun _ _ => .rfl) initSetUp fun _ _ => rfl

theorem initStep (p : InitPos) : Blind (initStep p) := by
  cases p with
  | powerup => exact waitThen (fun _ _ => rfl) _ (callTransmit _ _)
  | postBat => exact waitThen (fun _ _ => rfl) _ initTest
  | final => exact waitThen (fun _ _ => rfl) _ fun _ _ => rfl
  | _ => exact fun _ _ => rfl

/-! REPORT and the decoders (43_report.md). -/

theorem decodeStep (a : Axis) : Blind (decodeStep a) := return'.comp (keepMovement_blind a)

theorem reportStart : Blind reportStart := by
  intro xs s
  simp only [Machine.reportStart, withInputs_mode]
  cases s.mode <;> rfl

theorem reportY : Blind reportY := callThen (callReceive _) _ return'

theorem reportStep (p : ReportPos) : Blind (reportStep p) := by
  cases p with
  | afterStatus => exact (callThen (callReceive _) _ reportY).comp (u := keepStatus) fun _ _ => rfl
  | afterX => exact reportY
  | _ => exact fun _ _ => rfl

theorem frameStep (f : Frame) : Blind (frameStep f) := by
  cases f with
  | initLink p => exact initStep p
  | setRemoteMode p => exact setRemoteModeStep p
  | setStreamMode p => exact setStreamModeStep p
  | setScaling21 | setScaling11 => exact return'
  | setResolution p => exact setResolutionStep p
  | setSampleRate p => exact setSampleRateStep p
  | enableReporting p => exact enableStep p
  | disableReporting p => exact disableStep p
  | report p => exact reportStep p
  | toggled c p => exact toggledStep c p
  | decode a => exact decodeStep a
  | transmit p => exact transmitStep p
  | receive p => exact receiveStep p
  | readBit p => exact readBitStep p
  | cmd p => exact cmdStep p
  | cmdThenArg a p => exact cmdThenArgStep a p
  | batResponse => exact fun _ _ => rfl

end Blind

/-- An outcome with another queue of samples. -/
def outcomeWithInputs (xs : List Sample) (r : Result) : Result :=
  match r with
  | .next s => .next (withInputs xs s)
  | .fault e => .fault e
  | .refused e => .refused e

theorem resume_withInputs (xs : List Sample) (k : List Frame) (s : State) :
    resume k (withInputs xs s) = outcomeWithInputs xs (resume k s) := by
  induction k generalizing s with
  | nil => rfl
  | cons f k ih =>
    rw [resume_cons, resume_cons, Blind.frameStep]
    obtain ⟨s', fs | _ | _ | _ | _⟩ := frameStep f s
    case ret => exact ih s'
    case hold => cases k <;> rfl
    all_goals rfl

theorem edge_withInputs (xs : List Sample) (x : Sample) (s : State) :
    edge x (withInputs xs s) = outcomeWithInputs xs (edge x s) := by
  unfold edge
  cases x.rst
  · exact resume_withInputs xs s.stack (sampled x s)
  · rfl

/-- A busy HOST's step is the edge at the queue's first sample. -/
theorem step_withInputs_cons {s : State} (hb : s.busy = true) (x : Sample) (xs : List Sample) :
    step (withInputs (x :: xs) s) = outcomeWithInputs xs (edge x s) := by
  rw [← edge_withInputs, step, if_pos (by exact hb)]
  rfl

theorem coreRun_succ {s s' : State} (h : step s = .next s') (n : Nat) :
    Host.Core.run core (n + 1) s = Host.Core.run core n s' := by
  have hstep : core.step s = .next s' := h
  simp only [Host.Core.run, hstep]

/-- A run over the queue is a number of steps over it, one a sample. -/
theorem run_isSteps {xs : List Sample} {s t : State} (h : run xs s = .next t) :
    ∃ n ≤ xs.length, Host.Core.run core n (withInputs xs s) = .next t := by
  induction xs generalizing s with
  | nil =>
    cases h
    exact ⟨0, Nat.le_refl _, rfl⟩
  | cons x xs ih =>
    cases hb : s.busy with
    | false =>
      rw [run_idle hb] at h
      exact ⟨0, Nat.zero_le _, h⟩
    | true =>
      rw [run, if_pos hb] at h
      cases he : edge x s with
      | next s' =>
        rw [he] at h
        obtain ⟨n, hn, hrun⟩ := ih h
        have hstep : step (withInputs (x :: xs) s) = .next (withInputs xs s') := by
          rw [step_withInputs_cons hb, he]
          rfl
        exact ⟨n + 1, Nat.succ_le_succ hn, (coreRun_succ hstep n).trans hrun⟩
      | fault e => simp [he] at h
      | refused e => simp [he] at h

/-- An operation that does not read the queue, started with it, is started without it and then steps over it. -/
theorem start_isSteps {code : Option (BitVec 4)} {op : State → Ran} {s t : State} (hop : Blind op) (hb : s.busy = false)
    (h : start code op s = .next t) :
    ∃ s1 n, start code op (withInputs [] s) = .next s1 ∧ n ≤ s.inputs.length ∧
      Host.Core.run core n (withInputs s.inputs s1) = .next t := by
  have hin : (op (accepted code s)).1.inputs = s.inputs :=
    congrArg (fun r : Ran => r.1.inputs) (hop s.inputs (accepted code s))
  have hop' : op (accepted code (withInputs [] s)) = _ := hop [] (accepted code s)
  rw [start_idle hb rfl hin] at h
  rw [start_idle (s := withInputs [] s) hb rfl (congrArg (fun r : Ran => r.1.inputs) hop'), hop']
  generalize op (accepted code s) = r at h hin
  obtain ⟨s', fs | _ | _ | _ | _⟩ := r
  case block =>
    obtain ⟨n, hn, hrun⟩ := run_isSteps h
    exact ⟨_, n, rfl, hn, hrun⟩
  case ret => exact ⟨_, 0, rfl, Nat.zero_le _, (op_returns s' s.inputs).symm.trans h⟩
  case hold => exact ⟨_, 0, rfl, Nat.zero_le _, (op_holds s' s.inputs).symm.trans h⟩
  case timeout => exact ⟨_, 0, rfl, Nat.zero_le _, (run_idle (s := raiseTimeout s') rfl s.inputs).symm.trans h⟩
  case unused => cases h

/-- The first step of one of the ten caller operations (R101). -/
inductive CallerStart : (State → Ran) → Prop where
  | init : CallerStart initStart
  | remoteMode : CallerStart setRemoteModeStart
  | streamMode : CallerStart setStreamModeStart
  | scaling21 : CallerStart setScaling21Start
  | scaling11 : CallerStart setScaling11Start
  | resolution (r : Byte) : CallerStart (setResolutionStart r)
  | sampleRate (n : Byte) : CallerStart (setSampleRateStart n)
  | enable : CallerStart enableStart
  | disable : CallerStart disableStart
  | report : CallerStart reportStart

/-- An op word starts one of the ten caller operations, or its code is reserved (R101, R104). -/
theorem exec_decodeOp (w : BitVec 12) :
    (∃ code op, CallerStart op ∧ exec (decodeOp w) = start (some code) op) ∨ exec (decodeOp w) = startIllegal := by
  unfold decodeOp
  dsimp only
  split
  · exact .inl ⟨_, _, .init, rfl⟩
  · exact .inl ⟨_, _, .remoteMode, rfl⟩
  · exact .inl ⟨_, _, .streamMode, rfl⟩
  · exact .inl ⟨_, _, .scaling21, rfl⟩
  · exact .inl ⟨_, _, .scaling11, rfl⟩
  · exact .inl ⟨_, _, .resolution _, rfl⟩
  · exact .inl ⟨_, _, .sampleRate _, rfl⟩
  · exact .inl ⟨_, _, .enable, rfl⟩
  · exact .inl ⟨_, _, .disable, rfl⟩
  · exact .inl ⟨_, _, .report, rfl⟩
  all_goals exact .inr rfl

theorem CallerStart.blind {op : State → Ran} (h : CallerStart op) : Blind op := by
  cases h with
  | init => exact .initStart
  | remoteMode => exact .setRemoteModeStart
  | streamMode => exact .setStreamModeStart
  | scaling21 => exact .setScaling21Start
  | scaling11 => exact .setScaling11Start
  | resolution r => exact .setResolutionStart r
  | sampleRate n => exact .setSampleRateStart n
  | enable => exact .enableStart
  | disable => exact .disableStart
  | report => exact .reportStart

/-- Settles O48: acceptance does not read the queue, and the run over it is steps; a reserved code takes no sample at
all. -/
theorem execIsSteps : Obligations.ExecIsSteps := by
  intro w s t hb h
  obtain ⟨code, op, hop, he⟩ | he := exec_decodeOp w <;> rw [he] at h ⊢
  · exact start_isSteps hop.blind hb h
  · refine ⟨illegalOp (withInputs [] s), 0, ?_, Nat.zero_le _, ?_⟩
    · exact if_neg (by simpa using hb)
    · rw [startIllegal, if_neg (by simp [hb])] at h
      exact h

end Sys2Proof.Machine

/-! From a sound state no step faults: the stack stays a legal chain of calls, and the slot counter stays within the
ten slots of a frame wherever a slot may end (R28, R140, R149; U13). -/

namespace Sys2Proof.Machine

/-- A frame's operation: the frame with its position forgotten. -/
def opOf (f : Frame) : Frame :=
  match f with
  | .initLink _ => .initLink .powerup
  | .setRemoteMode _ => .setRemoteMode .settle
  | .setStreamMode _ => .setStreamMode .settle
  | .setResolution _ => .setResolution .afterCommand
  | .setSampleRate _ => .setSampleRate .afterCommand
  | .enableReporting _ => .enableReporting .afterByte
  | .disableReporting _ => .disableReporting .afterByte
  | .report _ => .report .afterStatus
  | .toggled c _ => .toggled c .afterCommand
  | .transmit _ => .transmit .settle
  | .receive _ => .receive .settle
  | .readBit _ => .readBit .waitLow
  | .cmd _ => .cmd .afterByte
  | .cmdThenArg a _ => .cmdThenArg a .afterByte
  | .setScaling21 => .setScaling21
  | .setScaling11 => .setScaling11
  | .decode a => .decode a
  | .batResponse => .batResponse

/-- Whom an operation waits for does not depend on where the callee stands. -/
theorem awaits_opOf (g f : Frame) : awaits g (opOf f) = awaits g f := by
  cases f with
  | decode a => rfl
  | _ => cases g with
    | initLink p | setRemoteMode p | setStreamMode p | setResolution p | setSampleRate p | enableReporting p
    | disableReporting p | report p | toggled c p | receive p => cases p <;> rfl
    | _ => rfl

theorem callerCode_opOf (f : Frame) : callerCode (opOf f) = callerCode f := by cases f <;> rfl

/-- The frames `fs`, innermost first, are a chain of calls at whose foot the operation of `f` stands. -/
def stands (f : Frame) (fs : List Frame) : Prop :=
  match fs with
  | [] => False
  | [g] => opOf g = opOf f
  | g :: h :: k => awaits h g = true ∧ stands f (h :: k)

/-- What the operation of `f` leaves in its place on a legal stack makes a legal stack (R28). -/
theorem legalChain_of_stands {code : Option (BitVec 4)} {f : Frame} {fs k : List Frame} (hs : stands f fs)
    (h : legalChain code (f :: k) = true) : legalChain code (fs ++ k) = true := by
  induction fs with
  | nil => exact hs.elim
  | cons g fs ih =>
    cases fs with
    | nil =>
      have hg : opOf g = opOf f := hs
      cases k with
      | nil => rwa [legalChain, ← callerCode_opOf f, ← hg, callerCode_opOf] at h
      | cons c k => rwa [legalChain, ← awaits_opOf c f, ← hg, awaits_opOf] at h
    | cons e fs =>
      obtain ⟨ha, hs⟩ := hs
      show (awaits e g && legalChain code ((e :: fs) ++ k)) = true
      rw [ha, ih hs]
      rfl

/-- A callee's frames above its caller. -/
theorem stands_append {f g c : Frame} {fs : List Frame} (hs : stands g fs) (ha : awaits c g = true)
    (hc : opOf c = opOf f) : stands f (fs ++ [c]) := by
  induction fs with
  | nil => exact hs.elim
  | cons e fs ih =>
    cases fs with
    | nil =>
      have he : opOf e = opOf g := hs
      exact ⟨by rwa [← awaits_opOf, he, awaits_opOf], hc⟩
    | cons e' fs => exact ⟨hs.1, ih hs.2⟩

/-- At a position whose end reads the slot counter, the counter names a slot (R140, R149). -/
def counted (f : Frame) (s : State) : Prop :=
  match f with
  | .transmit .slotLow | .transmit .slotHigh | .readBit _ | .receive .bit => s.bitidx ≤ 9#4
  | _ => True

/-- TRANSMIT_BYTE and RECEIVE_BYTE, whose return lets the caller continue at the next edge (R160). -/
def exchanges (f : Frame) : Prop :=
  match f with
  | .transmit _ | .receive _ => True
  | _ => False

/-- After a byte exchange the innermost position is the caller's, and it reads no slot counter. -/
theorem legalTop_of_exchanges {c f : Frame} (ha : awaits c f = true) (he : exchanges f) (s : State) :
    legalTop c = true ∧ counted c s := by
  unfold awaits at ha
  split at ha <;> simp_all [exchanges, legalTop, awaits, counted]

/-- What an operation returns with is enough for its caller: only READ_BIT's caller reads the counter. -/
theorem counted_of_awaits {c f : Frame} {s : State} (ha : awaits c f = true) (h : counted f s) : counted c s := by
  unfold awaits at ha
  split at ha <;> simp_all [counted]

/-- A step of the operation of `f` goes on: it blocks at a legal innermost position of a chain of calls, or returns to
its caller, or times out; it never finds an unused slot number. -/
def Good (f : Frame) (r : Ran) : Prop :=
  match r with
  | (s, .block fs) => stands f fs ∧ ∃ g k, fs = g :: k ∧ legalTop g = true ∧ counted g s
  | (s, .ret) => counted f s
  | (_, .hold) => exchanges f
  | (_, .timeout) => True
  | (_, .unused) => False

section good
variable {f g c : Frame} {s : State} {k callee : State → Ran}

/-! The position combinators. -/

theorem goto_good (ho : opOf g = opOf f) (ht : legalTop g = true) (hc : counted g s) : Good f (goto g s) :=
  ⟨ho, g, [], rfl, ht, hc⟩

theorem return'_good (h : counted f s) : Good f (return' s) := h

theorem enterWait_good (ho : opOf g = opOf f) (ht : legalTop g = true) (hc : counted g (armTimer s)) :
    Good f (enterWait g s) := goto_good ho ht hc

theorem enterPoll_good (ho : opOf g = opOf f) (ht : legalTop g = true) (hc : counted g (armPoll s)) :
    Good f (enterPoll g s) := goto_good ho ht hc

theorem waitThen_good {n : Time} (hg : Good f (goto g s)) (hk : Good f (k s)) : Good f (waitThen n g k s) := by
  obtain ⟨e, -⟩ | ⟨e, -⟩ := waitThen_cases n g k s <;> rw [e]
  · exact hg
  · exact hk

theorem pollThen_good {b : Bool} (hg : Good f (goto g s)) (hk : Good f (k s)) : Good f (pollThen b g k s) := by
  obtain ⟨e, -⟩ | ⟨e, -⟩ | ⟨e, -⟩ := pollThen_cases b g k s <;> rw [e]
  · exact hg
  · trivial
  · exact hk

theorem callThen_good (ha : awaits c g = true) (ho : opOf c = opOf f) (hc : Good g (callee s))
    (hk : ∀ s, Good f (k s)) : Good f (callThen callee c k s) := by
  unfold callThen
  generalize callee s = r at hc
  obtain ⟨s', fs | _ | _ | _ | _⟩ := r
  case block =>
    obtain ⟨hs, h, fs, rfl, ht, hcount⟩ := hc
    exact ⟨stands_append hs ha ho, h, fs ++ [c], rfl, ht, hcount⟩
  case ret => exact hk s'
  case hold =>
    obtain ⟨ht, hcount⟩ := legalTop_of_exchanges ha hc s'
    exact ⟨ho, c, [], rfl, ht, hcount⟩
  case timeout => trivial
  case unused => exact hc.elim

/-! Transport (40_transport.md). -/

theorem callTransmit_good (v : Byte) (ha : awaits c (.transmit .settle) = true) (ho : opOf c = opOf f) :
    Good f (callTransmit v c s) := ⟨⟨ha, ho⟩, .transmit .settle, [c], rfl, rfl, trivial⟩

theorem callReceive_good (ha : awaits c (.receive .settle) = true) (ho : opOf c = opOf f) :
    Good f (callReceive c s) := ⟨⟨ha, ho⟩, .receive .settle, [c], rfl, rfl, trivial⟩

theorem enterSlot_good {p : TxPos} {i : BitVec 4} (hi : i ≤ 9#4) : Good (.transmit p) (enterSlot i s) :=
  enterPoll_good rfl rfl (by simpa [counted] using hi)

theorem nextSlot_good {p : TxPos} (h : s.bitidx ≤ 9#4) : Good (.transmit p) (nextSlot s) := by
  unfold nextSlot
  split_ifs with hlt heq
  · exact enterSlot_good (by bv_omega)
  · exact goto_good rfl rfl trivial
  · bv_omega

theorem transmitStep_good (p : TxPos) (h : counted (.transmit p) s) : Good (.transmit p) (transmitStep p s) := by
  have stay : Good (.transmit p) (goto (.transmit p) s) := goto_good rfl rfl h
  cases p with
  | settle =>
    exact waitThen_good (k := fun s => enterWait (.transmit .inhibit) (drive .clock .low s)) stay
      (enterWait_good rfl rfl trivial)
  | inhibit =>
    exact waitThen_good (k := fun s => enterWait (.transmit .start) (drive .data .low s)) stay
      (enterWait_good rfl rfl trivial)
  | start =>
    exact waitThen_good (k := fun s => enterPoll (.transmit .grant) (drive .clock .rel s)) stay
      (enterPoll_good rfl rfl trivial)
  | post => exact waitThen_good stay (enterPoll_good rfl rfl trivial)
  | grant => exact pollThen_good stay (enterSlot_good (by decide))
  | slotLow => exact pollThen_good stay (enterPoll_good rfl rfl (by simpa [counted] using h))
  | slotHigh => exact pollThen_good stay (nextSlot_good h)
  | ack => exact pollThen_good stay trivial

theorem readBitStep_good (p : RbPos) (h : s.bitidx ≤ 9#4) : Good (.readBit p) (readBitStep p s) := by
  have stay : Good (.readBit p) (goto (.readBit p) s) := goto_good rfl rfl h
  cases p with
  | waitLow => exact pollThen_good stay (goto_good rfl rfl h)
  | sample => exact enterPoll_good rfl rfl (by simpa [counted] using h)
  | waitHigh => exact pollThen_good stay (return'_good h)

theorem readSlot_good {p : RxPos} {i : BitVec 4} (hi : i ≤ 9#4) : Good (.receive p) (readSlot i s) :=
  ⟨⟨rfl, rfl⟩, .readBit .waitLow, [.receive .bit], rfl, rfl, by simpa [counted] using hi⟩

theorem slotRead_good {p : RxPos} (h : s.bitidx ≤ 9#4) : Good (.receive p) (slotRead s) := by
  unfold slotRead
  split_ifs with hlt heq
  · exact readSlot_good (by bv_omega)
  · trivial
  · bv_omega

theorem receiveStep_good (p : RxPos) (h : counted (.receive p) s) : Good (.receive p) (receiveStep p s) := by
  cases p with
  | settle => exact waitThen_good (goto_good rfl rfl trivial) (enterWait_good rfl rfl trivial)
  | soft =>
    unfold receiveStep
    split_ifs
    · exact goto_good rfl rfl trivial
    · exact enterWait_good rfl rfl trivial
  | skew => exact waitThen_good (goto_good rfl rfl trivial) (enterPoll_good rfl rfl trivial)
  | eat => exact pollThen_good (goto_good rfl rfl trivial) (readSlot_good (by decide))
  | bit => exact slotRead_good h

/-! Mode and configuration commands (42_config.md). -/

theorem enableStart_good : Good (.enableReporting .afterByte) (enableStart s) := by
  unfold enableStart
  split_ifs
  · trivial
  · exact callTransmit_good _ rfl rfl

theorem enableStep_good (p : CmdPos) : Good (.enableReporting p) (enableStep p s) := by
  cases p with
  | afterByte => exact callReceive_good rfl rfl
  | afterAck => trivial

theorem disableStart_good : Good (.disableReporting .afterByte) (disableStart s) := by
  unfold disableStart
  split_ifs
  · exact callTransmit_good _ rfl rfl
  · trivial

theorem disableStep_good (p : CmdPos) : Good (.disableReporting p) (disableStep p s) := by
  cases p with
  | afterByte => exact callReceive_good rfl rfl
  | afterAck => trivial

theorem toggledStart_good (b : Byte) : Good (.toggled b .afterCommand) (toggledStart b s) := by
  unfold toggledStart
  dsimp only
  split_ifs
  · exact callThen_good rfl rfl disableStart_good fun _ => callTransmit_good _ rfl rfl
  · exact callTransmit_good _ rfl rfl

theorem toggledStep_good (b : Byte) (p : ToggledPos) : Good (.toggled b p) (toggledStep b p s) := by
  cases p with
  | afterSuspend => exact callTransmit_good _ rfl rfl
  | afterCommand => exact callReceive_good rfl rfl
  | afterAck =>
    unfold toggledStep
    dsimp only
    split_ifs
    · exact callThen_good rfl rfl enableStart_good fun _ => trivial
    · trivial
  | afterResume => trivial

theorem setScaling21Start_good : Good .setScaling21 (setScaling21Start s) :=
  callThen_good rfl rfl (toggledStart_good _) fun _ => trivial

theorem setScaling11Start_good : Good .setScaling11 (setScaling11Start s) :=
  callThen_good rfl rfl (toggledStart_good _) fun _ => trivial

/-- A mode set ends in the wait of R192 or at once. -/
theorem finishMode_good {m : Mode} (ho : opOf g = opOf f) (ht : legalTop g = true) (hg : ∀ s, counted g s)
    (hf : ∀ s, counted f s) : Good f (finishMode m g s) := by
  unfold finishMode
  dsimp only
  split_ifs
  · exact goto_good ho ht (hg _)
  · exact hf _

theorem setRemoteModeStart_good : Good (.setRemoteMode .settle) (setRemoteModeStart s) :=
  callThen_good rfl rfl (toggledStart_good _) fun _ => finishMode_good rfl rfl (fun _ => trivial) fun _ => trivial

theorem setRemoteModeStep_good (p : ModePos) : Good (.setRemoteMode p) (setRemoteModeStep p s) := by
  cases p with
  | afterHelper => exact finishMode_good rfl rfl (fun _ => trivial) fun _ => trivial
  | settle => exact waitThen_good (goto_good rfl rfl trivial) trivial

theorem setStreamModeStart_good : Good (.setStreamMode .settle) (setStreamModeStart s) :=
  callThen_good rfl rfl (toggledStart_good _) fun _ => finishMode_good rfl rfl (fun _ => trivial) fun _ => trivial

theorem setStreamModeStep_good (p : ModePos) : Good (.setStreamMode p) (setStreamModeStep p s) := by
  cases p with
  | afterHelper => exact finishMode_good rfl rfl (fun _ => trivial) fun _ => trivial
  | settle => exact waitThen_good (goto_good rfl rfl trivial) trivial

theorem setResolutionStart_good (r : Byte) : Good (.setResolution .afterCommand) (setResolutionStart r s) := by
  unfold setResolutionStart
  dsimp only
  split_ifs
  · exact callThen_good rfl rfl enableStart_good fun _ => callTransmit_good _ rfl rfl
  · exact callTransmit_good _ rfl rfl

theorem setResolutionStep_good (p : ArgPos) : Good (.setResolution p) (setResolutionStep p s) := by
  cases p with
  | afterFirstToggle | afterCommandAck => exact callTransmit_good _ rfl rfl
  | afterCommand | afterArgument => exact callReceive_good rfl rfl
  | afterArgumentAck =>
    unfold setResolutionStep
    dsimp only
    split_ifs
    · exact callThen_good rfl rfl disableStart_good fun _ => trivial
    · trivial
  | afterLastToggle => trivial

theorem setSampleRateStart_good (n : Byte) : Good (.setSampleRate .afterCommand) (setSampleRateStart n s) := by
  unfold setSampleRateStart
  dsimp only
  split_ifs
  · exact callThen_good rfl rfl disableStart_good fun _ => callTransmit_good _ rfl rfl
  · exact callTransmit_good _ rfl rfl

theorem setSampleRateStep_good (p : ArgPos) : Good (.setSampleRate p) (setSampleRateStep p s) := by
  cases p with
  | afterFirstToggle | afterCommandAck => exact callTransmit_good _ rfl rfl
  | afterCommand | afterArgument => exact callReceive_good rfl rfl
  | afterArgumentAck =>
    unfold setSampleRateStep
    dsimp only
    split_ifs
    · exact callThen_good rfl rfl enableStart_good fun _ => trivial
    · trivial
  | afterLastToggle => trivial

/-! INITIALIZE (41_init.md). -/

theorem initSetUp_good {p : InitPos} : Good (.initLink p) (initSetUp s) := by
  unfold initSetUp
  split
  · exact callThen_good rfl rfl setRemoteModeStart_good fun _ => enterWait_good rfl rfl trivial
  · exact callThen_good rfl rfl enableStart_good fun _ => enterWait_good rfl rfl trivial

theorem initTest_good {p : InitPos} : Good (.initLink p) (initTest s) := by
  unfold initTest
  split_ifs
  · exact initSetUp_good
  · trivial

theorem initStep_good (p : InitPos) : Good (.initLink p) (initStep p s) := by
  cases p with
  | powerup => exact waitThen_good (goto_good rfl rfl trivial) (callTransmit_good _ rfl rfl)
  | afterReset | afterAck | afterBat => exact callReceive_good rfl rfl
  | afterId | afterSetUp => exact enterWait_good rfl rfl trivial
  | postBat => exact waitThen_good (goto_good rfl rfl trivial) initTest_good
  | final =>
    exact waitThen_good (k := fun s => return' (passInit s)) (goto_good rfl rfl trivial) (return'_good trivial)

/-! REPORT (43_report.md). -/

theorem reportStart_good : Good (.report .afterStatus) (reportStart s) := by
  unfold reportStart
  split
  · exact callTransmit_good _ rfl rfl
  · exact callReceive_good rfl rfl

theorem reportY_good {p : ReportPos} : Good (.report p) (reportY s) :=
  callThen_good (g := .decode .y) rfl rfl (callReceive_good rfl rfl) fun _ => trivial

theorem reportStep_good (p : ReportPos) : Good (.report p) (reportStep p s) := by
  cases p with
  | afterPoll | afterPollAck => exact callReceive_good rfl rfl
  | afterStatus =>
    exact callThen_good (g := .decode .x) (k := reportY) rfl rfl (callReceive_good rfl rfl) fun _ => reportY_good
  | afterX => exact reportY_good
  | afterY => trivial

end good

/-! The sequencer (R28). -/

/-- The frames of a legal chain: none of a pseudo-operation or response run on its own (log entries 5 and 8). -/
def called (f : Frame) : Prop :=
  match f with
  | .cmd _ | .cmdThenArg _ _ | .batResponse => False
  | _ => True

theorem called_of_legalChain {code : Option (BitVec 4)} {f : Frame} {k : List Frame}
    (h : legalChain code (f :: k) = true) : called f := by
  cases f with
  | cmd | cmdThenArg | batResponse =>
    cases k with
    | nil => simp [legalChain, callerCode] at h
    | cons g k => simp [legalChain, awaits] at h
  | _ => trivial

theorem frameStep_good {f : Frame} {s : State} (hf : called f) (h : counted f s) : Good f (frameStep f s) := by
  cases f with
  | initLink p => exact initStep_good p
  | setRemoteMode p => exact setRemoteModeStep_good p
  | setStreamMode p => exact setStreamModeStep_good p
  | setScaling21 | setScaling11 | decode => trivial
  | setResolution p => exact setResolutionStep_good p
  | setSampleRate p => exact setSampleRateStep_good p
  | enableReporting p => exact enableStep_good p
  | disableReporting p => exact disableStep_good p
  | report p => exact reportStep_good p
  | toggled c p => exact toggledStep_good c p
  | transmit p => exact transmitStep_good p h
  | receive p => exact receiveStep_good p h
  | readBit p => exact readBitStep_good p h
  | cmd | cmdThenArg | batResponse => exact hf.elim

/-- Where the HOST is busy, a caller operation is under way: its stack is legal, and the innermost position's counter
names a slot. -/
def UnderWay (s : State) : Prop :=
  s.busy = true → ∃ code f k, s.stack = f :: k ∧ legalChain code (f :: k) = true ∧ legalTop f = true ∧ counted f s

theorem underWay_of_idle {s : State} (h : s.busy = false) : UnderWay s := fun hb => absurd hb (by simp [h])

theorem underWay_of_sound {s : State} (h : Sound s) : UnderWay s := by
  intro hb
  obtain ⟨hchain, f, k, hk, ht⟩ := h.busy hb
  have hl := h.lines
  rw [linesFit, hk] at hl
  refine ⟨s.opCode, f, k, hk, hk ▸ hchain, ht, ?_⟩
  unfold counted
  split
  · exact hl.2.1
  · exact hl.2.1
  · exact hl.2.2
  · cases ht
  · trivial

theorem resume_goes {code : Option (BitVec 4)} {k : List Frame} {s : State} (hk : k ≠ [] → legalChain code k = true)
    (hc : ∀ f ∈ k.head?, counted f s) : ∃ t, resume k s = .next t ∧ UnderWay t := by
  induction k generalizing s with
  | nil => exact ⟨_, rfl, underWay_of_idle rfl⟩
  | cons f k ih =>
    have hchain := hk (by simp)
    have hgood := frameStep_good (called_of_legalChain hchain) (hc f rfl)
    rw [resume_cons]
    generalize frameStep f s = r at hgood
    obtain ⟨s', fs | _ | _ | _ | _⟩ := r
    case block =>
      obtain ⟨hs, g, fs, rfl, ht, hcount⟩ := hgood
      exact ⟨_, rfl, fun _ => ⟨code, g, fs ++ k, rfl, legalChain_of_stands hs hchain, ht, hcount⟩⟩
    case ret =>
      cases k with
      | nil => exact ih (by simp) (by simp)
      | cons c k =>
        obtain ⟨ha, hrest⟩ : awaits c f = true ∧ legalChain code (c :: k) = true := by simpa [legalChain] using hchain
        exact ih (fun _ => hrest) (by rintro _ ⟨⟩; exact counted_of_awaits ha hgood)
    case hold =>
      cases k with
      | nil => exact ⟨_, rfl, underWay_of_idle rfl⟩
      | cons c k =>
        obtain ⟨ha, hrest⟩ : awaits c f = true ∧ legalChain code (c :: k) = true := by simpa [legalChain] using hchain
        obtain ⟨ht, hcount⟩ := legalTop_of_exchanges ha hgood s'
        exact ⟨_, rfl, fun _ => ⟨code, c, k, rfl, hrest, ht, hcount⟩⟩
    case timeout => exact ⟨_, rfl, underWay_of_idle rfl⟩
    case unused => exact hgood.elim

theorem edge_goes {x : Sample} {s : State} (hb : s.busy = true) (h : UnderWay s) :
    ∃ t, edge x s = .next t ∧ UnderWay t := by
  obtain ⟨-, he⟩ | ⟨-, he⟩ := edge_cases x s
  · exact ⟨_, he, underWay_of_idle rfl⟩
  · obtain ⟨code, f, k, hk, hchain, -, hc⟩ := h hb
    rw [he, hk]
    exact resume_goes (fun _ => hchain) (by rintro _ ⟨⟩; exact hc)

theorem run_goes {xs : List Sample} {s : State} (h : UnderWay s) : Goes (run xs s) := by
  induction xs generalizing s with
  | nil => exact ⟨_, rfl⟩
  | cons x xs ih =>
    cases hb : s.busy with
    | false => exact ⟨_, run_idle hb _⟩
    | true =>
      obtain ⟨s', he, h'⟩ := edge_goes (x := x) hb h
      rw [run, if_pos hb, he]
      exact ih h'

/-- A caller operation's first step leaves it under way, with its own frame at the foot. -/
theorem CallerStart.good {op : State → Ran} (h : CallerStart op) :
    ∃ f, (callerCode f).isSome = true ∧ ∀ s, Good f (op s) := by
  cases h with
  | init => exact ⟨.initLink .powerup, rfl, fun _ => goto_good rfl rfl trivial⟩
  | remoteMode => exact ⟨_, rfl, fun _ => setRemoteModeStart_good⟩
  | streamMode => exact ⟨_, rfl, fun _ => setStreamModeStart_good⟩
  | scaling21 => exact ⟨_, rfl, fun _ => setScaling21Start_good⟩
  | scaling11 => exact ⟨_, rfl, fun _ => setScaling11Start_good⟩
  | resolution r => exact ⟨_, rfl, fun _ => setResolutionStart_good r⟩
  | sampleRate n => exact ⟨_, rfl, fun _ => setSampleRateStart_good n⟩
  | enable => exact ⟨_, rfl, fun _ => enableStart_good⟩
  | disable => exact ⟨_, rfl, fun _ => disableStart_good⟩
  | report => exact ⟨_, rfl, fun _ => reportStart_good⟩

theorem start_goes {code : Option (BitVec 4)} {op : State → Ran} (h : CallerStart op) (s : State) :
    Goes (start code op s) := by
  obtain ⟨f, hf, hop⟩ := h.good
  have hgood := hop (accepted code s)
  unfold start
  split_ifs
  · exact ⟨_, rfl⟩
  · rw [← accepted]
    generalize op (accepted code s) = r at hgood
    obtain ⟨s', fs | _ | _ | _ | _⟩ := r
    case block =>
      obtain ⟨hs, g, fs, rfl, ht, hcount⟩ := hgood
      have hfoot : legalChain (callerCode f) [f] = true := by simp [legalChain, hf]
      have hchain := legalChain_of_stands hs hfoot
      rw [List.append_nil] at hchain
      exact run_goes fun _ => ⟨_, g, fs, rfl, hchain, ht, hcount⟩
    case unused => exact hgood.elim
    all_goals exact ⟨_, rfl⟩

theorem exec_decodeOp_goes (w : BitVec 12) (s : State) : Goes (exec (decodeOp w) s) := by
  obtain ⟨code, op, hop, he⟩ | he := exec_decodeOp w <;> rw [he]
  · exact start_goes hop s
  · unfold startIllegal
    split_ifs <;> exact ⟨_, rfl⟩

/-- Settles O43: a busy HOST's edge goes since the operation is under way; an idle one has no select word, and an op
word's operation goes from every state. -/
theorem soundGoes : Obligations.SoundGoes := by
  intro s hs
  have hu : UnderWay s := underWay_of_sound hs
  obtain ⟨hb, he⟩ | ⟨-, w, hw, -⟩ | ⟨-, -, -, he⟩ | ⟨-, -, -, -, he⟩ | ⟨-, -, -, -, he⟩ := step_cases s
  · obtain ⟨t, ht, -⟩ := edge_goes (x := (nextSample s).1) (s := { s with inputs := (nextSample s).2 }) hb hu
    exact ⟨t, he.trans ht⟩
  · simp [hs.noSel] at hw
  · exact ⟨_, he⟩
  · rw [he, execWord_op]
    exact exec_decodeOp_goes _ _
  · exact ⟨_, he⟩

end Sys2Proof.Machine

/-! The decoder and the encoder answer each other, port by port (R90, R92, R94, R97, R101, R103). -/

namespace Sys2Proof

theorem within_eq_instr {n : Nat} {w : BitVec 24} {k : Decoded} {i : Instr} :
    within n w k = .instr i ↔ w >>> n = 0#24 ∧ k = .instr i := by
  unfold within
  split <;> simp [*]

@[simp] theorem within_setWidth {n : Nat} (v : BitVec n) (k : Decoded) : within n (v.setWidth 24) k = k :=
  if_pos (Laws.shift_setWidth v n (Nat.le_refl n))

/-- A word with no bit from `n` on is its first `n` bits. -/
theorem setWidth_setWidth_of_fits {n : Nat} {w : BitVec 24} (h : w >>> n = 0#24) : (w.setWidth n).setWidth 24 = w := by
  apply BitVec.eq_of_getLsbD_eq
  intro i hi
  have hbit : n ≤ i → w.getLsbD i = false := fun hn => by
    have h' := congrArg (fun v => v.getLsbD (i - n)) h
    simpa [BitVec.getLsbD_ushiftRight, Nat.add_sub_cancel' hn] using h'
  rw [BitVec.getLsbD_setWidth, BitVec.getLsbD_setWidth]
  by_cases hn : i < n
  · simp [hi, hn]
  · simp [hn, hbit (Nat.le_of_not_lt hn)]

/-! Bytes in a word. -/

@[simp] theorem byteOf_setWidth (v : Byte) : byteOf (v.setWidth 24) 0 = v := by
  simp [byteOf, BitVec.extractLsb'_setWidth_of_le, BitVec.extractLsb'_eq_self]

@[simp] theorem byteOf_zero_setWidth_append (b a : Byte) : byteOf ((b ++ a).setWidth 24) 0 = a := by
  rw [byteOf, BitVec.extractLsb'_setWidth_of_le (by decide)]
  exact BitVec.extractLsb'_append_eq_right

@[simp] theorem byteOf_one_setWidth_append (b a : Byte) : byteOf ((b ++ a).setWidth 24) 1 = b := by
  rw [byteOf, BitVec.extractLsb'_setWidth_of_le (by decide)]
  exact BitVec.extractLsb'_append_eq_left

theorem byteOf_zero_of_fits {w : BitVec 24} (h : w >>> 8 = 0#24) : (byteOf w 0).setWidth 24 = w := by
  rw [byteOf, ← BitVec.setWidth_eq_extractLsb' (by decide), setWidth_setWidth_of_fits h]

/-- Two fields of a word that meet, side by side. -/
theorem extract_append {n : Nat} (w : BitVec n) (a m l : Nat) :
    w.extractLsb' (a + l) m ++ w.extractLsb' a l = w.extractLsb' a (m + l) :=
  BitVec.extractLsb'_append_extractLsb'_eq_extractLsb' rfl

theorem bytes_of_fits {w : BitVec 24} (h : w >>> 16 = 0#24) : (byteOf w 1 ++ byteOf w 0).setWidth 24 = w := by
  have hb : byteOf w 1 ++ byteOf w 0 = w.setWidth 16 :=
    (extract_append w 0 8 8).trans (BitVec.setWidth_eq_extractLsb' (by decide)).symm
  rw [hb, setWidth_setWidth_of_fits h]

theorem bytes_of_append (a b c : Byte) :
    byteOf (c ++ (b ++ a)) 0 = a ∧ byteOf (c ++ (b ++ a)) 1 = b ∧ byteOf (c ++ (b ++ a)) 2 = c :=
  ⟨(BitVec.extractLsb'_append_eq_of_add_le (by decide)).trans BitVec.extractLsb'_append_eq_right,
    (BitVec.extractLsb'_append_eq_of_add_le (by decide)).trans BitVec.extractLsb'_append_eq_left,
    BitVec.extractLsb'_append_eq_left⟩

theorem bytes_append (w : BitVec 24) : byteOf w 2 ++ (byteOf w 1 ++ byteOf w 0) = w := by
  have hb : byteOf w 1 ++ byteOf w 0 = w.extractLsb' 0 16 := extract_append w 0 8 8
  rw [hb]
  exact (extract_append w 0 8 16).trans BitVec.extractLsb'_eq_self

/-! The op word (R100, R101). -/

@[simp] theorem opCodeOf_opWord (code : BitVec 4) (arg : Byte) : opCodeOf (opWord code arg) = code :=
  BitVec.extractLsb'_append_eq_left

@[simp] theorem opArgOf_opWord (code : BitVec 4) (arg : Byte) : opArgOf (opWord code arg) = arg :=
  BitVec.extractLsb'_append_eq_right

theorem opWord_fields (op : BitVec 12) : opWord (opCodeOf op) (opArgOf op) = op :=
  (extract_append op 0 4 8).trans BitVec.extractLsb'_eq_self

@[simp] theorem decode_opPortWord (code : BitVec 4) (arg : Byte) :
    decode (opPortWord code arg) = .instr (decodeOp (opWord code arg)) := by
  simp [decode, opPortWord, BitVec.setWidth_setWidth_of_le]

theorem encode_decodeOp (op : BitVec 12) : encode (decodeOp op) = opPortWord (opCodeOf op) (opArgOf op) := by
  unfold decodeOp
  dsimp only
  split
  case h_16 h0 h1 h2 h3 h4 h5 h6 h7 h8 h9 hA hB hC hD hE =>
    have hF : opCodeOf op = 0xF#4 := by
      have hlt := (opCodeOf op).isLt
      simp only [imp_false, ← BitVec.toNat_inj, BitVec.toNat_ofNat, Nat.reduceMod, Nat.reducePow] at *
      omega
    rw [hF]
    rfl
  all_goals next h => rw [h]; rfl

theorem decodeOp_wellFormed (op : BitVec 12) : (decodeOp op).wellFormed = true := by
  unfold decodeOp
  dsimp only
  split <;> rfl

/-! A wire command and its argument byte (R94, R95). -/

@[simp] theorem decode_wirePortWord (c a : Byte) : decode (wirePortWord c a) = decodeWire c a := by
  simp [decode, wirePortWord]

theorem noArgument_eq_instr {a : Byte} {i j : Instr} : noArgument a i = .instr j ↔ a = 0#8 ∧ i = j := by
  unfold noArgument
  split <;> simp [*]

theorem encode_of_decodeWire {c a : Byte} {i : Instr} (h : decodeWire c a = .instr i) :
    encode i = wirePortWord c a ∧ i.wellFormed = true := by
  by_cases hres : c = 0xE8#8
  · subst c
    obtain rfl := Decoded.instr.inj h
    exact ⟨rfl, rfl⟩
  by_cases hrate : c = 0xF3#8
  · subst c
    obtain rfl := Decoded.instr.inj h
    exact ⟨rfl, rfl⟩
  unfold decodeWire at h
  rw [if_neg hres, if_neg hrate] at h
  split_ifs at h <;>
  · obtain ⟨rfl, rfl⟩ := noArgument_eq_instr.mp h
    subst c
    exact ⟨rfl, rfl⟩

/-! Frames (R90, R92). -/

theorem frameOf_fields (slots : BitVec 11) :
    frameOf (slots.getLsbD 0) (frameByte slots) (slots.getLsbD 9) (slots.getLsbD 10) = slots := by
  have hbit (k : Nat) : BitVec.ofBool (slots.getLsbD k) = slots.extractLsb' k 1 := by
    apply BitVec.eq_of_getLsbD_eq
    intro i hi
    obtain rfl : i = 0 := by omega
    simp
  have h1 : frameByte slots ++ slots.extractLsb' 0 1 = slots.extractLsb' 0 9 := extract_append slots 0 8 1
  have h2 : slots.extractLsb' 9 1 ++ slots.extractLsb' 0 9 = slots.extractLsb' 0 10 := extract_append slots 0 1 9
  rw [frameOf, hbit, hbit, hbit, h1, h2]
  exact (extract_append slots 0 1 10).trans BitVec.extractLsb'_eq_self

/-- The slots of a frame (R90). -/
theorem frameOf_slots (start : Bool) (v : Byte) (parity stop : Bool) :
    (frameOf start v parity stop).getLsbD 0 = start ∧
    (∀ k : Fin 8, (frameOf start v parity stop).getLsbD (k + 1) = v.getLsbD k) ∧
    (frameOf start v parity stop).getLsbD 9 = parity ∧ (frameOf start v parity stop).getLsbD 10 = stop := by
  refine ⟨?_, fun k => ?_, ?_, ?_⟩ <;> rw [frameOf] <;> simp only [BitVec.getLsbD_append]
  · simp
  · simp [show (k : Nat) + 1 < 10 by omega, show (k : Nat) + 1 < 9 by omega]
  · simp
  · simp

theorem decodeFrameH2D_goodFrame (v : Byte) :
    decodeFrameH2D (goodFrame v) = .instr (.frameH2D v (oddParity v)) := by
  obtain ⟨h0, -, h9, h10⟩ := frameOf_slots false v (oddParity v) true
  have hv : frameByte (goodFrame v) = v := Machine.frameByte_goodFrame v
  rw [← goodFrame] at h0 h9 h10
  simp only [decodeFrameH2D, h0, h9, h10, hv, bne_self_eq_false, Bool.not_true, Bool.false_eq_true, if_false]

theorem encode_of_decodeFrameH2D {slots : BitVec 11} {i : Instr} (h : decodeFrameH2D slots = .instr i) :
    encode i = ⟨.frameH2D11, slots.setWidth 24⟩ ∧ i.wellFormed = true := by
  unfold decodeFrameH2D at h
  split_ifs at h with h0 h10 h9
  cases h
  have hf := frameOf_fields slots
  rw [Bool.eq_false_iff.mpr h0, show slots.getLsbD 10 = true by simpa using h10] at hf
  exact ⟨by rw [encode, hf], by simpa [Instr.wellFormed] using h9⟩

/-! One byte at a port, and a request with its operand (R96, R103, R107). -/

theorem byte_of_fits {w : BitVec 24} {p : Port} (h : w >>> 8 = 0#24) : bytePortWord p (byteOf w 0) = ⟨p, w⟩ := by
  rw [bytePortWord, byteOf_zero_of_fits h]

theorem decode_tReq2 (w : BitVec 24) : decode ⟨.tReq2, w⟩ =
    if w.extractLsb' 2 6 = 0#6 then within 16 w (decodeTReq (w.setWidth 2) (byteOf w 1)) else .reject .strayBits := rfl

theorem decode_transmitByte (v : Byte) : decode (encode (.transmitByte v)) = .instr (.transmitByte v) := by
  have hpad : ((v ++ 0b01#8).setWidth 24).extractLsb' 2 6 = 0#6 := by
    rw [BitVec.extractLsb'_setWidth_of_le (by decide), BitVec.extractLsb'_append_eq_of_add_le (by decide)]
    rfl
  have hreq : ((v ++ 0b01#8).setWidth 24).setWidth 2 = 0b01#2 := by
    rw [BitVec.setWidth_setWidth_of_le _ (by decide), BitVec.setWidth_append, dif_pos (by decide)]
    rfl
  have hfit : ((v ++ 0b01#8).setWidth 24) >>> 16 = 0#24 := Laws.shift_setWidth _ 16 (Nat.le_refl _)
  rw [encode, decode_tReq2, if_pos hpad, within, if_pos hfit, hreq, byteOf_one_setWidth_append]
  rfl

/-- A request's word is its operand above its two bits (R103). -/
theorem request_of_fits {w : BitVec 24} (hpad : w.extractLsb' 2 6 = 0#6) (h : w >>> 16 = 0#24) :
    w = (byteOf w 1 ++ (0#6 ++ w.setWidth 2)).setWidth 24 := by
  have hlow : byteOf w 0 = 0#6 ++ w.setWidth 2 := by
    rw [← hpad, BitVec.setWidth_eq_extractLsb' (by decide)]
    exact (extract_append w 0 6 2).symm
  rw [← hlow, bytes_of_fits h]

theorem encode_of_decodeTReq {req : BitVec 2} {v : Byte} {i : Instr} (h : decodeTReq req v = .instr i) :
    encode i = ⟨.tReq2, (v ++ (0#6 ++ req)).setWidth 24⟩ ∧ i.wellFormed = true := by
  unfold decodeTReq at h
  split_ifs at h with hsend hread <;> subst req
  · obtain rfl := Decoded.instr.inj h
    exact ⟨rfl, rfl⟩
  · obtain ⟨rfl, rfl⟩ := noArgument_eq_instr.mp h
    exact ⟨rfl, rfl⟩

/-- Settles O1: at each port the decoder reads back the fields that the encoder placed. -/
theorem decodeEncode : Obligations.DecodeEncode := by
  intro i hwf
  cases i with
  | initializeLink | setRemoteMode | setStreamMode | setScaling21 | setScaling11 | setResolution | setSampleRate
  | enableDataReporting | disableDataReporting | report
  | reservedA | reservedB | reservedC | reservedD | reservedE | reservedF =>
    rw [encode, decode_opPortWord]
    simp [decodeOp]
  | wireReset | wireSetRemoteMode | wireSetStreamMode | wireSetScaling21 | wireSetScaling11 | wireSetResolution
  | wireSetSampleRate | wireEnableDataReporting | wireDisableDataReporting | wireReadData =>
    rw [encode, decode_wirePortWord]
    rfl
  | respAck | respDeviceId | cmd => simp [encode, decode, bytePortWord]
  | frameH2D v p =>
    obtain rfl : p = oddParity v := by simpa [Instr.wellFormed] using hwf
    simp only [encode, decode, within_setWidth, BitVec.setWidth_setWidth_of_le _ (show 11 ≤ 24 by decide),
      BitVec.setWidth_eq]
    exact decodeFrameH2D_goodFrame v
  | frameD2H slots => simp [encode, decode, BitVec.setWidth_setWidth_of_le]
  | movementReport st x y =>
    obtain ⟨h0, h1, h2⟩ := bytes_of_append st x y
    simp only [encode, decode, h0, h1, h2]
  | transmitByte v => exact decode_transmitByte v
  | respBatPass | receiveByte | readBit | decodeX | decodeY => decide
  | cmdToggled c =>
    have hc : c ∈ commandBytes := by simpa [Instr.wellFormed] using hwf
    simp [encode, decode, bytePortWord, hc]

/-- Settles O2: at each port, a word that decodes fits the port and is put together again from the fields that the
decoder read. -/
theorem decodedWordsAreEncodings : Obligations.DecodedWordsAreEncodings := by
  rintro ⟨port, w⟩ i h
  cases port with
  | op12 =>
    obtain ⟨hfit, hi⟩ := within_eq_instr.mp h
    obtain rfl := Decoded.instr.inj hi
    refine ⟨?_, decodeOp_wellFormed _⟩
    rw [encode_decodeOp, opPortWord, opWord_fields, setWidth_setWidth_of_fits hfit]
  | wireCmd8 =>
    obtain ⟨hfit, hi⟩ := within_eq_instr.mp h
    obtain ⟨he, hwf⟩ := encode_of_decodeWire hi
    exact ⟨by rw [he, wirePortWord, bytes_of_fits hfit], hwf⟩
  | respBat8 =>
    obtain ⟨hfit, hi⟩ := within_eq_instr.mp h
    split_ifs at hi with hb
    obtain rfl := Decoded.instr.inj hi
    exact ⟨by rw [encode, ← hb, byte_of_fits hfit], rfl⟩
  | respAck8 | respId8 | cmd8 =>
    obtain ⟨hfit, hi⟩ := within_eq_instr.mp h
    obtain rfl := Decoded.instr.inj hi
    exact ⟨byte_of_fits hfit, rfl⟩
  | frameH2D11 =>
    obtain ⟨hfit, hi⟩ := within_eq_instr.mp h
    obtain ⟨he, hwf⟩ := encode_of_decodeFrameH2D hi
    exact ⟨by rw [he, setWidth_setWidth_of_fits hfit], hwf⟩
  | frameD2H11 =>
    obtain ⟨hfit, hi⟩ := within_eq_instr.mp h
    obtain rfl := Decoded.instr.inj hi
    exact ⟨by rw [encode, setWidth_setWidth_of_fits hfit], rfl⟩
  | report24 =>
    obtain rfl := Decoded.instr.inj h
    exact ⟨by rw [encode, bytes_append], rfl⟩
  | tReq2 =>
    rw [decode_tReq2] at h
    split_ifs at h with hpad
    obtain ⟨hfit, hi⟩ := within_eq_instr.mp h
    obtain ⟨he, hwf⟩ := encode_of_decodeTReq hi
    exact ⟨by rw [he, ← request_of_fits hpad hfit], hwf⟩
  | tState5 =>
    obtain ⟨hfit, hi⟩ := within_eq_instr.mp h
    split_ifs at hi with hb
    obtain rfl := Decoded.instr.inj hi
    have hw := setWidth_setWidth_of_fits (w := w) hfit
    rw [show w.setWidth 5 = 14#5 from hb] at hw
    exact ⟨by rw [← hw]; rfl, rfl⟩
  | decSel1 =>
    obtain ⟨hfit, hi⟩ := within_eq_instr.mp h
    have hw := setWidth_setWidth_of_fits (w := w) hfit
    rw [BitVec.setWidth_one] at hw
    split_ifs at hi with hb <;> obtain rfl := Decoded.instr.inj hi
    · rw [show w.getLsbD 0 = true from hb] at hw
      exact ⟨by rw [← hw]; rfl, rfl⟩
    · rw [show w.getLsbD 0 = false by simpa using hb] at hw
      exact ⟨by rw [← hw]; rfl, rfl⟩
  | toggled8 =>
    obtain ⟨hfit, hi⟩ := within_eq_instr.mp h
    split_ifs at hi with hc
    obtain rfl := Decoded.instr.inj hi
    exact ⟨byte_of_fits hfit, by simpa [Instr.wellFormed] using hc⟩

/-- Settles O3: the thirteen words, computed. -/
theorem wordsOfTheTablesDecode : Obligations.WordsOfTheTablesDecode := by
  unfold Obligations.WordsOfTheTablesDecode
  decide

/-- The parity slot makes the number of ones odd (R91). -/
theorem popcount_add_oddParity (v : Byte) : (popcount v + (oddParity v).toNat) % 2 = 1 := by
  unfold popcount oddParity xorBits
  generalize v.getLsbD 0 = b0, v.getLsbD 1 = b1, v.getLsbD 2 = b2, v.getLsbD 3 = b3, v.getLsbD 4 = b4,
    v.getLsbD 5 = b5, v.getLsbD 6 = b6, v.getLsbD 7 = b7
  revert b0 b1 b2 b3 b4 b5 b6 b7
  decide

/-- Settles O4: the slots of a frame are its fields, the parity slot among them. -/
theorem frameOfAByte : Obligations.FrameOfAByte := by
  intro v
  obtain ⟨h0, hv, h9, h10⟩ := frameOf_slots false v (oddParity v) true
  exact ⟨h0, hv, h9, h10, popcount_add_oddParity v⟩

/-- Settles O5: the high byte is −1 or 0, so it adds −256 or nothing to the magnitude. -/
theorem movementAssembly : Obligations.MovementAssembly := by
  intro s m
  have happ : sext9to16 s m = (if s then 0xFF#8 else 0x00#8) ++ m := by cases s <;> rfl
  rw [happ]
  refine ⟨BitVec.extractLsb'_append_eq_right, BitVec.extractLsb'_append_eq_left, ?_⟩
  rw [BitVec.toInt_append]
  cases s <;> simp
  omega

end Sys2Proof

/-! What `step` and `exec` refuse, ignore and run, and what the output ports show (R102 to R105, R108). -/

namespace Sys2Proof.Machine

/-- Settles O8: the meaning of FRAME_H2D asks for the parity first. -/
theorem wrongParityRefused : Obligations.WrongParityRefused := fun _ _ _ hp => if_neg hp

theorem startIllegal_idle {s : State} (hb : s.busy = false) : startIllegal s = .next (illegalOp s) :=
  if_neg (by simp [hb])

/-- Settles O29: each reserved row is `startIllegal`. -/
theorem reservedCodesComplete : Obligations.ReservedCodesComplete := by
  intro arg i s hi hb
  have he : exec i s = startIllegal s := by
    simp only [List.mem_cons, List.not_mem_nil, or_false] at hi
    obtain rfl | rfl | rfl | rfl | rfl | rfl := hi <;> rfl
  exact ⟨he.trans (startIllegal_idle hb), rfl⟩

theorem startWith_busy {xs : List Sample} {op : State → Ran} {s : State} (hb : s.busy = true) :
    startWith xs op s = .next s := if_pos hb

theorem startCommand_busy {c : Byte} {sends : Bool} {op : State → Ran} {s : State} (hb : s.busy = true) :
    startCommand c sends op s = .next s := if_pos hb

theorem startIllegal_busy {s : State} (hb : s.busy = true) : startIllegal s = .next s := if_pos hb

/-- A busy HOST accepts no well-formed row (R105; log entry 15). -/
theorem exec_busy {i : Instr} {s : State} (hwf : i.wellFormed = true) (hb : s.busy = true) : exec i s = .next s := by
  cases i with
  | reservedA | reservedB | reservedC | reservedD | reservedE | reservedF => exact startIllegal_busy hb
  | respBatPass | respAck | respDeviceId | frameD2H | movementReport => exact startWith_busy hb
  | cmd | cmdToggled => exact startCommand_busy hb
  | frameH2D v p =>
    have hp : p = oddParity v := by simpa [Instr.wellFormed] using hwf
    exact (if_pos hp).trans (start_busy hb)
  | _ => exact if_pos hb

/-- Settles O30: every way to start an operation asks for an idle HOST. -/
theorem busyAcceptsNothing : Obligations.BusyAcceptsNothing := fun _ s hwf hb =>
  ⟨exec_busy hwf hb, by simp [State.outputs, hb]⟩

theorem step_of_sel {w : PortWord} {s : State} (hb : s.busy = false) (hs : s.sel = some w) :
    step s = execWord w { s with sel := none } := by
  rw [step, if_neg (by simp [hb]), hs]

/-- Settles O45: the step samples the ports, and the word at the op port is the operation that `decodeOp` names. -/
theorem stepRunsTheOpWord : Obligations.StepRunsTheOpWord := by
  intro x xs s hb hs hin hrst hv
  have hx : idleSampled s = { s with pins := x, inputs := xs, clk := s.clk + 1 } := by
    rw [idleSampled, nextSample_cons hin]
    rfl
  obtain ⟨h, -⟩ | ⟨-, w, h, -⟩ | ⟨-, -, h, -⟩ | ⟨-, -, -, -, he⟩ | ⟨-, -, -, h, -⟩ := step_cases s
  case inr.inr.inr.inl => rw [he, hx, execWord_op]
  all_goals simp [hx, hb, hs, hrst, hv] at h

/-- Settles O46: a select word is taken before the ports are sampled. -/
theorem stepRunsTheSelectWord : Obligations.StepRunsTheSelectWord := by
  intro w i s hb hs hd
  rw [step_of_sel hb hs, execWord, hd]

/-- Settles O55: the refusal carries the decoder's reason. -/
theorem selectWordRefused : Obligations.SelectWordRefused := by
  intro w r s hb hs hd
  rw [step_of_sel hb hs, execWord, hd]

theorem level_eq (l : Line) (s : State) : level l s = (!(s.drv l == .low) && s.dev l) := by
  unfold level
  cases s.drv l <;> rfl

/-- Settles O56: the level is the wired-AND, and the other ports are the registers. -/
theorem outputPorts : Obligations.OutputPorts := by
  intro s
  refine ⟨level_eq .clock s, level_eq .data s, rfl, rfl, rfl, rfl, rfl, rfl, ?_, ?_, ?_, ?_, rfl, rfl⟩
  case refine_1 =>
    show s.err.code ≠ _
    cases s.err <;> decide
  case refine_4 =>
    show modeBit s.mode = true ↔ _
    cases s.mode <;> decide
  all_goals
    show s.err.code = _ ↔ _
    cases s.err <;> decide

/-- Settles O58: both pseudo-operations ask whether the block sends the byte, and the decoder asks the same of
CMD_TOGGLED. -/
theorem unknownCommandRefused : Obligations.UnknownCommandRefused := by
  intro c s hc hb
  refine ⟨?_, fun hdue => ?_, ?_⟩
  · show execCmdToggled c s = _
    simp [execCmdToggled, startCommand, hb, hc]
  · show execCmd c s = _
    simp [execCmd, startCommand, hb, hc, hdue]
  · simp [decode, hc]

theorem wire_exchanged_command (c a : Byte) (k : Scratch) (s : State) :
    (exchanged (command c a) k s).wire = .d2h a :: .h2d c :: s.wire := rfl

/-- An argument is due after a byte and its ack, if the byte takes one and is none itself (R95). -/
theorem argumentDue_exchanged_command (c a : Byte) (k : Scratch) (s : State) :
    argumentDue (exchanged (command c a) k s) = (takesArgument c && !argumentDue s) := by
  rw [argumentDue, wire_exchanged_command, argumentDueAfter_command, argumentDue]

/-- Settles O59: the command, not itself an argument, makes an argument due, and the next byte is that argument. -/
theorem argumentDue_once : Obligations.ArgumentDue := by
  intro c r a a' s k k' hdue
  refine ⟨?_, fun hc => ?_⟩
  · rw [argumentDue_exchanged_command, hdue]
    simp [takesArgument]
  · have htakes : takesArgument c = true := by simpa [takesArgument] using hc
    rw [argumentDue_exchanged_command, argumentDue_exchanged_command, hdue, htakes]
    simp

end Sys2Proof.Machine

/-! What a row run on its own comes to against a device that meets its contract: the responses, frames and reports that
the device sends, CMD and the wire commands (R93 to R98, R107, R190; log entries 5, 7 and 8). -/

namespace Sys2Proof.Machine

/-- A row that the DEVICE sends, started on an idle HOST, meets what the device presents. -/
theorem startWith_idle {xs : List Sample} {op : State → Ran} {s : State} (hb : s.busy = false)
    (hi : ∀ s, (op s).1.inputs = s.inputs) :
    startWith xs op s = continueWith (xs ++ s.inputs) (conclude [] (op (accepted none (present xs s)))) :=
  (if_neg (by simp [hb])).trans (start_idle (s := present xs s) hb rfl (hi _))

/-- RECEIVE_BYTE of a frame in the reference shape (R93, R152; log entry 8). -/
theorem receive_deviceFrame (slots : BitVec 11) {s : State} (hl : s.cfg.Legal) (hb : s.busy = false) :
    ∃ (pins : Sample) (clk : Nat) (t0 : Time), startWith (deviceFrame s.cfg (now s) slots) receiveStart s =
      .next (afterExchange s [.d2h (frameByte slots)] s.inputs
        ⟨frameByte slots, s.par, 9#4, slots.getLsbD 10, t0, frameByte slots, pins, clk⟩) := by
  obtain ⟨x, n, u, st, -, hrun⟩ := receive_ends (k := [])
    (s := accepted none (present (deviceFrame s.cfg (now s) slots) s))
    (.inl ⟨deviceFrame_meets hl _ slots, rfl, rfl⟩) rfl
  refine ⟨x, n, u, ?_⟩
  rw [startWith_idle hb fun _ => rfl]
  refine (hrun s.inputs).trans ?_
  rw [op_holds]
  rfl

/-- The same for the well-formed frame of a byte (R90). -/
theorem receive_goodFrame (v : Byte) {s : State} (hl : s.cfg.Legal) (hb : s.busy = false) :
    ∃ (pins : Sample) (clk : Nat) (t0 : Time), startWith (deviceFrame s.cfg (now s) (goodFrame v)) receiveStart s =
      .next (afterExchange s [.d2h v] s.inputs ⟨v, s.par, 9#4, true, t0, v, pins, clk⟩) := by
  have h := receive_deviceFrame (goodFrame v) hl hb
  obtain ⟨-, -, -, hstop⟩ := frameOf_slots false v (oddParity v) true
  rw [frameByte_goodFrame, goodFrame, hstop] at h
  exact h

/-- Settles O12: each of the three rows is one RECEIVE_BYTE of a frame in the reference shape. -/
theorem deviceBytesConsumed : Obligations.DeviceBytesConsumed := fun slots v _ hl hb =>
  ⟨receive_deviceFrame slots hl hb, receive_goodFrame v hl hb, receive_goodFrame v hl hb⟩

/-- Settles O13: one exchange, after which the caller keeps the byte. -/
theorem batByteKept : Obligations.BatByteKept := by
  intro s hl hb
  obtain ⟨c, st, -, hres, hrun⟩ := exchange_runs (f := .batResponse) (k := [])
    (s := accepted none (present (deviceByte s.cfg (now s) 0xAA#8) s)) (.d2h 0xAA#8)
    (deviceByte_meets hl (now s) 0xAA#8) rfl
  refine ⟨c, ?_⟩
  have he : exec .respBatPass s = _ := startWith_idle hb fun _ => rfl
  rw [he, batResponseStart, conclude_callReceive]
  refine (hrun s.inputs).trans ?_
  rw [frameStep, batResponseStep, return', op_returns, ← hres _ rfl]
  rfl

/-- Settles O14: the three bytes are three exchanges, read and decoded as RP.2 to RP.5. -/
theorem movementReportDecoded : Obligations.MovementReportDecoded := by
  intro status x y s hl hb
  obtain ⟨c, st, -, hrun⟩ := reportRead_runs (s := accepted none (present (deviceReport s.cfg (now s) status x y) s))
    (deviceReport_meets hl (now s) status x y) rfl
  refine ⟨c, ?_⟩
  have he : exec (.movementReport status x y) s = _ := startWith_idle hb fun _ => rfl
  rw [he, hrun, op_finishes]
  rfl

/-- CMD(c) against a device that meets its contract (R107, R190). -/
theorem cmd_completes {c a : Byte} {s : State} {xs rest : List Sample} {t' : Time} (hb : s.busy = false)
    (hin : s.inputs = xs ++ rest) (h : talkSeg s.cfg (command c a) (now s) xs t') :
    ∃ k : Scratch, start none (cmdStart c) s = .next (afterExchange s (command c a) rest k) := by
  obtain ⟨k, st, -, -, hrun⟩ := command_runs (s := accepted none s) (f := .cmd .afterByte) (g := .cmd .afterAck)
    (k := []) h rfl fun _ => rfl
  refine ⟨k, ?_⟩
  rw [start_idle hb hin rfl, cmdStart, conclude_callTransmit, hrun, frameStep, cmdStep, return', op_returns]
  rfl

/-- Settles O15: CMD and each one-byte wire command start as CMD of the byte. -/
theorem commandCompletes : Obligations.CommandCompletes := by
  intro c a i s xs rest t' hi hc hb hin h
  have he : exec i s = start none (cmdStart c) s := by
    simp only [List.mem_cons, List.not_mem_nil, or_false, Prod.mk.injEq] at hi
    obtain ⟨rfl, -⟩ | hi := hi
    · exact execCmd_eq_start hc
    · obtain ⟨rfl, rfl⟩ | ⟨rfl, rfl⟩ | ⟨rfl, rfl⟩ | ⟨rfl, rfl⟩ | ⟨rfl, rfl⟩ | ⟨rfl, rfl⟩ | ⟨rfl, rfl⟩ | ⟨rfl, rfl⟩ :=
        hi <;> rfl
  rw [he]
  exact cmd_completes hb hin h

/-- A command and its argument byte, each with its ack (R95, R190). -/
theorem cmdThenArg_completes {c v a1 a2 : Byte} {s : State} {xs rest : List Sample} {t' : Time} (hb : s.busy = false)
    (hin : s.inputs = xs ++ rest) (h : talkSeg s.cfg (command c a1 ++ command v a2) (now s) xs t') :
    ∃ k : Scratch, start none (cmdThenArgStart c v) s =
      .next (afterExchange s (command c a1 ++ command v a2) rest k) := by
  obtain ⟨ys, zs, u, rfl, hcmd, harg⟩ := talkSeg_append.mp h
  obtain ⟨k1, st1, e1, -, hrun1⟩ := command_runs (s := accepted none s) (f := .cmdThenArg v .afterByte)
    (g := .cmdThenArg v .afterAck) (k := []) hcmd rfl fun _ => rfl
  obtain ⟨k2, st2, -, -, hrun2⟩ := command_runs (s := reached (command c a1) k1 st1 (accepted none s))
    (f := .cmd .afterByte) (g := .cmd .afterAck) (k := []) (by rw [now_reached e1]; exact harg) rfl fun _ => rfl
  refine ⟨k2, ?_⟩
  rw [start_idle hb hin rfl, cmdThenArgStart, conclude_callTransmit, List.append_assoc, hrun1, frameStep,
    cmdThenArgStep, cmdStart, conclude_callTransmit]
  refine (hrun2 rest).trans ?_
  rw [frameStep, cmdStep, return', op_returns]
  exact congrArg (fun t => Host.Outcome.next { opEnd t with inputs := rest }) (reached_reached ..)

/-- Settles O16: both rows send the command byte and then the argument as a second CMD. -/
theorem twoByteCommandCompletes : Obligations.TwoByteCommandCompletes := by
  intro v a1 a2 c i s xs rest t' hi hb hin h
  have he : exec i s = start none (cmdThenArgStart c v) s := by
    simp only [List.mem_cons, List.not_mem_nil, or_false, Prod.mk.injEq] at hi
    obtain ⟨rfl, rfl⟩ | ⟨rfl, rfl⟩ := hi <;> rfl
  rw [he]
  exact cmdThenArg_completes hb hin h

end Sys2Proof.Machine

/-! REPORT and INITIALIZE run to their ends, and the ports after them (R102, R180 to R187, R220, R221). -/

namespace Sys2Proof.Machine

/-- REPORT: the poll in Remote mode only, then the three report bytes (R220, R221). -/
theorem report_completes (arg : Byte) {a status x y : Byte} {s : State} {xs rest : List Sample} {t' : Time}
    (hb : s.busy = false) (hin : s.inputs = xs ++ rest) (h : talkSeg s.cfg (reportTalk s a status x y) (now s) xs t') :
    ∃ k : Scratch, exec (.report arg) s = .next { afterExchange s (reportTalk s a status x y) rest k with
      status := status
      mag := y
      dx := sext9to16 (status.getLsbD 4) x
      dy := sext9to16 (status.getLsbD 5) y
      err := .none } := by
  have he : exec (.report arg) s = continueWith (xs ++ rest) (conclude [] (reportStart (accepted (some 0x9#4) s))) :=
    start_idle hb hin (reportStart_inputs _)
  rw [he]
  cases hm : s.mode with
  | stream =>
    have hstart : reportStart (accepted (some 0x9#4) s) = reportRead (accepted (some 0x9#4) s) := by
      rw [reportStart, show (accepted (some 0x9#4) s).mode = .stream from hm]
    simp only [reportTalk, hm, List.nil_append] at h ⊢
    obtain ⟨k, st, -, hrun⟩ := reportRead_runs (s := accepted (some 0x9#4) s) h rfl
    refine ⟨k, ?_⟩
    rw [hstart, hrun, op_finishes]
    rfl
  | remote =>
    have hstart : reportStart (accepted (some 0x9#4) s) =
        callTransmit 0xEB#8 (.report .afterPoll) (accepted (some 0x9#4) s) := by
      rw [reportStart, show (accepted (some 0x9#4) s).mode = .remote from hm]
    simp only [reportTalk, hm] at h ⊢
    obtain ⟨ys, zs, u, rfl, hpoll, hread⟩ := talkSeg_append.mp h
    obtain ⟨k1, st1, e1, -, hrun1⟩ := command_runs (s := accepted (some 0x9#4) s) (f := .report .afterPoll)
      (g := .report .afterPollAck) (k := []) hpoll rfl fun _ => rfl
    obtain ⟨k2, st2, -, hrun2⟩ := reportRead_runs (s := reached (command 0xEB#8 a) k1 st1 (accepted (some 0x9#4) s))
      (by rw [now_reached e1]; exact hread) rfl
    refine ⟨k2, ?_⟩
    rw [hstart, conclude_callTransmit, List.append_assoc, hrun1, frameStep, reportStep]
    refine (hrun2 rest).trans ?_
    rw [op_finishes, reached_reached]
    rfl

/-- SET_REMOTE_MODE above any caller (R192, R193). -/
theorem setRemoteMode_runs {s : State} {k : List Frame} {t' : Time} {xs : List Sample} {a0 a a1 : Byte}
    (h : segSeq (talkSeg s.cfg (toggledTalk s 0xF0#8 a0 a a1)) (settleSeg s) (now s) xs t') (hb : s.busy = true) :
    ∃ c st, c.pins.nowUs = t' ∧ ∀ rest, continueWith (xs ++ rest) (conclude k (setRemoteModeStart s)) =
      continueWith rest (resume k (setMode .remote (setReporting (toggles s || s.reportingEnabled)
        (reached (toggledTalk s 0xF0#8 a0 a a1) c st (latchGuard s))))) := by
  obtain ⟨ys, zs, u, rfl, htalk, hsettle⟩ := h
  obtain ⟨c1, st1, e1, hrun1⟩ := toggled_runs (k := .setRemoteMode .afterHelper :: k) htalk hb
  obtain ⟨c2, st2, e2, hrun2⟩ := finishMode_runs (m := .remote) (f := .setRemoteMode .settle) (k := k)
    (s := setReporting (toggles s || s.reportingEnabled) (reached (toggledTalk s 0xF0#8 a0 a a1) c1 st1 (latchGuard s)))
    hsettle e1 hb fun _ => rfl
  refine ⟨c2, st2, e2, fun rest => ?_⟩
  rw [setRemoteModeStart, conclude_callThen (K := finishMode _ _) fun _ => rfl, List.append_assoc, hrun1, resume_cons]
  exact hrun2 rest

/-- `s` with another BAT byte. -/
def withBat (v : Byte) (s : State) : State := { s with bat := v }

theorem keepBat_eq (s : State) : keepBat s = withBat s.tResult s := rfl

theorem reached_withBat (es : List WireEvent) (c : Scratch) (st : List Frame) (v : Byte) (s : State) :
    reached es c st (withBat v s) = withBat v (reached es c st s) := rfl

/-- A `Wait` from its entry to the step after it, above any caller (R132). -/
theorem enterWait_runs {s : State} {f : Frame} {k : List Frame} {n : Params → Time} {K : State → Ran} {t' : Time}
    {xs : List Sample} (h : waitSeg (n s.cfg) (now s) xs t') (hb : s.busy = true)
    (hf : ∀ s, frameStep f s = waitThen (n s.cfg) f K s) :
    ∃ x c, x.nowUs = t' ∧ ∀ rest, continueWith (xs ++ rest) (conclude k (enterWait f s)) =
      continueWith rest (conclude k (K (moved x c (now s) (f :: k) s))) :=
  run_wait (s := { armTimer s with stack := f :: k }) h hb rfl rfl fun _ _ => hf _

/-- INIT.2 and INIT.3: the reset command, its ack, the BAT byte and the device ID (R182, R183). -/
theorem resetTalk_runs {s : State} {t' : Time} {xs : List Sample} {a bat id : Byte}
    (h : talkSeg s.cfg (resetTalk a bat id) (now s) xs t') (hb : s.busy = true) :
    ∃ c st, c.pins.nowUs = t' ∧ ∀ rest,
      continueWith (xs ++ rest) (conclude [] (callTransmit 0xFF#8 (.initLink .afterReset) s)) =
        continueWith rest (conclude [] (enterWait (.initLink .postBat)
          (withBat bat (reached (resetTalk a bat id) c st s)))) := by
  obtain ⟨x1, _, u1, rfl, hreset, hbytes⟩ := talkSeg_append.mp h
  obtain ⟨x2, _, u2, rfl, hbat, hbytes⟩ := talkSeg_cons hbytes
  obtain ⟨x3, _, u3, rfl, hid, hbytes⟩ := talkSeg_cons hbytes
  obtain ⟨rfl, rfl⟩ := talkSeg_nil hbytes
  obtain ⟨c1, st1, e1, -, hrun1⟩ := command_runs (f := .initLink .afterReset) (g := .initLink .afterAck) (k := [])
    hreset hb fun _ => rfl
  let s1 : State := reached (command 0xFF#8 a) c1 st1 s
  obtain ⟨c2, st2, e2, hres, hrun2⟩ := exchange_runs (s := s1) (f := .initLink .afterBat) (k := []) (.d2h bat)
    (by rw [show now s1 = u1 from e1]; exact hbat) hb
  let s2 : State := withBat bat (reached [.d2h bat] c2 st2 s1)
  obtain ⟨c3, st3, e3, -, hrun3⟩ := exchange_runs (s := s2) (f := .initLink .afterId) (k := []) (.d2h id)
    (by rw [show now s2 = u2 from e2]; exact hid) hb
  refine ⟨c3, st3, e3, fun rest => ?_⟩
  have hack : frameStep (.initLink .afterAck) s1 = callReceive (.initLink .afterBat) s1 := rfl
  have hkeep : frameStep (.initLink .afterBat) (reached [.d2h bat] c2 st2 s1) =
      callReceive (.initLink .afterId) s2 := by
    rw [frameStep, initStep, keepBat_eq, reached_tResult, hres bat rfl]
  have hlast : reached [.d2h id] c3 st3 s2 = withBat bat (reached (resetTalk a bat id) c3 st3 s) := by
    simp only [s2, s1, reached_withBat, reached_reached]
    rfl
  have hxs : x1 ++ (x2 ++ (x3 ++ [])) ++ rest = x1 ++ (x2 ++ (x3 ++ rest)) := by simp
  calc continueWith (x1 ++ (x2 ++ (x3 ++ [])) ++ rest) (conclude [] (callTransmit 0xFF#8 (.initLink .afterReset) s))
      = continueWith (x2 ++ (x3 ++ rest)) (conclude [] (frameStep (.initLink .afterAck) s1)) := by
        rw [hxs, conclude_callTransmit, hrun1]
        rfl
    _ = continueWith (x3 ++ rest) (conclude [] (frameStep (.initLink .afterBat) (reached [.d2h bat] c2 st2 s1))) := by
        rw [hack, conclude_callReceive]
        exact hrun2 _
    _ = continueWith rest (conclude [] (frameStep (.initLink .afterId) (reached [.d2h id] c3 st3 s2))) := by
        rw [hkeep, conclude_callReceive]
        exact hrun3 _
    _ = _ := by
        rw [hlast]
        rfl

/-- INIT.1 to INIT.4: INITIALIZE goes on to the test with the byte received kept in `bat` (R181 to R184). -/
theorem untilBat_runs {s : State} {t' : Time} {xs : List Sample} {a bat id : Byte}
    (h : untilBat s a bat id (now s) xs t') (hb : s.busy = true) :
    ∃ c st, c.pins.nowUs = t' ∧ ∀ rest, continueWith (xs ++ rest) (conclude [] (initStart s)) =
      continueWith rest (conclude [] (initTest
        (withBat bat (reached (resetTalk a bat id) c st (drive .data .rel (drive .clock .rel s)))))) := by
  obtain ⟨x1, _, u1, rfl, hpower, x2, _, u2, rfl, htalk, x3, _, u3, rfl, hpost, rfl, rfl⟩ := h
  let s0 : State := drive .data .rel (drive .clock .rel s)
  obtain ⟨p1, n1, e1, hrun1⟩ := enterWait_runs (s := s0) (n := Params.tInitPowerup) (f := .initLink .powerup)
    (k := []) (K := callTransmit 0xFF#8 (.initLink .afterReset)) hpower hb fun _ => rfl
  let s1 : State := moved p1 n1 (now s0) [.initLink .powerup] s0
  obtain ⟨c2, st2, e2, hrun2⟩ := resetTalk_runs (s := s1) (by rw [show now s1 = u1 from e1]; exact htalk) hb
  let s2 : State := withBat bat (reached (resetTalk a bat id) c2 st2 s1)
  obtain ⟨p3, n3, e3, hrun3⟩ := enterWait_runs (s := s2) (n := Params.tInitPostBat) (f := .initLink .postBat)
    (k := []) (K := initTest)
    (by rw [show now s2 = u2 from e2]; exact hpost) hb fun _ => rfl
  refine ⟨{ c2 with pins := p3, clk := n3, t0 := now s2 }, [.initLink .postBat], e3, fun rest => ?_⟩
  have hxs : x1 ++ (x2 ++ (x3 ++ [])) ++ rest = x1 ++ (x2 ++ (x3 ++ rest)) := by simp
  rw [hxs, initStart]
  exact (hrun1 _).trans ((hrun2 _).trans (hrun3 _))

/-- INITIALIZE with a failed self-test (R185, R241). -/
theorem initialize_fails (arg : Byte) {a bat id : Byte} {s : State} {xs rest : List Sample} {t' : Time}
    (hbat : bat ≠ 0xAA#8) (hb : s.busy = false) (hin : s.inputs = xs ++ rest)
    (h : untilBat s a bat id (now s) xs t') :
    ∃ k : Scratch, exec (.initializeLink arg) s =
      .next { afterExchange (drive .data .rel (drive .clock .rel s)) (resetTalk a bat id) rest k with
        bat := bat
        ok := false
        err := .none } := by
  obtain ⟨c, st, -, hrun⟩ := untilBat_runs (s := accepted (some 0x0#4) s) h rfl
  refine ⟨c, ?_⟩
  have he : exec (.initializeLink arg) s =
      continueWith (xs ++ rest) (conclude [] (initStart (accepted (some 0x0#4) s))) :=
    start_idle (op := initStart) hb hin rfl
  rw [he, hrun, initTest, if_neg (by exact hbat), return', op_returns]
  rfl

theorem setMode_same {m : Mode} {s : State} (h : s.mode = m) : setMode m s = s := by
  subst h
  rfl

/-- INIT.6: what sets up the configured mode, up to the last wait (R186). -/
theorem initSetUp_runs {s : State} {t' : Time} {xs : List Sample} {a : Byte}
    (h : segSeq (talkSeg s.cfg (setUpTalk s a)) (setUpSettle s) (now s) xs t') (hb : s.busy = true)
    (hc : s.clockDrv = .low) (hd : s.dataDrv = .rel) :
    ∃ c st, c.pins.nowUs = t' ∧ ∀ rest, continueWith (xs ++ rest) (conclude [] (initSetUp s)) =
      continueWith rest (conclude [] (initFinal { reached (setUpTalk s a) c st s with
        reportingEnabled := s.mode == .stream || s.reportingEnabled
        resumeLatch := s.mode == .stream && s.resumeLatch })) := by
  cases hm : s.mode with
  | remote =>
    have hg : toggles s = false := by simp [toggles, hm]
    have htalk : toggledTalk s 0xF0#8 0#8 a 0#8 = setUpTalk s a := by
      simp [toggledTalk, suspension, resumption, setUpTalk, hg, hm]
    have hset : setUpSettle s = settleSeg s := by rw [setUpSettle, hm]
    have hstart : initSetUp s = callThen setRemoteModeStart (.initLink .afterSetUp) initFinal s := by rw [initSetUp, hm]
    rw [← htalk, hset] at h
    obtain ⟨c, st, e, hrun⟩ := setRemoteMode_runs (k := [.initLink .afterSetUp]) h hb
    refine ⟨c, st, e, fun rest => ?_⟩
    rw [hstart, conclude_callThen (K := initFinal) fun _ => rfl, hrun, setMode_same (m := .remote) (by exact hm),
      resume_cons, htalk, latchGuard_eq, hg]
    rfl
  | stream =>
    have hset : setUpSettle s = segAll [] := by rw [setUpSettle, hm]
    have hstart : initSetUp s = callThen enableStart (.initLink .afterSetUp) initFinal s := by rw [initSetUp, hm]
    rw [hset] at h
    obtain ⟨xs, _, u, rfl, htalk, rfl, rfl⟩ := h
    rw [List.append_nil, hstart]
    cases hr : s.reportingEnabled with
    | true =>
      simp only [setUpTalk, hm, hr, if_true] at htalk ⊢
      obtain ⟨rfl, rfl⟩ := talkSeg_nil htalk
      refine ⟨scratchOf s, s.stack, rfl, fun rest => ?_⟩
      rw [conclude_callThen (K := initFinal) fun _ => rfl, enableStart, if_pos hr, return', conclude_ret, resume_cons,
        reached_nil hc hd]
      exact congrArg (fun t => continueWith rest (conclude [] (initFinal t))) (setReporting_same hr).symm
    | false =>
      simp only [setUpTalk, hm, hr, Bool.false_eq_true, if_false] at htalk ⊢
      obtain ⟨c, st, e, hrun⟩ := enable_runs (k := [.initLink .afterSetUp]) htalk hb hr
      refine ⟨c, st, e, fun rest => ?_⟩
      rw [conclude_callThen (K := initFinal) fun _ => rfl, hrun, resume_cons]
      rfl

/-- INITIALIZE with a passed self-test (R180 to R187). -/
theorem initialize_passes (arg : Byte) {a id a2 : Byte} {s : State} {xs rest : List Sample} {t' : Time}
    (hb : s.busy = false) (hin : s.inputs = xs ++ rest)
    (h : segSeq (untilBat s a 0xAA#8 id) (afterBat s a2) (now s) xs t') :
    ∃ k : Scratch, exec (.initializeLink arg) s =
      .next { afterExchange (drive .data .rel (drive .clock .rel s)) (resetTalk a 0xAA#8 id ++ setUpTalk s a2) rest k with
        bat := 0xAA#8
        ok := true
        initialized := true
        reportingEnabled := s.mode == .stream || s.reportingEnabled
        resumeLatch := s.mode == .stream && s.resumeLatch
        err := .none } := by
  obtain ⟨xs, ys, u, rfl, huntil, hafter⟩ := h
  obtain ⟨y1, _, u1, rfl, htalk, y2, _, u2, rfl, hset, y3, _, u3, rfl, hfinal, rfl, rfl⟩ := hafter
  obtain ⟨c1, st1, e1, hrun1⟩ := untilBat_runs (s := accepted (some 0x0#4) s) huntil rfl
  let s1 : State := withBat 0xAA#8 (reached (resetTalk a 0xAA#8 id) c1 st1
    (drive .data .rel (drive .clock .rel (accepted (some 0x0#4) s))))
  obtain ⟨c2, st2, e2, hrun2⟩ := initSetUp_runs (s := s1) (a := a2)
    ⟨y1, y2, u1, rfl, by rw [show now s1 = u from e1]; exact htalk, hset⟩ rfl rfl rfl
  let s2 : State := { reached (setUpTalk s1 a2) c2 st2 s1 with
    reportingEnabled := s1.mode == .stream || s1.reportingEnabled
    resumeLatch := s1.mode == .stream && s1.resumeLatch }
  obtain ⟨p3, n3, -, hrun3⟩ := enterWait_runs (s := s2) (n := Params.tInitFinal) (f := .initLink .final) (k := [])
    (K := fun s => return' (passInit s)) (by rw [show now s2 = u2 from e2]; exact hfinal) rfl fun _ => rfl
  refine ⟨{ c2 with pins := p3, clk := n3, t0 := now s2 }, ?_⟩
  have he : exec (.initializeLink arg) s = _ := start_idle (op := initStart) hb hin rfl
  have hxs : xs ++ (y1 ++ (y2 ++ (y3 ++ []))) ++ rest = xs ++ ((y1 ++ y2) ++ (y3 ++ rest)) := by simp
  have htest : initTest s1 = initSetUp s1 := if_pos rfl
  rw [he, hxs]
  refine (hrun1 _).trans ?_
  rw [show initTest _ = initSetUp s1 from htest]
  refine (hrun2 _).trans ((hrun3 rest).trans ?_)
  rw [return', op_returns]
  simp only [s2, s1, reached_withBat, reached_reached]
  rfl

/-- Settles O57: the ports show the registers of the state in which each operation ends. -/
theorem resultPorts : Obligations.ResultPorts := by
  intro arg a a2 id bat status x y s xs rest t' hb hin
  refine ⟨fun h => ?_, fun h => ?_, fun hbat h => ?_⟩
  · obtain ⟨k, hk⟩ := report_completes arg hb hin h
    exact ⟨_, hk, rfl⟩
  · obtain ⟨k, hk⟩ := initialize_passes arg hb hin h
    refine ⟨_, hk, ?_⟩
    have hmode : (s.mode == .stream) = s.outputs.stMode := by
      show _ = modeBit s.mode
      cases s.mode <;> rfl
    rw [hmode]
    rfl
  · obtain ⟨k, hk⟩ := initialize_fails arg hbat hb hin h
    exact ⟨_, hk, rfl⟩

end Sys2Proof.Machine

/-! How each instruction begins, said once: what it makes the sequencer run, and on which samples. Whatever is kept by an
edge and by the first steps is kept by every instruction (R28, R101, R103). -/

namespace Sys2Proof.Machine

/-- In the state `s`, the instruction starts the operation of this code and first step (R100 to R107). The byte of a
pseudo-operation is one that the block sends (R94, R108; log entry 21). -/
inductive Begins (s : State) : Instr → Option (BitVec 4) → (State → Ran) → Prop where
  | initializeLink (arg : Byte) : Begins s (.initializeLink arg) (some 0x0#4) initStart
  | setRemoteMode (arg : Byte) : Begins s (.setRemoteMode arg) (some 0x1#4) setRemoteModeStart
  | setStreamMode (arg : Byte) : Begins s (.setStreamMode arg) (some 0x2#4) setStreamModeStart
  | setScaling21 (arg : Byte) : Begins s (.setScaling21 arg) (some 0x3#4) setScaling21Start
  | setScaling11 (arg : Byte) : Begins s (.setScaling11 arg) (some 0x4#4) setScaling11Start
  | setResolution (r : Byte) : Begins s (.setResolution r) (some 0x5#4) (setResolutionStart r)
  | setSampleRate (n : Byte) : Begins s (.setSampleRate n) (some 0x6#4) (setSampleRateStart n)
  | enableDataReporting (arg : Byte) : Begins s (.enableDataReporting arg) (some 0x7#4) enableStart
  | disableDataReporting (arg : Byte) : Begins s (.disableDataReporting arg) (some 0x8#4) disableStart
  | report (arg : Byte) : Begins s (.report arg) (some 0x9#4) reportStart
  | wireReset : Begins s .wireReset none (cmdStart 0xFF#8)
  | wireSetRemoteMode : Begins s .wireSetRemoteMode none (cmdStart 0xF0#8)
  | wireSetStreamMode : Begins s .wireSetStreamMode none (cmdStart 0xEA#8)
  | wireSetScaling21 : Begins s .wireSetScaling21 none (cmdStart 0xE7#8)
  | wireSetScaling11 : Begins s .wireSetScaling11 none (cmdStart 0xE6#8)
  | wireSetResolution (r : Byte) : Begins s (.wireSetResolution r) none (cmdThenArgStart 0xE8#8 r)
  | wireSetSampleRate (n : Byte) : Begins s (.wireSetSampleRate n) none (cmdThenArgStart 0xF3#8 n)
  | wireEnableDataReporting : Begins s .wireEnableDataReporting none (cmdStart 0xF4#8)
  | wireDisableDataReporting : Begins s .wireDisableDataReporting none (cmdStart 0xF5#8)
  | wireReadData : Begins s .wireReadData none (cmdStart 0xEB#8)
  | respBatPass : Begins s .respBatPass none batResponseStart
  | respAck (v : Byte) : Begins s (.respAck v) none receiveStart
  | respDeviceId (v : Byte) : Begins s (.respDeviceId v) none receiveStart
  | frameH2D (v : Byte) (p : Bool) : Begins s (.frameH2D v p) none (transmitStart v)
  | frameD2H (slots : BitVec 11) : Begins s (.frameD2H slots) none receiveStart
  | movementReport (st x y : Byte) : Begins s (.movementReport st x y) none reportRead
  | transmitByte (v : Byte) : Begins s (.transmitByte v) none (transmitStart v)
  | receiveByte : Begins s .receiveByte none receiveStart
  | readBit : Begins s .readBit none readBitStart
  | decodeX : Begins s .decodeX none (decodeStart .x)
  | decodeY : Begins s .decodeY none (decodeStart .y)
  | cmd (c : Byte) (h : c ∈ commandBytes ∨ argumentDue s = true) : Begins s (.cmd c) none (cmdStart c)
  | cmdToggled (c : Byte) (h : c ∈ commandBytes) : Begins s (.cmdToggled c) none (toggledStart c)

/-- What the DEVICE presents to the instruction: the bytes of the rows that it sends (log entry 8). -/
def devicePresents (i : Instr) (s : State) : List Sample :=
  match i with
  | .respBatPass => deviceByte s.cfg (now s) 0xAA#8
  | .respAck v | .respDeviceId v => deviceFrame s.cfg (now s) (goodFrame v)
  | .frameD2H slots => deviceFrame s.cfg (now s) slots
  | .movementReport st x y => deviceReport s.cfg (now s) st x y
  | _ => []

theorem devicePresents_rst (i : Instr) (s : State) : ∀ x ∈ devicePresents i s, x.rst = false := by
  cases i with
  | respBatPass => exact deviceByte_rst _ _ _
  | respAck | respDeviceId | frameD2H => exact deviceFrame_rst _ _ _
  | movementReport => exact deviceReport_rst _ _ _ _ _
  | _ => simp [devicePresents]

/-- What an instruction that answers a next state did: it was not accepted, its op code is reserved, or it started its
operation. -/
theorem exec_cases {i : Instr} {s t : State} (h : exec i s = .next t) :
    t = s ∨ t = illegalOp s ∨
      ∃ code op, Begins s i code op ∧ start code op (present (devicePresents i s) s) = .next t := by
  have hwith {xs : List Sample} {op : State → Ran} (hop : Begins s i none op) (hxs : devicePresents i s = xs)
      (h : startWith xs op s = .next t) : t = s ∨ t = illegalOp s ∨
        ∃ code op, Begins s i code op ∧ start code op (present (devicePresents i s) s) = .next t := by
    unfold startWith at h
    split_ifs at h
    · exact .inl (Host.Outcome.next.inj h).symm
    · exact .inr (.inr ⟨_, _, hop, hxs ▸ h⟩)
  cases i with
  | reservedA | reservedB | reservedC | reservedD | reservedE | reservedF =>
    have h : startIllegal s = .next t := h
    unfold startIllegal at h
    split_ifs at h
    · exact .inl (Host.Outcome.next.inj h).symm
    · exact .inr (.inl (Host.Outcome.next.inj h).symm)
  | respBatPass => exact hwith .respBatPass rfl h
  | respAck v => exact hwith (.respAck v) rfl h
  | respDeviceId v => exact hwith (.respDeviceId v) rfl h
  | frameD2H slots => exact hwith (.frameD2H slots) rfl h
  | movementReport st x y => exact hwith (.movementReport st x y) rfl h
  | frameH2D v p =>
    have h : execFrameH2D v p s = .next t := h
    unfold execFrameH2D at h
    split_ifs at h
    exact .inr (.inr ⟨_, _, .frameH2D v p, h⟩)
  | cmd c =>
    obtain ⟨-, he⟩ | ⟨-, hc, he⟩ | ⟨-, -, he⟩ :=
      startCommand_cases c (decide (c ∈ commandBytes) || argumentDue s) (cmdStart c) s
    · exact .inl (Host.Outcome.next.inj (he.symm.trans h)).symm
    · exact .inr (.inr ⟨_, _, .cmd c (by simpa using hc), he.symm.trans h⟩)
    · cases he.symm.trans h
  | cmdToggled c =>
    obtain ⟨-, he⟩ | ⟨-, hc, he⟩ | ⟨-, -, he⟩ := startCommand_cases c (decide (c ∈ commandBytes)) (toggledStart c) s
    · exact .inl (Host.Outcome.next.inj (he.symm.trans h)).symm
    · exact .inr (.inr ⟨_, _, .cmdToggled c (by simpa using hc), he.symm.trans h⟩)
    · cases he.symm.trans h
  | _ =>
    right
    right
    apply Exists.intro
    apply Exists.intro
    apply And.intro
    · constructor
    · exact h

/-- No first step touches the queue of samples. -/
theorem Begins.inputs {s : State} {i : Instr} {code : Option (BitVec 4)} {op : State → Ran} (h : Begins s i code op)
    (u : State) : (op u).1.inputs = u.inputs := by
  cases h with
  | setRemoteMode => exact setRemoteModeStart_inputs u
  | setStreamMode => exact setStreamModeStart_inputs u
  | setScaling21 => exact setScaling21Start_inputs u
  | setScaling11 => exact setScaling11Start_inputs u
  | setResolution r => exact setResolutionStart_inputs u r
  | setSampleRate n => exact setSampleRateStart_inputs u n
  | enableDataReporting => exact enableStart_inputs u
  | disableDataReporting => exact disableStart_inputs u
  | report => exact reportStart_inputs u
  | readBit => exact armPoll_inputs u
  | cmdToggled c => exact toggledStart_inputs u c
  | _ => rfl

/-- A step of the innermost operation above the callers `k` keeps `I` of the state and the frames that go on, and comes
to `E` where it times out. -/
def Onward (I : State → List Frame → Prop) (E : State → Prop) (k : List Frame) (r : Ran) : Prop :=
  match r with
  | (s, .block fs) => I s (fs ++ k)
  | (s, .ret) => I s k
  | (s, .hold) => I s k
  | (s, .timeout) => E (raiseTimeout s)
  | (_, .unused) => True

/-- `I` of a state and the frames that go on from it is kept by every step; `E` is what it comes to where the operation
ends, and what is known of it meanwhile. -/
structure Carries (I : State → List Frame → Prop) (E : State → Prop) : Prop where
  step    : ∀ {f k s}, I s (f :: k) → Onward I E k (frameStep f s)
  sampled : ∀ {s k} x, I s k → I (sampled x s) k
  stacked : ∀ {s k} st, I s k → I { s with stack := st } k
  ends    : ∀ {s}, I s [] → E (opEnd s)
  known   : ∀ {s k}, I s k → E s
  queued  : ∀ {s} xs, E s → E { s with inputs := xs }

section carries
variable {I : State → List Frame → Prop} {E : State → Prop} {s t : State} (hI : Carries I E)
include hI

theorem resume_carries {k : List Frame} (hs : I s k) (h : resume k s = .next t) :
    I t t.stack ∨ t.busy = false ∧ E t := by
  induction k generalizing s with
  | nil =>
    cases h
    exact .inr ⟨rfl, hI.ends hs⟩
  | cons f k ih =>
    have hstep := hI.step hs
    rw [resume_cons] at h
    obtain ⟨s', fs, hr, rfl⟩ | ⟨s', hr, h⟩ | ⟨s', hr, rfl, rfl⟩ | ⟨s', hr, -, rfl⟩ | ⟨s', hr, rfl⟩ :=
      conclude_cases h <;>
      rw [hr] at hstep
    · exact .inl (hI.stacked _ hstep)
    · exact ih hstep h
    · exact .inr ⟨rfl, hI.ends hstep⟩
    · exact .inl (hI.stacked _ hstep)
    · exact .inr ⟨rfl, hstep⟩

theorem run_carries {xs : List Sample} (hx : ∀ x ∈ xs, x.rst = true → ∀ s, E (resetEdge (sampled x s)))
    (hs : I s s.stack ∨ s.busy = false ∧ E s) (h : run xs s = .next t) : E t := by
  induction xs generalizing s with
  | nil =>
    cases h
    exact hI.queued _ (hs.elim hI.known And.right)
  | cons x xs ih =>
    cases hb : s.busy with
    | false =>
      rw [run_idle hb] at h
      cases h
      exact hI.queued _ (hs.elim hI.known And.right)
    | true =>
      have hs : I s s.stack := hs.resolve_right (by simp [hb])
      rw [run, if_pos hb] at h
      obtain ⟨hr, he⟩ | ⟨-, he⟩ := edge_cases x s <;> rw [he] at h
      · exact ih (fun y hy => hx y (.tail _ hy)) (.inr ⟨rfl, hx x (.head _) hr s⟩) h
      · cases hnext : resume s.stack (sampled x s) with
        | next s' =>
          rw [hnext] at h
          exact ih (fun y hy => hx y (.tail _ hy)) (resume_carries hI (hI.sampled x hs) hnext) h
        | fault e => simp [hnext] at h
        | refused e => simp [hnext] at h

theorem start_carries {code : Option (BitVec 4)} {op : State → Ran}
    (hx : ∀ x ∈ s.inputs, x.rst = true → ∀ s, E (resetEdge (sampled x s)))
    (hin : (op (accepted code s)).1.inputs = s.inputs) (hop : Onward I E [] (op (accepted code s))) (hs : E s)
    (h : start code op s = .next t) : E t := by
  obtain ⟨-, rfl⟩ | ⟨-, s', fs, hr, h⟩ | ⟨-, s', hr | hr, rfl⟩ | ⟨-, s', hr, rfl⟩ := start_cases h
  · exact hs
  all_goals rw [hr] at hop
  · rw [hr] at hin
    have hop : I s' (fs ++ []) := hop
    rw [List.append_nil] at hop
    exact run_carries hI (fun x hmem => hx x (hin ▸ hmem)) (.inl (hI.stacked _ hop)) h
  · exact hI.ends hop
  · exact hI.ends hop
  · exact hop

/-- What every first step and every edge carries, an instruction comes to: where it completes, where it hangs and where
it times out. -/
theorem exec_carries {i : Instr} (hx : ∀ x ∈ s.inputs, x.rst = true → ∀ s, E (resetEdge (sampled x s))) (hs : E s)
    (hill : E (illegalOp s))
    (hop : ∀ code op, Begins s i code op → Onward I E [] (op (accepted code (present (devicePresents i s) s))))
    (h : exec i s = .next t) : E t := by
  obtain rfl | rfl | ⟨code, op, hb, h⟩ := exec_cases h
  · exact hs
  · exact hill
  · refine start_carries hI ?_ (hb.inputs _) (hop code op hb) (hI.queued _ hs) h
    intro x hmem hr
    obtain hmem | hmem := List.mem_append.mp hmem
    · simp [devicePresents_rst i s x hmem] at hr
    · exact hx x hmem hr

end carries

end Sys2Proof.Machine

/-! Who writes the results (R27, R102, R220, R222, R223). `ok` is written by a Timeout too, where INITIALIZE runs. -/

namespace Sys2Proof.Machine

theorem lasting_status (v : Byte) : Lasting (fun s => s.status = v) :=
  ⟨fun _ _ h hs => (congrArg State.status h).trans hs, fun _ _ h => h, fun _ h => h, fun _ h => h, fun _ h => h⟩

theorem lasting_dx (m : Movement) : Lasting (fun s => s.dx = m) :=
  ⟨fun _ _ h hs => (congrArg State.dx h).trans hs, fun _ _ h => h, fun _ h => h, fun _ h => h, fun _ h => h⟩

theorem lasting_dy (m : Movement) : Lasting (fun s => s.dy = m) :=
  ⟨fun _ _ h hs => (congrArg State.dy h).trans hs, fun _ _ h => h, fun _ h => h, fun _ h => h, fun _ h => h⟩

theorem lasting_mag (v : Byte) : Lasting (fun s => s.mag = v) :=
  ⟨fun _ _ h hs => (congrArg State.mag h).trans hs, fun _ _ h => h, fun _ h => h, fun _ h => h, fun _ h => h⟩

theorem instrHarmless_status {i : Instr} (v : Byte) (hw : writesStatus i = false) :
    InstrHarmless (fun s => s.status = v) i := by
  intro u hu
  cases u with
  | status => simp [makes, hw] at hu
  | _ => exact fun _ h => h

theorem instrHarmless_dx {i : Instr} (m : Movement) (hw : writesDx i = false) :
    InstrHarmless (fun s => s.dx = m) i := by
  intro u hu
  cases u with
  | dx => simp [makes, hw] at hu
  | _ => exact fun _ h => h

theorem instrHarmless_dy {i : Instr} (m : Movement) (hw : writesDy i = false) :
    InstrHarmless (fun s => s.dy = m) i := by
  intro u hu
  cases u with
  | dy => simp [makes, hw] at hu
  | _ => exact fun _ h => h

theorem instrHarmless_mag {i : Instr} (v : Byte) (hx : writesDx i = false) (hy : writesDy i = false) :
    InstrHarmless (fun s => s.mag = v) i := by
  intro u hu
  cases u with
  | dx => simp [makes, hx] at hu
  | dy => simp [makes, hy] at hu
  | _ => exact fun _ h => h

/-- `ok` holds `b`, and the operation that runs is not INITIALIZE, whose Timeout clears it (R250). -/
def okStands (b : Bool) (s : State) : Prop := s.ok = b ∧ s.opCode ≠ some 0x0#4

theorem steady_okStands (b : Bool) : Steady (okStands b) := fun s t h hs => by
  have hok : t.ok = s.ok := congrArg (fun u => u.ok) h
  have hcode : t.opCode = s.opCode := congrArg (fun u => u.opCode) h
  exact ⟨hok.trans hs.1, hcode ▸ hs.2⟩

theorem onward_of_keeps {b : Bool} {k : List Frame} {r : Ran} (hk : ∀ f ∈ k, Harmless (okStands b) f)
    (h : Keeps (okStands b) r) :
    Onward (fun s k => okStands b s ∧ ∀ f ∈ k, Harmless (okStands b) f) (fun s => s.ok = b) k r := by
  obtain ⟨s, fs | _ | _ | _ | _⟩ := r
  · exact ⟨h.1, List.forall_mem_append.mpr ⟨h.2 fs rfl, hk⟩⟩
  · exact ⟨h.1, hk⟩
  · exact ⟨h.1, hk⟩
  · exact (if_neg h.1.2).trans h.1.1
  · trivial

theorem carries_okStands (b : Bool) :
    Carries (fun s k => okStands b s ∧ ∀ f ∈ k, Harmless (okStands b) f) (fun s => s.ok = b) where
  step h := by
    obtain ⟨hs, hk⟩ := h
    obtain ⟨hf, hk⟩ := List.forall_mem_cons.mp hk
    exact onward_of_keeps hk (frameStep_keeps (steady_okStands b) hf hs)
  sampled _ h := h
  stacked _ h := h
  ends h := h.1.1
  known h := h.1.1
  queued _ h := h

/-- The first step of every instruction but INITIALIZE leaves `ok` alone, and so will the operations that it leaves
under way. -/
theorem Begins.keeps_okStands {s u : State} {i : Instr} {code : Option (BitVec 4)} {op : State → Ran} {b : Bool}
    (h : Begins s i code op) (hw : writesOk i = false) (hu : u.ok = b) :
    Keeps (okStands b) (op (accepted code u)) := by
  have hst := steady_okStands b
  have hr : ReportingClosed (okStands b) := fun _ _ h => h
  have ht : ToggleClosed (okStands b) := ⟨fun _ h => h, hr⟩
  have hm : ModeClosed (okStands b) := ⟨fun _ _ h => h, ht⟩
  have hp : ∀ p, Harmless (okStands b) (.report p) := fun _ => ⟨fun _ h => h, fun _ h => h, fun _ h => h⟩
  have hs {code : Option (BitVec 4)} (hc : code ≠ some 0x0#4) : okStands b (accepted code u) := ⟨hu, hc⟩
  have hn : okStands b (accepted none u) := hs (by simp)
  cases h with
  | initializeLink => simp [writesOk] at hw
  | setRemoteMode => exact setRemoteModeStart_keeps hst hm (hs (by decide))
  | setStreamMode => exact setStreamModeStart_keeps hst hm (hs (by decide))
  | setScaling21 => exact setScaling21Start_keeps hst ht (hs (by decide))
  | setScaling11 => exact setScaling11Start_keeps hst ht (hs (by decide))
  | setResolution r => exact setResolutionStart_keeps hst hr r (fun _ h => h) (fun _ h => h) (hs (by decide))
  | setSampleRate n => exact setSampleRateStart_keeps hst hr n (fun _ h => h) (fun _ h => h) (hs (by decide))
  | enableDataReporting => exact enableStart_keeps hst hr (hs (by decide))
  | disableDataReporting => exact disableStart_keeps hst hr (hs (by decide))
  | report => exact reportStart_keeps hst hp (hs (by decide))
  | wireReset | wireSetRemoteMode | wireSetStreamMode | wireSetScaling21 | wireSetScaling11
  | wireEnableDataReporting | wireDisableDataReporting | wireReadData | cmd => exact cmdStart_keeps hst _ hn
  | wireSetResolution v | wireSetSampleRate v => exact cmdThenArgStart_keeps hst _ v hn
  | respBatPass => exact batResponseStart_keeps hst (fun _ h => h) hn
  | respAck | respDeviceId | frameD2H | receiveByte => exact receiveStart_keeps hst hn
  | frameH2D v | transmitByte v => exact transmitStart_keeps hst v hn
  | movementReport => exact reportRead_keeps hst hp hn
  | readBit => exact readBitStart_keeps hst hn
  | decodeX => exact decodeStart_keeps hst .x (fun _ h => h) hn
  | decodeY => exact decodeStart_keeps hst .y (fun _ h => h) hn
  | cmdToggled c => exact toggledStart_keeps hst ht c hn

theorem exec_ok {i : Instr} {s t : State} (hx : ∀ x ∈ s.inputs, x.rst = false) (hw : writesOk i = false)
    (h : exec i s = .next t) : t.ok = s.ok := by
  refine exec_carries (carries_okStands s.ok) (fun x hmem hr => ?_) rfl rfl (fun code op hb => ?_) h
  · simp [hx x hmem] at hr
  · exact onward_of_keeps (by simp) (hb.keeps_okStands hw rfl)

/-- Settles O50: `ok` stands wherever INITIALIZE does not run, and each other result's value is a lasting predicate that
an instruction outside its writers respects. -/
theorem resultsFrame : Obligations.ResultsFrame := fun _ _ _ hx h =>
  ⟨fun hw => exec_ok hx hw h,
    fun hw => exec_kept (lasting_status _) (instrHarmless_status _ hw) hx rfl h,
    fun hw => exec_kept (lasting_dx _) (instrHarmless_dx _ hw) hx rfl h,
    fun hw => exec_kept (lasting_dy _) (instrHarmless_dy _ hw) hx rfl h,
    fun hwx hwy => exec_kept (lasting_mag _) (instrHarmless_mag _ hwx hwy) hx rfl h⟩

end Sys2Proof.Machine

/-! Which bytes the HOST sends (R94, R95, R108). `P` holds of every byte sent so far, `a` is what the argument latch
holds: every operation sends commands of the table, or what its own frame or the argument latch carries. -/

namespace Sys2Proof.Machine

/-- Every byte on the wire from the HOST is one that `P` admits. -/
abbrev SentOnly (P : Byte → Prop) (s : State) : Prop := ∀ v, .h2d v ∈ s.wire → P v

/-- Every byte sent is one that `P` admits, and the argument latch holds `a`. -/
structure Clean (P : Byte → Prop) (a : Byte) (s : State) : Prop where
  sent    : SentOnly P s
  latched : s.arg = a

/-- What an operation that waits for a callee has still to send, besides commands of the table, is admitted. No
operation waits at a TRANSMIT_BYTE. -/
def waiting (P : Byte → Prop) (a : Byte) (f : Frame) : Prop :=
  match f with
  | .toggled c _ => P c
  | .cmdThenArg b _ => P b
  | .setResolution _ | .setSampleRate _ => P a
  | .transmit _ => False
  | _ => True

/-- What the innermost operation has still to send is admitted: a TRANSMIT_BYTE sends what `sh` holds (R137, R143). -/
def sending (P : Byte → Prop) (a : Byte) (s : State) (f : Frame) : Prop :=
  match f with
  | .transmit _ => P s.sh
  | f => waiting P a f

/-- The same of all frames that go on. -/
def sendingAll (P : Byte → Prop) (a : Byte) (s : State) (k : List Frame) : Prop :=
  match k with
  | [] => True
  | f :: k => sending P a s f ∧ ∀ g ∈ k, waiting P a g

/-- A step sends admitted bytes only, and so will what it leaves under way. -/
def Sends (P : Byte → Prop) (a : Byte) (r : Ran) : Prop :=
  Clean P a r.1 ∧ ∀ fs, r.2 = .block fs → sendingAll P a r.1 fs

section sends
variable {P : Byte → Prop} {a : Byte} {s t : State} {f : Frame} {k callee : State → Ran}

theorem Clean.of_eq (h : Clean P a s) (hw : t.wire = s.wire) (ha : t.arg = s.arg) : Clean P a t :=
  ⟨fun v hv => h.sent v (hw ▸ hv), ha.trans h.latched⟩

theorem Clean.logWire (h : Clean P a s) {e : WireEvent} (he : ∀ v, e = .h2d v → P v) : Clean P a (logWire e s) where
  sent v hv := by
    obtain hv | hv := List.mem_cons.mp hv
    · exact he v hv.symm
    · exact h.sent v hv
  latched := h.latched

theorem sending_of_waiting (h : waiting P a f) : sending P a s f := by
  cases f with
  | transmit => exact h.elim
  | _ => exact h

theorem sendingAll_of_waiting {k : List Frame} (h : ∀ g ∈ k, waiting P a g) : sendingAll P a s k := by
  cases k with
  | nil => trivial
  | cons f k =>
    obtain ⟨hf, hk⟩ := List.forall_mem_cons.mp h
    exact ⟨sending_of_waiting hf, hk⟩

theorem sendingAll_append {fs k : List Frame} (hfs : sendingAll P a s fs) (hk : ∀ g ∈ k, waiting P a g) :
    sendingAll P a s (fs ++ k) := by
  cases fs with
  | nil => exact sendingAll_of_waiting hk
  | cons f fs => exact ⟨hfs.1, List.forall_mem_append.mpr ⟨hfs.2, hk⟩⟩

/-! The position combinators. -/

theorem goto_sends (h : Clean P a s) (hf : sending P a s f) : Sends P a (goto f s) :=
  ⟨h, by rintro _ ⟨⟩; exact ⟨hf, by simp⟩⟩

theorem return'_sends (h : Clean P a s) : Sends P a (return' s) := ⟨h, by rintro _ ⟨⟩⟩

theorem enterWait_sends (h : Clean P a s) (hf : sending P a (armTimer s) f) : Sends P a (enterWait f s) :=
  goto_sends (h.of_eq rfl rfl) hf

theorem enterPoll_sends (h : Clean P a s) (hf : sending P a (armPoll s) f) : Sends P a (enterPoll f s) :=
  goto_sends (h.of_eq (armPoll_wire s) (armPoll_arg s)) hf

theorem waitThen_sends {n : Time} (h : Clean P a s) (hf : sending P a s f) (hk : Sends P a (k s)) :
    Sends P a (waitThen n f k s) := by
  obtain ⟨e, -⟩ | ⟨e, -⟩ := waitThen_cases n f k s <;> rw [e]
  · exact goto_sends h hf
  · exact hk

theorem pollThen_sends {c : Bool} (h : Clean P a s) (hf : sending P a s f) (hk : Sends P a (k s)) :
    Sends P a (pollThen c f k s) := by
  obtain ⟨e, -⟩ | ⟨e, -⟩ | ⟨e, -⟩ := pollThen_cases c f k s <;> rw [e]
  · exact goto_sends h hf
  · exact ⟨h, by rintro _ ⟨⟩⟩
  · exact hk

theorem callThen_sends (hf : waiting P a f) (hc : Sends P a (callee s)) (hk : ∀ s, Clean P a s → Sends P a (k s)) :
    Sends P a (callThen callee f k s) := by
  unfold callThen
  generalize callee s = r at hc
  obtain ⟨s', fs | _ | _ | _ | _⟩ := r <;> obtain ⟨hs, hfs⟩ := hc
  case block =>
    refine ⟨hs, ?_⟩
    rintro _ ⟨⟩
    exact sendingAll_append (hfs fs rfl) (by simpa using hf)
  case ret => exact hk s' hs
  case hold => exact goto_sends hs (sending_of_waiting hf)
  all_goals exact ⟨hs, by rintro _ ⟨⟩⟩

/-! Transport (40_transport.md): TRANSMIT_BYTE sends the byte loaded at TX.1, which its slots leave in `sh`. -/

theorem transmitStart_sends {v : Byte} (hv : P v) (h : Clean P a s) : Sends P a (transmitStart v s) :=
  enterWait_sends (h.of_eq rfl rfl) hv

theorem enterSlot_sends (i : BitVec 4) {p : TxPos} (h : Clean P a s) (hf : sending P a s (.transmit p)) :
    Sends P a (enterSlot i s) := by
  have hsh : P s.sh := hf
  exact enterPoll_sends (h.of_eq (by simp) (by simp)) (by simpa [sending] using hsh)

theorem nextSlot_sends {p : TxPos} (h : Clean P a s) (hf : sending P a s (.transmit p)) : Sends P a (nextSlot s) := by
  unfold nextSlot
  split_ifs
  · exact enterSlot_sends _ h hf
  · exact enterWait_sends h hf
  · exact ⟨h, by rintro _ ⟨⟩⟩

theorem transmitDone_sends {p : TxPos} (h : Clean P a s) (hf : sending P a s (.transmit p)) :
    Sends P a (transmitDone s) := by
  have hs : Clean P a (drive .clock .low s) := h.of_eq rfl rfl
  exact ⟨hs.logWire (by rintro _ ⟨⟩; exact hf), by rintro _ ⟨⟩⟩

theorem transmitStep_sends (p : TxPos) (h : Clean P a s) (hf : sending P a s (.transmit p)) :
    Sends P a (transmitStep p s) := by
  have hpoll {q : TxPos} : sending P a (armPoll s) (.transmit q) := by simpa [sending] using hf
  cases p with
  | settle | inhibit => exact waitThen_sends h hf (enterWait_sends (h.of_eq rfl rfl) hf)
  | start =>
    exact waitThen_sends h hf (enterPoll_sends (h.of_eq rfl rfl) (by simpa [sending] using hf))
  | grant => exact pollThen_sends h hf (enterSlot_sends _ h hf)
  | slotLow => exact pollThen_sends h hf (enterPoll_sends h hpoll)
  | slotHigh => exact pollThen_sends h hf (nextSlot_sends h hf)
  | post => exact waitThen_sends h hf (enterPoll_sends h hpoll)
  | ack => exact pollThen_sends h hf (transmitDone_sends h hf)

theorem readBitStart_sends (h : Clean P a s) : Sends P a (readBitStart s) := enterPoll_sends h trivial

theorem readBitStep_sends (p : RbPos) (h : Clean P a s) : Sends P a (readBitStep p s) := by
  cases p with
  | waitLow => exact pollThen_sends h trivial (goto_sends h trivial)
  | sample => exact enterPoll_sends (h.of_eq rfl rfl) trivial
  | waitHigh => exact pollThen_sends h trivial (return'_sends h)

theorem readSlot_sends (i : BitVec 4) (h : Clean P a s) : Sends P a (readSlot i s) :=
  callThen_sends trivial (readBitStart_sends (h.of_eq rfl rfl)) fun _ => return'_sends

theorem slotRead_sends (h : Clean P a s) : Sends P a (slotRead s) := by
  unfold slotRead
  split_ifs
  · exact readSlot_sends _ (h.of_eq (by simp) (by simp))
  · have hs : Clean P a (returnByte (drive .clock .low s)) := h.of_eq rfl rfl
    exact ⟨hs.logWire (by rintro _ ⟨⟩), by rintro _ ⟨⟩⟩
  · exact ⟨h, by rintro _ ⟨⟩⟩

theorem receiveStart_sends (h : Clean P a s) : Sends P a (receiveStart s) := enterWait_sends (h.of_eq rfl rfl) trivial

theorem receiveStep_sends (p : RxPos) (h : Clean P a s) : Sends P a (receiveStep p s) := by
  cases p with
  | settle => exact waitThen_sends h trivial (enterWait_sends h trivial)
  | soft =>
    unfold receiveStep
    split_ifs
    · exact goto_sends h trivial
    · exact enterWait_sends h trivial
  | skew => exact waitThen_sends h trivial (enterPoll_sends h trivial)
  | eat => exact pollThen_sends h trivial (readSlot_sends _ h)
  | bit => exact slotRead_sends h

theorem callTransmit_sends {v : Byte} (hv : P v) (hf : waiting P a f) (h : Clean P a s) :
    Sends P a (callTransmit v f s) := callThen_sends hf (transmitStart_sends hv h) fun _ => return'_sends

theorem callReceive_sends (hf : waiting P a f) (h : Clean P a s) : Sends P a (callReceive f s) :=
  callThen_sends hf (receiveStart_sends h) fun _ => return'_sends

/-! The pseudo-operations run on their own (R107). -/

theorem cmdStart_sends {c : Byte} (hc : P c) (h : Clean P a s) : Sends P a (cmdStart c s) :=
  callTransmit_sends hc trivial h

theorem cmdStep_sends (p : CmdPos) (h : Clean P a s) : Sends P a (cmdStep p s) := by
  cases p with
  | afterByte => exact callReceive_sends trivial h
  | afterAck => exact return'_sends h

theorem cmdThenArgStart_sends {c b : Byte} (hc : P c) (hb : P b) (h : Clean P a s) :
    Sends P a (cmdThenArgStart c b s) := callTransmit_sends hc hb h

theorem cmdThenArgStep_sends {b : Byte} (p : CmdPos) (hb : P b) (h : Clean P a s) :
    Sends P a (cmdThenArgStep b p s) := by
  cases p with
  | afterByte => exact callReceive_sends hb h
  | afterAck => exact cmdStart_sends hb h

/-! The operations of the protocol layer send commands of the table, CMD_TOGGLED the byte in its frame, SET_RESOLUTION
and SET_SAMPLE_RATE the argument latch (41_init.md to 43_report.md). -/

section commands
variable (hP : ∀ c ∈ commandBytes, P c)
include hP

theorem enableStart_sends (h : Clean P a s) : Sends P a (enableStart s) := by
  unfold enableStart
  split_ifs
  · exact return'_sends h
  · exact callTransmit_sends (hP _ (by decide)) trivial h

theorem disableStart_sends (h : Clean P a s) : Sends P a (disableStart s) := by
  unfold disableStart
  split_ifs
  · exact callTransmit_sends (hP _ (by decide)) trivial h
  · exact return'_sends h

theorem toggledStart_sends {c : Byte} (hc : P c) (h : Clean P a s) : Sends P a (toggledStart c s) := by
  have h' : Clean P a (latchGuard s) := h.of_eq rfl rfl
  unfold toggledStart
  dsimp only
  split_ifs
  · exact callThen_sends hc (disableStart_sends hP h') fun _ => callTransmit_sends hc hc
  · exact callTransmit_sends hc hc h'

theorem toggledStep_sends {c : Byte} (p : ToggledPos) (hc : P c) (h : Clean P a s) : Sends P a (toggledStep c p s) := by
  cases p with
  | afterSuspend => exact callTransmit_sends hc hc h
  | afterCommand => exact callReceive_sends hc h
  | afterAck =>
    unfold toggledStep
    dsimp only
    split_ifs
    · exact callThen_sends hc (enableStart_sends hP h) fun _ => return'_sends
    · exact return'_sends h
  | afterResume => exact return'_sends h

omit hP in
theorem finishMode_sends (m : Mode) (hf : ∀ s, sending P a s f) (h : Clean P a s) : Sends P a (finishMode m f s) := by
  have h' : Clean P a (setMode m s) := h.of_eq rfl rfl
  unfold finishMode
  dsimp only
  split_ifs
  · exact enterWait_sends h' (hf _)
  · exact return'_sends h'

theorem setRemoteModeStart_sends (h : Clean P a s) : Sends P a (setRemoteModeStart s) :=
  callThen_sends trivial (toggledStart_sends hP (hP _ (by decide)) h) fun _ => finishMode_sends _ fun _ => trivial

theorem setStreamModeStart_sends (h : Clean P a s) : Sends P a (setStreamModeStart s) :=
  callThen_sends trivial (toggledStart_sends hP (hP _ (by decide)) h) fun _ => finishMode_sends _ fun _ => trivial

theorem setScaling21Start_sends (h : Clean P a s) : Sends P a (setScaling21Start s) :=
  callThen_sends trivial (toggledStart_sends hP (hP _ (by decide)) h) fun _ => return'_sends

theorem setScaling11Start_sends (h : Clean P a s) : Sends P a (setScaling11Start s) :=
  callThen_sends trivial (toggledStart_sends hP (hP _ (by decide)) h) fun _ => return'_sends

theorem resolutionCommand_sends (ha : P a) (h : Clean P a s) : Sends P a (resolutionCommand s) :=
  callTransmit_sends (hP _ (by decide)) ha h

theorem setResolutionStart_sends (ha : P a) (h : SentOnly P s) :
    Sends P a (setResolutionStart a s) := by
  have h' : Clean P a (latchGuard (latchArg a s)) := ⟨h, rfl⟩
  unfold setResolutionStart
  dsimp only
  split_ifs
  · exact callThen_sends ha (enableStart_sends hP h') fun _ => resolutionCommand_sends hP ha
  · exact resolutionCommand_sends hP ha h'

theorem setResolutionStep_sends (p : ArgPos) (ha : P a) (h : Clean P a s) : Sends P a (setResolutionStep p s) := by
  cases p with
  | afterFirstToggle => exact resolutionCommand_sends hP ha h
  | afterCommand | afterArgument => exact callReceive_sends ha h
  | afterCommandAck => exact callTransmit_sends (h.latched ▸ ha) ha h
  | afterArgumentAck =>
    unfold setResolutionStep
    dsimp only
    split_ifs
    · exact callThen_sends ha (disableStart_sends hP h) fun _ => return'_sends
    · exact return'_sends h
  | afterLastToggle => exact return'_sends h

theorem sampleRateCommand_sends (ha : P a) (h : Clean P a s) : Sends P a (sampleRateCommand s) :=
  callTransmit_sends (hP _ (by decide)) ha h

theorem setSampleRateStart_sends (ha : P a) (h : SentOnly P s) :
    Sends P a (setSampleRateStart a s) := by
  have h' : Clean P a (latchGuard (latchArg a s)) := ⟨h, rfl⟩
  unfold setSampleRateStart
  dsimp only
  split_ifs
  · exact callThen_sends ha (disableStart_sends hP h') fun _ => sampleRateCommand_sends hP ha
  · exact sampleRateCommand_sends hP ha h'

theorem setSampleRateStep_sends (p : ArgPos) (ha : P a) (h : Clean P a s) : Sends P a (setSampleRateStep p s) := by
  cases p with
  | afterFirstToggle => exact sampleRateCommand_sends hP ha h
  | afterCommand | afterArgument => exact callReceive_sends ha h
  | afterCommandAck => exact callTransmit_sends (h.latched ▸ ha) ha h
  | afterArgumentAck =>
    unfold setSampleRateStep
    dsimp only
    split_ifs
    · exact callThen_sends ha (enableStart_sends hP h) fun _ => return'_sends
    · exact return'_sends h
  | afterLastToggle => exact return'_sends h

theorem initSetUp_sends (h : Clean P a s) : Sends P a (initSetUp s) := by
  have hfinal : ∀ s, Clean P a s → Sends P a (initFinal s) := fun _ h => enterWait_sends h trivial
  unfold initSetUp
  split
  · exact callThen_sends trivial (setRemoteModeStart_sends hP h) hfinal
  · exact callThen_sends trivial (enableStart_sends hP h) hfinal

theorem initTest_sends (h : Clean P a s) : Sends P a (initTest s) := by
  unfold initTest
  split_ifs
  · exact initSetUp_sends hP h
  · exact return'_sends (h.of_eq rfl rfl)

theorem initStep_sends (p : InitPos) (h : Clean P a s) : Sends P a (initStep p s) := by
  cases p with
  | powerup => exact waitThen_sends h trivial (callTransmit_sends (hP _ (by decide)) trivial h)
  | afterReset | afterAck => exact callReceive_sends trivial h
  | afterBat => exact callReceive_sends trivial (h.of_eq rfl rfl)
  | afterId | afterSetUp => exact enterWait_sends h trivial
  | postBat => exact waitThen_sends h trivial (initTest_sends hP h)
  | final => exact waitThen_sends h trivial (return'_sends (h.of_eq rfl rfl))

theorem reportStart_sends (h : Clean P a s) : Sends P a (reportStart s) := by
  unfold reportStart
  split
  · exact callTransmit_sends (hP _ (by decide)) trivial h
  · exact callReceive_sends trivial h

omit hP in
theorem reportY_sends (h : Clean P a s) : Sends P a (reportY s) :=
  callThen_sends trivial (callReceive_sends trivial h) fun _ => return'_sends

omit hP in
theorem reportStep_sends (p : ReportPos) (h : Clean P a s) : Sends P a (reportStep p s) := by
  cases p with
  | afterPoll | afterPollAck => exact callReceive_sends trivial h
  | afterStatus =>
    have h' : Clean P a (keepStatus s) := h.of_eq rfl rfl
    exact callThen_sends (callee := decodeStart .x) trivial (callReceive_sends trivial h') fun _ => reportY_sends
  | afterX => exact reportY_sends h
  | afterY => exact return'_sends h

theorem frameStep_sends (hf : sending P a s f) (h : Clean P a s) : Sends P a (frameStep f s) := by
  cases f with
  | initLink p => exact initStep_sends hP p h
  | setRemoteMode p | setStreamMode p =>
    cases p with
    | afterHelper => exact finishMode_sends _ (fun _ => trivial) h
    | settle => exact waitThen_sends h trivial (return'_sends h)
  | setScaling21 | setScaling11 => exact return'_sends h
  | setResolution p => exact setResolutionStep_sends hP p hf h
  | setSampleRate p => exact setSampleRateStep_sends hP p hf h
  | enableReporting p | disableReporting p =>
    cases p with
    | afterByte => exact callReceive_sends trivial h
    | afterAck => exact return'_sends (h.of_eq rfl rfl)
  | report p => exact reportStep_sends p h
  | toggled c p => exact toggledStep_sends hP p hf h
  | decode d => cases d <;> exact return'_sends (h.of_eq rfl rfl)
  | transmit p => exact transmitStep_sends p h hf
  | receive p => exact receiveStep_sends p h
  | readBit p => exact readBitStep_sends p h
  | cmd p => exact cmdStep_sends p h
  | cmdThenArg b p => exact cmdThenArgStep_sends p hf h
  | batResponse => exact return'_sends (h.of_eq rfl rfl)

end commands

/-- The bytes sent are admitted, and so is what the frames that go on have still to send, with some argument latched. -/
def Admitted (P : Byte → Prop) (s : State) (k : List Frame) : Prop := ∃ a, Clean P a s ∧ sendingAll P a s k

theorem onward_of_sends {k : List Frame} {r : Ran} (hk : ∀ g ∈ k, waiting P a g) (h : Sends P a r) :
    Onward (Admitted P) (SentOnly P) k r := by
  obtain ⟨s, fs | _ | _ | _ | _⟩ := r
  · exact ⟨a, h.1, sendingAll_append (h.2 fs rfl) hk⟩
  · exact ⟨a, h.1, sendingAll_of_waiting hk⟩
  · exact ⟨a, h.1, sendingAll_of_waiting hk⟩
  · exact h.1.sent
  · trivial

theorem Admitted.of_eq {k : List Frame} (h : Admitted P s k) (hw : t.wire = s.wire) (ha : t.arg = s.arg)
    (hsh : t.sh = s.sh) : Admitted P t k := by
  obtain ⟨a, hs, hk⟩ := h
  refine ⟨a, hs.of_eq hw ha, ?_⟩
  cases k with
  | nil => trivial
  | cons f k =>
    obtain ⟨hf, hk⟩ := hk
    refine ⟨?_, hk⟩
    cases f with
    | transmit => exact (congrArg P hsh).mpr hf
    | _ => exact hf

theorem carries_admitted (hP : ∀ c ∈ commandBytes, P c) : Carries (Admitted P) (SentOnly P) where
  step := fun ⟨_, hs, hf, hk⟩ => onward_of_sends hk (frameStep_sends hP hf hs)
  sampled _ h := h.of_eq rfl rfl rfl
  stacked _ h := h.of_eq rfl rfl rfl
  ends := fun ⟨_, hs, _⟩ => hs.sent
  known := fun ⟨_, hs, _⟩ => hs.sent
  queued _ h := h

/-- The first step of an instruction, with the argument latch that it leaves. -/
theorem Begins.sends {i : Instr} {code : Option (BitVec 4)} {op : State → Ran} (hb : Begins s i code op)
    (hP : ∀ c ∈ commandBytes, P c) (hhanded : ∀ v, handedByte i s = some v → P v)
    (h : SentOnly P t) : ∃ a, Sends P a (op t) := by
  have hclean : Clean P t.arg t := ⟨h, rfl⟩
  cases hb with
  | initializeLink => exact ⟨_, enterWait_sends (hclean.of_eq rfl rfl) trivial⟩
  | setRemoteMode => exact ⟨_, setRemoteModeStart_sends hP hclean⟩
  | setStreamMode => exact ⟨_, setStreamModeStart_sends hP hclean⟩
  | setScaling21 => exact ⟨_, setScaling21Start_sends hP hclean⟩
  | setScaling11 => exact ⟨_, setScaling11Start_sends hP hclean⟩
  | setResolution r => exact ⟨r, setResolutionStart_sends hP (hhanded r rfl) h⟩
  | setSampleRate n => exact ⟨n, setSampleRateStart_sends hP (hhanded n rfl) h⟩
  | enableDataReporting => exact ⟨_, enableStart_sends hP hclean⟩
  | disableDataReporting => exact ⟨_, disableStart_sends hP hclean⟩
  | report => exact ⟨_, reportStart_sends hP hclean⟩
  | wireReset | wireSetRemoteMode | wireSetStreamMode | wireSetScaling21 | wireSetScaling11
  | wireEnableDataReporting | wireDisableDataReporting | wireReadData =>
    exact ⟨_, cmdStart_sends (hP _ (by decide)) hclean⟩
  | wireSetResolution v | wireSetSampleRate v =>
    exact ⟨_, cmdThenArgStart_sends (hP _ (by decide)) (hhanded v rfl) hclean⟩
  | respBatPass | movementReport | decodeX | decodeY => exact ⟨_, callReceive_sends trivial hclean⟩
  | respAck | respDeviceId | frameD2H | receiveByte => exact ⟨_, receiveStart_sends hclean⟩
  | frameH2D v | transmitByte v => exact ⟨_, transmitStart_sends (hhanded v rfl) hclean⟩
  | readBit => exact ⟨_, readBitStart_sends hclean⟩
  | cmd c hc =>
    refine ⟨_, cmdStart_sends ?_ hclean⟩
    obtain hc | hdue := hc
    · exact hP c hc
    · exact hhanded c (if_pos hdue)
  | cmdToggled c hc => exact ⟨_, toggledStart_sends hP (hP c hc) hclean⟩

end sends

/-- A byte that an operation may leave on the wire: one sent before, a command of the table, or the byte handed to it. -/
def maySend (i : Instr) (s : State) (v : Byte) : Prop :=
  .h2d v ∈ s.wire ∨ v ∈ commandBytes ∨ handedByte i s = some v

theorem exec_maySend {i : Instr} {s t : State} (h : exec i s = .next t) : SentOnly (maySend i s) t := by
  have hP : ∀ c ∈ commandBytes, maySend i s c := fun _ hc => .inr (.inl hc)
  have hsent : SentOnly (maySend i s) s := fun _ hv => .inl hv
  refine exec_carries (carries_admitted hP) (fun x _ _ u v hv => ?_) hsent hsent (fun code op hb => ?_) h
  · cases hv
  · obtain ⟨a, ha⟩ := hb.sends (t := accepted code (present (devicePresents i s) s)) hP (fun _ hv => .inr (.inr hv))
      hsent
    exact onward_of_sends (by simp) ha

/-- An op word hands a byte to SET_RESOLUTION and SET_SAMPLE_RATE only (R100, R101). -/
theorem handedByte_decodeOp {w : BitVec 12} {s : State} {v : Byte} (h : handedByte (decodeOp w) s = some v) :
    (opCodeOf w = 0x5#4 ∨ opCodeOf w = 0x6#4) ∧ v = opArgOf w := by
  unfold decodeOp at h
  dsimp only at h
  split at h
  case h_6 hc => exact ⟨.inl hc, (Option.some.inj h).symm⟩
  case h_7 hc => exact ⟨.inr hc, (Option.some.inj h).symm⟩
  all_goals cases h

/-- Settles O52: from the bytes on the wire before, each step sends commands of the table and the byte handed over. -/
theorem bytesTheHostSends : Obligations.BytesTheHostSends :=
  ⟨fun _ _ _ v h hv => exec_maySend h v hv, fun _ _ _ h => handedByte_decodeOp h⟩

end Sys2Proof.Machine

/-! No operation reads the op port, and an operation reads the DEVICE's levels only where it samples a line: with other
values at those ports a step does the same (R105, R132, R135). -/

namespace Sys2Proof.Machine

/-- A change of the ports that no `Wait` reads: the DEVICE's levels and the op port. -/
structure PortChange where
  devClock : Bool → Bool
  devData  : Bool → Bool
  opValid  : Bool → Bool
  op       : BitVec 12 → BitVec 12

namespace PortChange

/-- The sample with the ports changed. -/
def sample (g : PortChange) (x : Sample) : Sample :=
  { x with
    devClock := g.devClock x.devClock
    devData := g.devData x.devData
    opValid := g.opValid x.opValid
    op := g.op x.op }

/-- The state that has sampled the changed ports. -/
def state (g : PortChange) (s : State) : State := { s with pins := g.sample s.pins }

/-- The change leaves the levels of the lines as they are. -/
def KeepsLevels (g : PortChange) : Prop := ∀ l s, level l (g.state s) = level l s

/-- `op` leaves the ports as they are and does the same whether they are changed or not. -/
def Unread (g : PortChange) (op : State → Ran) : Prop :=
  ∀ s, (op s).1.pins = s.pins ∧ op (g.state s) = (g.state (op s).1, (op s).2)

/-- The update `u` leaves the ports as they are and does the same whether they are changed or not. -/
def UnreadUpdate (g : PortChange) (u : State → State) : Prop :=
  ∀ s, (u s).pins = s.pins ∧ u (g.state s) = g.state (u s)

section unread
variable (g : PortChange)

@[simp] theorem state_mode (s : State) : (g.state s).mode = s.mode := rfl
@[simp] theorem state_cfg (s : State) : (g.state s).cfg = s.cfg := rfl

theorem armPoll_unread : g.UnreadUpdate armPoll := by
  intro s
  refine ⟨armPoll_pins s, ?_⟩
  simp only [armPoll, state_cfg]
  cases s.cfg.timeoutPolicy <;> rfl

theorem driveSlot_unread : g.UnreadUpdate driveSlot := by
  intro s
  refine ⟨driveSlot_pins s, ?_⟩
  unfold driveSlot
  rw [apply_ite g.state, apply_ite g.state]
  rfl

theorem storeSample_unread : g.UnreadUpdate storeSample := by
  intro s
  refine ⟨storeSample_pins s, ?_⟩
  unfold storeSample
  rw [apply_ite g.state]
  rfl

theorem keepMovement_unread (a : Axis) : g.UnreadUpdate (keepMovement a) := by
  intro s
  cases a <;> exact ⟨rfl, rfl⟩

theorem takeSample_unread (hl : g.KeepsLevels) : g.UnreadUpdate takeSample := by
  intro s
  refine ⟨rfl, ?_⟩
  rw [takeSample, hl]
  rfl

end unread

namespace Unread
variable {g : PortChange} {a b k callee : State → Ran}

/-! The position combinators. -/

theorem comp {u : State → State} (hk : g.Unread k) (hu : g.UnreadUpdate u) : g.Unread (fun s => k (u s)) := by
  intro s
  obtain ⟨hup, hu⟩ := hu s
  obtain ⟨hkp, hk⟩ := hk (u s)
  exact ⟨hkp.trans hup, (congrArg k hu).trans hk⟩

theorem ite {c : State → Prop} {_ : DecidablePred c} (hc : ∀ s, c (g.state s) ↔ c s) (ha : g.Unread a)
    (hb : g.Unread b) : g.Unread (fun s => if c s then a s else b s) := by
  intro s
  simp only [hc]
  split
  · exact ha s
  · exact hb s

theorem enterPoll (f : Frame) : g.Unread (enterPoll f) :=
  comp (k := goto f) (fun _ => ⟨rfl, rfl⟩) g.armPoll_unread

theorem waitThen {n : State → Time} (hn : ∀ s, n (g.state s) = n s) (f : Frame) (hk : g.Unread k) :
    g.Unread (fun s => waitThen (n s) f k s) := by
  have hc (s : State) : elapsed (g.state s) ≤ n (g.state s) ↔ elapsed s ≤ n s := by
    rw [hn]
    rfl
  exact ite (a := goto f) hc (fun _ => ⟨rfl, rfl⟩) hk

theorem pollThen {c : State → Bool} (hc : ∀ s, c (g.state s) = c s) (f : Frame) (hk : g.Unread k) :
    g.Unread (fun s => pollThen (c s) f k s) :=
  ite (fun s => by rw [hc])
    (ite (a := fun s => (s, .timeout)) (b := goto f) (fun _ => .rfl) (fun _ => ⟨rfl, rfl⟩) fun _ => ⟨rfl, rfl⟩) hk

theorem callThen (hc : g.Unread callee) (f : Frame) (hk : g.Unread k) : g.Unread (callThen callee f k) := by
  intro s
  obtain ⟨hp, hc⟩ := hc s
  unfold Machine.callThen
  rw [hc]
  generalize callee s = r at hp
  obtain ⟨s', fs | _ | _ | _ | _⟩ := r
  case ret =>
    obtain ⟨hkp, hk⟩ := hk s'
    exact ⟨hkp.trans hp, hk⟩
  all_goals exact ⟨hp, rfl⟩

/-! Transport (40_transport.md). -/

theorem enterSlot (i : BitVec 4) : g.Unread (enterSlot i) :=
  (enterPoll (.transmit .slotLow)).comp (u := fun s => driveSlot (setBitidx i s)) fun s => by
    obtain ⟨hp, hd⟩ := g.driveSlot_unread (setBitidx i s)
    exact ⟨hp, hd⟩

theorem nextSlot : g.Unread nextSlot :=
  ite (fun _ => .rfl) (fun s => enterSlot _ s) (ite (fun _ => .rfl) (fun _ => ⟨rfl, rfl⟩) fun _ => ⟨rfl, rfl⟩)

theorem transmitStep (p : TxPos) (hl : sampling (.transmit p) = true → g.KeepsLevels) : g.Unread (transmitStep p) := by
  cases p with
  | settle | inhibit => exact waitThen (fun _ => rfl) _ fun _ => ⟨rfl, rfl⟩
  | start => exact waitThen (fun _ => rfl) _ ((enterPoll _).comp fun _ => ⟨rfl, rfl⟩)
  | grant => exact pollThen (hl rfl .clock) _ (enterSlot _)
  | slotLow => exact pollThen (hl rfl .clock) _ (enterPoll _)
  | slotHigh => exact pollThen (fun s => by rw [hl rfl .clock s]) _ nextSlot
  | post => exact waitThen (fun _ => rfl) _ (enterPoll _)
  | ack => exact pollThen (fun s => by rw [hl rfl .clock s, hl rfl .data s]) _ fun _ => ⟨rfl, rfl⟩

theorem readBitStep (p : RbPos) (hl : g.KeepsLevels) : g.Unread (readBitStep p) := by
  cases p with
  | waitLow => exact pollThen (hl .clock) _ fun _ => ⟨rfl, rfl⟩
  | sample => exact (enterPoll _).comp (g.takeSample_unread hl)
  | waitHigh => exact pollThen (fun s => by rw [hl .clock s]) _ fun _ => ⟨rfl, rfl⟩

theorem readSlot (i : BitVec 4) : g.Unread (readSlot i) :=
  (callThen (callee := readBitStart) (enterPoll _) _ fun _ => ⟨rfl, rfl⟩).comp fun _ => ⟨rfl, rfl⟩

theorem slotRead : g.Unread slotRead :=
  ite (fun _ => .rfl) (fun s => (readSlot _).comp g.storeSample_unread s)
    (ite (fun _ => .rfl) (fun _ => ⟨rfl, rfl⟩) fun _ => ⟨rfl, rfl⟩)

theorem receiveStep (p : RxPos) (hl : sampling (.receive p) = true → g.KeepsLevels) : g.Unread (receiveStep p) := by
  cases p with
  | settle => exact waitThen (fun _ => rfl) _ fun _ => ⟨rfl, rfl⟩
  | soft =>
    have hlev := hl rfl .clock
    refine ite (fun s => ?_) (fun _ => ⟨rfl, rfl⟩) fun _ => ⟨rfl, rfl⟩
    rw [hlev]
    rfl
  | skew => exact waitThen (fun _ => rfl) _ (enterPoll _)
  | eat => exact pollThen (fun s => by rw [hl rfl .clock s]) _ (readSlot _)
  | bit => exact slotRead

theorem callTransmit (v : Byte) (f : Frame) : g.Unread (callTransmit v f) := fun _ => ⟨rfl, rfl⟩

theorem callReceive (f : Frame) : g.Unread (callReceive f) := fun _ => ⟨rfl, rfl⟩

/-! Mode and configuration commands (42_config.md). -/

theorem return' : g.Unread return' := fun _ => ⟨rfl, rfl⟩

theorem enableStart : g.Unread enableStart := ite (fun _ => .rfl) return' (callTransmit _ _)

theorem disableStart : g.Unread disableStart := ite (fun _ => .rfl) (callTransmit _ _) return'

theorem toggledStart (c : Byte) : g.Unread (toggledStart c) :=
  (ite (c := (·.resumeLatch = true)) (fun _ => .rfl) (callThen disableStart _ (callTransmit _ _))
    (callTransmit _ _)).comp (u := latchGuard) fun _ => ⟨rfl, rfl⟩

theorem toggledStep (c : Byte) (p : ToggledPos) : g.Unread (toggledStep c p) := by
  cases p with
  | afterAck => exact ite (fun _ => .rfl) (callThen enableStart _ return') return'
  | _ => exact fun _ => ⟨rfl, rfl⟩

theorem finishMode (m : Mode) (f : Frame) : g.Unread (finishMode m f) :=
  (ite (c := (·.initialized = true)) (a := enterWait f) (fun _ => .rfl) (fun _ => ⟨rfl, rfl⟩) return').comp
    (u := setMode m) fun _ => ⟨rfl, rfl⟩

theorem setRemoteModeStart : g.Unread setRemoteModeStart := callThen (toggledStart _) _ (finishMode _ _)

theorem setRemoteModeStep (p : ModePos) : g.Unread (setRemoteModeStep p) := by
  cases p with
  | afterHelper => exact finishMode _ _
  | settle => exact waitThen (fun _ => rfl) _ return'

theorem setStreamModeStep (p : ModePos) : g.Unread (setStreamModeStep p) := by
  cases p with
  | afterHelper => exact finishMode _ _
  | settle => exact waitThen (fun _ => rfl) _ return'

theorem setResolutionStep (p : ArgPos) : g.Unread (setResolutionStep p) := by
  cases p with
  | afterArgumentAck => exact ite (fun _ => .rfl) (callThen disableStart _ return') return'
  | _ => exact fun _ => ⟨rfl, rfl⟩

theorem setSampleRateStep (p : ArgPos) : g.Unread (setSampleRateStep p) := by
  cases p with
  | afterArgumentAck => exact ite (fun _ => .rfl) (callThen enableStart _ return') return'
  | _ => exact fun _ => ⟨rfl, rfl⟩

/-! INITIALIZE (41_init.md) and REPORT (43_report.md). -/

theorem initSetUp : g.Unread initSetUp := by
  intro s
  simp only [Machine.initSetUp, state_mode]
  cases s.mode with
  | remote => exact callThen (k := initFinal) setRemoteModeStart _ (fun _ => ⟨rfl, rfl⟩) s
  | stream => exact callThen (k := initFinal) enableStart _ (fun _ => ⟨rfl, rfl⟩) s

theorem initStep (p : InitPos) : g.Unread (initStep p) := by
  cases p with
  | powerup => exact waitThen (fun _ => rfl) _ (callTransmit _ _)
  | postBat => exact waitThen (fun _ => rfl) _ (ite (fun _ => .rfl) initSetUp fun _ => ⟨rfl, rfl⟩)
  | final => exact waitThen (fun _ => rfl) _ fun _ => ⟨rfl, rfl⟩
  | _ => exact fun _ => ⟨rfl, rfl⟩

theorem reportStep (p : ReportPos) : g.Unread (reportStep p) := by
  cases p <;> exact fun _ => ⟨rfl, rfl⟩

/-- A position at which no line is sampled reads none of the changed ports; one at which a line is, none but the
levels (R135). -/
theorem frameStep (f : Frame) (hl : sampling f = true → g.KeepsLevels) : g.Unread (frameStep f) := by
  cases f with
  | initLink p => exact initStep p
  | setRemoteMode p => exact setRemoteModeStep p
  | setStreamMode p => exact setStreamModeStep p
  | setScaling21 | setScaling11 => exact return'
  | setResolution p => exact setResolutionStep p
  | setSampleRate p => exact setSampleRateStep p
  | enableReporting p | disableReporting p | cmd p | cmdThenArg b p => cases p <;> exact fun _ => ⟨rfl, rfl⟩
  | report p => exact reportStep p
  | toggled c p => exact toggledStep c p
  | decode a => exact return'.comp (g.keepMovement_unread a)
  | transmit p => exact transmitStep p hl
  | receive p => exact receiveStep p hl
  | readBit p => exact readBitStep p (hl rfl)
  | batResponse => exact fun _ => ⟨rfl, rfl⟩

end Unread

/-- Where a resumed operation ends, it ends with the ports changed if they were. -/
theorem resume_state {g : PortChange} {k : List Frame} {s t : State}
    (hl : ∀ f ∈ k, sampling f = true → g.KeepsLevels) (h : resume k s = .next t) :
    t.pins = s.pins ∧ resume k (g.state s) = .next (g.state t) := by
  induction k generalizing s with
  | nil =>
    cases h
    exact ⟨rfl, rfl⟩
  | cons f k ih =>
    obtain ⟨hf, hk⟩ := List.forall_mem_cons.mp hl
    obtain ⟨hp, hstep⟩ := Unread.frameStep f hf s
    rw [resume_cons] at h
    rw [resume_cons, hstep]
    obtain ⟨s', fs, hr, rfl⟩ | ⟨s', hr, h⟩ | ⟨s', hr, rfl, rfl⟩ | ⟨s', hr, hne, rfl⟩ | ⟨s', hr, rfl⟩ :=
      conclude_cases h <;> rw [hr] at hp ⊢
    case inr.inl =>
      obtain ⟨ht, hres⟩ := ih hk h
      exact ⟨ht.trans hp, hres⟩
    case inr.inr.inr.inl =>
      obtain ⟨b, k, rfl⟩ := List.exists_cons_of_ne_nil hne
      exact ⟨hp, rfl⟩
    all_goals exact ⟨hp, rfl⟩

/-- The same for a clock edge, which records the ports that it samples. -/
theorem edge_sample {g : PortChange} {x : Sample} {s t : State}
    (hl : ∀ f ∈ s.stack, sampling f = true → g.KeepsLevels) (h : edge x s = .next t) :
    t.pins = x ∧ edge (g.sample x) s = .next (g.state t) := by
  unfold edge at h ⊢
  have hrst : (g.sample x).rst = x.rst := rfl
  rw [hrst]
  cases hx : x.rst <;> rw [hx] at h
  · exact resume_state hl h
  · cases h
    exact ⟨rfl, rfl⟩

end PortChange

/-- Another op word at the op port. -/
def otherOp (valid : Bool) (op : BitVec 12) : PortChange := ⟨id, id, fun _ => valid, fun _ => op⟩

theorem otherOp_keepsLevels (valid : Bool) (op : BitVec 12) : (otherOp valid op).KeepsLevels := fun l s => by
  cases l <;> rfl

/-- Settles O31: the op port is a port that no step reads, and the edge records it. -/
theorem opPortIgnoredWhileBusy : Obligations.OpPortIgnoredWhileBusy := by
  intro x valid op s t _ h
  obtain ⟨ht, he⟩ := (otherOp valid op).edge_sample (fun _ _ _ => otherOp_keepsLevels valid op) h
  refine he.trans ?_
  rw [PortChange.state, ht]
  rfl

end Sys2Proof.Machine

/-! Transport against a device that meets its contract: TRANSMIT_BYTE, RECEIVE_BYTE on both paths of RX.2, and READ_BIT run
on their own to their ends (R136 to R153, R243, R290). -/

namespace Sys2Proof.Machine

/-- TRANSMIT_BYTE run on its own: one exchange, and the HOST is idle (R136 to R145). -/
theorem transmit_completes (v : Byte) {s : State} {xs rest : List Sample} {t' : Time} (hb : s.busy = false)
    (hin : s.inputs = xs ++ rest) (h : transmitSeg s.cfg (now s) xs t') :
    ∃ (pins : Sample) (clk : Nat) (t0 : Time), pins.nowUs = t' ∧ start none (transmitStart v) s =
      .next (afterExchange s [.h2d v] rest ⟨v, xorBits v, 9#4, s.samp, t0, s.tResult, pins, clk⟩) := by
  obtain ⟨x, n, u, st, e, hrun⟩ := transmit_ends (s := accepted none s) (k := []) (v := v) h rfl
  refine ⟨x, n, u, e, ?_⟩
  rw [start_idle hb hin rfl, hrun, op_holds]
  rfl

/-- Settles O7: both rows start TRANSMIT_BYTE, and the `Drive`s on record are those of one exchange. -/
theorem transmitByteCompletes : Obligations.TransmitByteCompletes := by
  intro v s xs rest t' hb hin h
  obtain ⟨pins, clk, t0, e, hrun⟩ := transmit_completes v hb hin h
  exact ⟨pins, clk, t0, e, hrun, (if_pos rfl).trans hrun⟩

/-- RECEIVE_BYTE run on its own, by the seen-low path or by the timed-out path: one exchange, and the HOST is idle (R146 to
R152). -/
theorem receive_completes {slots : BitVec 11} {v : Byte} {b : Bool} {s : State} {xs rest : List Sample} {t' : Time}
    (hb : s.busy = false) (hin : s.inputs = xs ++ rest)
    (h : receiveSeg s.cfg slots (now s) xs t' ∧ v = frameByte slots ∧ b = slots.getLsbD 10 ∨
      receiveLateSeg s.cfg slots (now s) xs t' ∧ v = lateByte slots ∧ b = slots.getLsbD 9) :
    ∃ (pins : Sample) (clk : Nat) (t0 : Time), pins.nowUs = t' ∧ exec .receiveByte s =
      .next (afterExchange s [.d2h v] rest ⟨v, s.par, 9#4, b, t0, v, pins, clk⟩) := by
  obtain ⟨x, n, u, st, e, hrun⟩ := receive_ends (s := accepted none s) (k := []) h rfl
  refine ⟨x, n, u, e, ?_⟩
  have he : exec .receiveByte s = start none receiveStart s := rfl
  rw [he, start_idle hb hin rfl, hrun, op_holds]
  rfl

theorem frameByte_getLsbD (slots : BitVec 11) (k : Fin 8) : (frameByte slots).getLsbD k = slots.getLsbD (k + 1) := by
  simp [frameByte, Nat.add_comm]

theorem lateByte_getLsbD (slots : BitVec 11) (k : Fin 8) : (lateByte slots).getLsbD k = slots.getLsbD k := by
  simp [lateByte]

/-- A well-formed frame sampled from its start slot on is its byte moved up by one (R243). -/
theorem lateByte_goodFrame (u : Byte) : lateByte (goodFrame u) = u <<< 1 := by
  obtain ⟨hstart, hdata, -, -⟩ := frameOf_slots false u (oddParity u) true
  apply BitVec.eq_of_getLsbD_eq
  intro i hi
  rw [lateByte_getLsbD _ ⟨i, hi⟩, goodFrame]
  cases i with
  | zero => simpa using hstart
  | succ i =>
    have hlt : i < 8 := by omega
    rw [hdata ⟨i, hlt⟩]
    simp [hi, hlt, BitVec.getLsbD_eq_getElem]

/-- Settles O9: the byte is slots 1 to 8, whatever the others hold. -/
theorem receiveByteSeenLow : Obligations.ReceiveByteSeenLow := by
  intro slots s xs rest t' hb hin h
  obtain ⟨pins, clk, t0, e, hrun⟩ := receive_completes hb hin (.inl ⟨h, rfl, rfl⟩)
  exact ⟨frameByte slots, pins, clk, t0, frameByte_getLsbD slots, e, hrun⟩

/-- Settles O10: the byte is slots 0 to 7, the start slot first. -/
theorem receiveByteTimedOut : Obligations.ReceiveByteTimedOut := by
  intro slots s xs rest t' hb hin h
  obtain ⟨pins, clk, t0, e, hrun⟩ := receive_completes hb hin (.inr ⟨h, rfl, rfl⟩)
  refine ⟨lateByte slots, pins, clk, t0, lateByte_getLsbD slots, ?_, e, hrun⟩
  rintro u rfl
  exact lateByte_goodFrame u

/-- Settles O11: READ_BIT, called by nobody, returns to the end of the operation with the sample in `samp`. -/
theorem readBitCompletes : Obligations.ReadBitCompletes := by
  intro b s xs rest t' hb hc hd hin h
  obtain ⟨t0, hpoll, ht0⟩ := armPoll_moved s.pins s.clk s.t0 s.stack (accepted none s)
  obtain ⟨x, n, u, st, e, hrun⟩ := run_bit (s := moved s.pins s.clk t0 [.readBit .waitLow] (accepted none s)) (k := [])
    h rfl rfl hc hd ht0
  refine ⟨x, n, u, e, ?_⟩
  have he : exec .readBit s = start none readBitStart s := rfl
  have hstart : readBitStart (accepted none s) =
      (moved s.pins s.clk t0 s.stack (accepted none s), .block [.readBit .waitLow]) :=
    congrArg (fun s => (s, Ctl.block [.readBit .waitLow])) hpoll
  rw [he, start_idle hb hin (armPoll_inputs _), hstart, conclude_block, continueWith_next]
  refine (hrun rest).trans ?_
  rw [op_finishes]
  rfl

end Sys2Proof.Machine

/-! Where a sound HOST reads a line, and that it does not drive the line there (R131, R132, R135, R291). -/

namespace Sys2Proof.Machine

/-- An operation that has called another reads no line meanwhile. -/
theorem sampling_of_awaits {g f : Frame} (h : awaits g f = true) : sampling g = false := by
  cases g with
  | transmit p | readBit p => cases h
  | receive p =>
    cases p with
    | bit => rfl
    | _ => cases h
  | _ => rfl

/-- Only the innermost frame of a legal chain may stand where a line is read. -/
theorem sampling_callers {code : Option (BitVec 4)} {f : Frame} {k : List Frame}
    (h : legalChain code (f :: k) = true) : ∀ g ∈ k, sampling g = false := by
  induction k generalizing f with
  | nil => simp
  | cons g k ih =>
    obtain ⟨hcall, hrest⟩ : awaits g f = true ∧ legalChain code (g :: k) = true := by simpa [legalChain] using h
    exact List.forall_mem_cons.mpr ⟨sampling_of_awaits hcall, ih hrest⟩

/-- Other levels of the DEVICE at the two lines. -/
def otherLevels (clock data : Bool) : PortChange := ⟨fun _ => clock, fun _ => data, id, id⟩

/-- Settles O37: no frame of the stack stands where a line is read, so the edge reads none of the changed ports. -/
theorem unsampledWindows : Obligations.UnsampledWindows := by
  intro f k x clock data s hs hk hb hf
  obtain ⟨t, ht, -⟩ := edge_goes (x := x) hb (underWay_of_sound hs)
  obtain ⟨hchain, -⟩ := hs.busy hb
  have hnone : ∀ g ∈ f :: k, sampling g = false := List.forall_mem_cons.mpr ⟨hf, sampling_callers (hk ▸ hchain)⟩
  have hlevels : ∀ g ∈ s.stack, sampling g = true → (otherLevels clock data).KeepsLevels := by
    intro g hg hread
    rw [hnone g (hk ▸ hg)] at hread
    cases hread
  obtain ⟨hpins, he⟩ := (otherLevels clock data).edge_sample hlevels ht
  subst hpins
  exact ⟨t, ht, he⟩

/-- Where a sound HOST reads a line it has released Clock, and where it reads Data, at TX.8 and RB.2, Data too (R131). -/
theorem released_of_sampling {f : Frame} {k : List Frame} {s : State} (hs : Sound s) (hk : s.stack = f :: k)
    (hf : sampling f = true) :
    s.clockDrv = .rel ∧ (f = .transmit .ack ∨ f = .readBit .sample → s.dataDrv = .rel) := by
  have hl := hs.lines
  rw [linesFit, hk] at hl
  cases f with
  | transmit p =>
    cases p with
    | settle | inhibit | start | post => cases hf
    | grant | slotLow | slotHigh => exact ⟨hl.1, by simp⟩
    | ack => exact ⟨hl.1, fun _ => hl.2⟩
  | receive p => exact ⟨hl.1, fun _ => hl.2⟩
  | readBit p => exact ⟨hl.1, fun _ => hl.2.1⟩
  | _ => cases hf

/-- Settles O38: a released line has the DEVICE's level. -/
theorem levelIsTheDevices : Obligations.LevelIsTheDevices := by
  intro f k s hs hk hf
  obtain ⟨hc, hd⟩ := released_of_sampling hs hk hf
  exact ⟨level_clock hc, fun h => level_data (hd h)⟩

end Sys2Proof.Machine

/-! The `Drive` calls of TRANSMIT_BYTE in their order, whatever the DEVICE does (R136 to R143, R242, R250). -/

namespace Sys2Proof.Machine

/-- How many `Drive` calls TRANSMIT_BYTE has made where it stands at `p` with slot counter `i` (R136). -/
def drivesMade (p : TxPos) (i : BitVec 4) : Nat :=
  match p with
  | .settle => 2
  | .inhibit => 3
  | .start => 4
  | .grant => 5
  | .slotLow | .slotHigh => i.toNat + 6
  | .post | .ack => 15

/-- `s`, reached from `s₀` by TRANSMIT_BYTE(v), has made the first `n` of its `Drive` calls; the data bits among them
are in the parity. -/
structure Driven (v : Byte) (s₀ : State) (n : Nat) (s : State) : Prop where
  busy   : s.busy = true
  cfg    : s.cfg = s₀.cfg
  sh     : s.sh = v
  par    : s.par = xorUpTo v (min (n - 5) 8)
  drives : s.drives = ((transmitDrives v).take n).reverse ++ s₀.drives

/-- `s` stands at `p` in TRANSMIT_BYTE(v), started in `s₀`. -/
def Transmitting (v : Byte) (s₀ : State) (p : TxPos) (s : State) : Prop :=
  drivesMade p s.bitidx ≤ 15 ∧ Driven v s₀ (drivesMade p s.bitidx) s

/-- A step of TRANSMIT_BYTE(v) goes on at some position, ends with all its `Drive`s made, or times out before the last. -/
def DrivesInOrder (v : Byte) (s₀ : State) (r : Ran) : Prop :=
  match r with
  | (s, .block fs) => ∃ p, fs = [.transmit p] ∧ Transmitting v s₀ p s
  | (s, .hold) => s.drives = (transmitDrives v).reverse ++ s₀.drives
  | (s, .timeout) => s₀.cfg.timeoutPolicy = .bounded ∧ ∃ n < 16, Driven v s₀ n s
  | _ => False

section drives
variable {v : Byte} {s₀ s : State}

/-- The next `Drive`, whatever it does to the parity that the next position asks for. -/
theorem Driven.next {n : Nat} {l : Line} {d : Drv} {s' : State} (h : Driven v s₀ n s)
    (hd : (transmitDrives v)[n]? = some (l, d)) (hb : s'.busy = s.busy) (hc : s'.cfg = s.cfg) (hsh : s'.sh = s.sh)
    (hp : s'.par = xorUpTo v (min (n + 1 - 5) 8)) (hdr : s'.drives = (l, d) :: s.drives) : Driven v s₀ (n + 1) s' where
  busy := hb.trans h.busy
  cfg := hc.trans h.cfg
  sh := hsh.trans h.sh
  par := hp
  drives := by simp [hdr, h.drives, List.take_add_one, hd]

/-- The next `Drive`, where it is no data bit's and so leaves the parity. -/
theorem Driven.drive {n : Nat} {l : Line} {d : Drv} (h : Driven v s₀ n s) (hd : (transmitDrives v)[n]? = some (l, d))
    (hn : n < 5 ∨ 13 ≤ n) : Driven v s₀ (n + 1) (drive l d s) := by
  have hmin : min (n + 1 - 5) 8 = min (n - 5) 8 := by omega
  have hpar : s.par = xorUpTo v (min (n + 1 - 5) 8) := hmin ▸ h.par
  cases l <;> exact h.next hd rfl rfl rfl hpar rfl

theorem xorUpTo_eight (v : Byte) : xorUpTo v 8 = xorBits v := by simp [xorUpTo, xorBits]

theorem transmitDrives_dataBit (v : Byte) {i : Nat} (hi : i < 8) :
    (transmitDrives v)[i + 5]? = some (.data, bitDrv (v.getLsbD i)) := by
  interval_cases i <;> rfl

/-- Each slot makes one `Drive`, that of the next slot of the frame of `v` (R140 to R142). -/
theorem driveSlot_driven (hi : s.bitidx ≤ 9#4) (h : Driven v s₀ (s.bitidx.toNat + 5) s) :
    Driven v s₀ (s.bitidx.toNat + 6) (driveSlot s) := by
  have hpar := h.par
  unfold driveSlot
  split_ifs with hdata hparity
  · have hlt : s.bitidx.toNat < 8 := hdata
    refine h.next (transmitDrives_dataBit v hlt) rfl rfl rfl ?_ (h.sh ▸ rfl)
    rw [show min (s.bitidx.toNat + 5 - 5) 8 = s.bitidx.toNat by omega] at hpar
    rw [show min (s.bitidx.toNat + 5 + 1 - 5) 8 = s.bitidx.toNat + 1 by omega, xorUpTo, ← hpar, ← h.sh]
    rfl
  · rw [hparity] at h hpar ⊢
    have hodd : (!s.par) = oddParity v := by rw [hpar, oddParity, ← xorUpTo_eight]; rfl
    rw [hodd]
    exact h.drive rfl (.inr (by decide))
  · have hlast : s.bitidx = 9#4 := by bv_omega
    rw [hlast] at h ⊢
    exact h.drive rfl (.inr (by decide))

theorem Transmitting.of_eq {p : TxPos} {s' : State} (h : Transmitting v s₀ p s) (hb : s'.busy = s.busy)
    (hc : s'.cfg = s.cfg) (hsh : s'.sh = s.sh) (hp : s'.par = s.par) (hi : s'.bitidx = s.bitidx)
    (hd : s'.drives = s.drives) : Transmitting v s₀ p s' := by
  obtain ⟨hle, h⟩ := h
  rw [Transmitting, hi]
  exact ⟨hle, hb.trans h.busy, hc.trans h.cfg, hsh.trans h.sh, hp.trans h.par, hd.trans h.drives⟩

theorem goto_inOrder {p : TxPos} (h : Transmitting v s₀ p s) : DrivesInOrder v s₀ (goto (.transmit p) s) :=
  ⟨p, rfl, h⟩

theorem enterWait_inOrder {p : TxPos} (h : Transmitting v s₀ p s) : DrivesInOrder v s₀ (enterWait (.transmit p) s) :=
  goto_inOrder (h.of_eq rfl rfl rfl rfl rfl rfl)

theorem enterPoll_inOrder {p : TxPos} (h : Transmitting v s₀ p s) : DrivesInOrder v s₀ (enterPoll (.transmit p) s) :=
  goto_inOrder (h.of_eq (armPoll_busy s) (armPoll_cfg s) (armPoll_sh s) (armPoll_par s) (armPoll_bitidx s)
    (armPoll_drives s))

theorem waitThen_inOrder {p : TxPos} {n : Time} {k : State → Ran} (h : Transmitting v s₀ p s)
    (hk : DrivesInOrder v s₀ (k s)) : DrivesInOrder v s₀ (waitThen n (.transmit p) k s) := by
  obtain ⟨he, -⟩ | ⟨he, -⟩ := waitThen_cases n (.transmit p) k s <;> rw [he]
  · exact goto_inOrder h
  · exact hk

theorem pollThen_inOrder {p : TxPos} {c : Bool} {k : State → Ran} (h : Transmitting v s₀ p s)
    (hk : DrivesInOrder v s₀ (k s)) : DrivesInOrder v s₀ (pollThen c (.transmit p) k s) := by
  obtain ⟨he, -⟩ | ⟨he, -, hexp⟩ | ⟨he, -⟩ := pollThen_cases c (.transmit p) k s <;> rw [he]
  · exact goto_inOrder h
  · obtain ⟨hle, h⟩ := h
    obtain ⟨hpol, -⟩ := (expired_iff s).mp hexp
    exact ⟨h.cfg ▸ hpol, _, Nat.lt_succ_of_le hle, h⟩
  · exact hk

theorem transmitStart_transmitting (v : Byte) (s : State) :
    ∃ s', transmitStart v (accepted none s) = (s', .block [.transmit .settle]) ∧ Transmitting v s .settle s' :=
  ⟨_, rfl, by simp [drivesMade], rfl, rfl, rfl, rfl, rfl⟩

theorem enterSlot_inOrder {i : BitVec 4} (hi : i ≤ 9#4) (h : Driven v s₀ (i.toNat + 5) s) :
    DrivesInOrder v s₀ (enterSlot i s) := by
  have hidx : (driveSlot (setBitidx i s)).bitidx = i := driveSlot_bitidx _
  have hslot : Driven v s₀ (i.toNat + 5) (setBitidx i s) := ⟨h.busy, h.cfg, h.sh, h.par, h.drives⟩
  apply enterPoll_inOrder
  rw [Transmitting, hidx]
  exact ⟨Nat.add_le_add_right hi 6, driveSlot_driven (s := setBitidx i s) hi hslot⟩

theorem nextSlot_inOrder (h : Transmitting v s₀ .slotHigh s) : DrivesInOrder v s₀ (nextSlot s) := by
  obtain ⟨hle, h⟩ := h
  simp only [drivesMade] at hle h
  unfold nextSlot
  split_ifs with hlt hlast
  · have hsucc : (s.bitidx + 1#4).toNat = s.bitidx.toNat + 1 := by bv_omega
    exact enterSlot_inOrder (by bv_omega) (hsucc ▸ h)
  · rw [hlast] at h
    exact enterWait_inOrder ⟨Nat.le_refl 15, h⟩
  · bv_omega

theorem transmitDone_inOrder (h : Transmitting v s₀ .ack s) : DrivesInOrder v s₀ (transmitDone s) := by
  obtain ⟨-, h⟩ := h
  exact congrArg ((Line.clock, Drv.low) :: ·) h.drives

/-- Each step of TRANSMIT_BYTE makes the next `Drive`s or none. -/
theorem transmitStep_inOrder {p : TxPos} (h : Transmitting v s₀ p s) : DrivesInOrder v s₀ (transmitStep p s) := by
  have hd := h.2
  cases p with
  | settle =>
    rw [transmitStep]
    exact waitThen_inOrder h (enterWait_inOrder ⟨by simp [drivesMade], hd.drive (n := 2) rfl (.inl (by decide))⟩)
  | inhibit =>
    rw [transmitStep]
    exact waitThen_inOrder h (enterWait_inOrder ⟨by simp [drivesMade], hd.drive (n := 3) rfl (.inl (by decide))⟩)
  | start =>
    rw [transmitStep]
    exact waitThen_inOrder h (enterPoll_inOrder ⟨by simp [drivesMade], hd.drive (n := 4) rfl (.inl (by decide))⟩)
  | grant => exact pollThen_inOrder h (enterSlot_inOrder (i := 0#4) (by decide) hd)
  | slotLow => exact pollThen_inOrder h (enterPoll_inOrder h)
  | slotHigh => exact pollThen_inOrder h (nextSlot_inOrder h)
  | post => exact waitThen_inOrder h (enterPoll_inOrder h)
  | ack => exact pollThen_inOrder h (transmitDone_inOrder h)

/-- Where TRANSMIT_BYTE(v), started in `s₀`, has come to: it is done, or busy, or timed out, with its `Drive`s so far. -/
def DriveRecord (v : Byte) (s₀ t : State) : Prop :=
  (t.busy = false ∧ t.drives = (transmitDrives v).reverse ++ s₀.drives) ∨
  ∃ n : Nat, n < 16 ∧
    ((t.busy = true ∧ t.drives = ((transmitDrives v).take n).reverse ++ s₀.drives) ∨
     (t.busy = false ∧ t.err = .timeout ∧ s₀.cfg.timeoutPolicy = .bounded ∧
      t.drives = (.clock, .low) :: (.data, .rel) :: (((transmitDrives v).take n).reverse ++ s₀.drives)))

/-- A run of TRANSMIT_BYTE over samples without a reset, from any position on. -/
theorem run_driveRecord {p : TxPos} {xs : List Sample} {t : State} (hx : ∀ x ∈ xs, x.rst = false)
    (h : Transmitting v s₀ p s) (hs : s.stack = [.transmit p]) (hr : run xs s = .next t) : DriveRecord v s₀ t := by
  induction xs generalizing s p with
  | nil =>
    obtain ⟨hle, h⟩ := h
    cases hr
    exact .inr ⟨_, Nat.lt_succ_of_le hle, .inl ⟨h.busy, h.drives⟩⟩
  | cons x xs ih =>
    obtain ⟨hx, hxs⟩ := List.forall_mem_cons.mp hx
    have hstep : DrivesInOrder v s₀ (frameStep (.transmit p) (sampled x s)) :=
      transmitStep_inOrder (h.of_eq rfl rfl rfl rfl rfl rfl)
    rw [run_cons h.2.busy x hx, hs, resume_cons] at hr
    generalize frameStep (.transmit p) (sampled x s) = r at hstep hr
    obtain ⟨s', fs | _ | _ | _ | _⟩ := r
    case block =>
      obtain ⟨q, rfl, h'⟩ := hstep
      exact ih (s := { s' with stack := [.transmit q] }) hxs (h'.of_eq rfl rfl rfl rfl rfl rfl) rfl hr
    case hold =>
      rw [op_holds] at hr
      cases hr
      exact .inl ⟨rfl, hstep⟩
    case timeout =>
      obtain ⟨hpol, n, hn, h'⟩ := hstep
      rw [conclude_timeout, continueWith_next, run_idle rfl] at hr
      cases hr
      have hhold := congrArg (fun ds => (Line.clock, Drv.low) :: (Line.data, Drv.rel) :: ds) h'.drives
      exact .inr ⟨n, hn, .inr ⟨rfl, rfl, hpol, hhold⟩⟩
    all_goals exact hstep.elim

end drives

/-- Settles O6: the count of `Drive`s made goes with the position, and each step makes the next ones. -/
theorem transmitDriveOrder : Obligations.TransmitDriveOrder := by
  intro v s t hb hx h
  have he : exec (.transmitByte v) s = start none (transmitStart v) s := rfl
  obtain ⟨s', hs', hstart⟩ := transmitStart_transmitting v s
  rw [he, start_idle hb rfl rfl, hs', conclude_block, continueWith_next] at h
  exact run_driveRecord (s := { s' with stack := [.transmit .settle] }) hx (hstart.of_eq rfl rfl rfl rfl rfl rfl) rfl h

end Sys2Proof.Machine

/-! INITIALIZE runs to its end on both outcomes of the self-test (R180 to R187, R241). -/

namespace Sys2Proof.Machine

/-- Settles O27: after a passed BAT the set-up of the mode and the last wait run to `initialized` and `ok`. -/
theorem initializePasses : Obligations.InitializePasses := by
  intro arg a id a2 s xs rest t' hb hin h
  exact initialize_passes arg hb hin h

/-- Settles O28: after a failed BAT the test returns at once, with nothing more sent. -/
theorem initializeFails : Obligations.InitializeFails := by
  intro arg a bat id s xs rest t' hbat hb hin h
  exact initialize_fails arg hbat hb hin h

end Sys2Proof.Machine

/-! The operations built on CMD_TOGGLED run to their ends: the mode commands, the scaling commands and the helper on its
own (R191 to R196, R202). -/

namespace Sys2Proof.Machine

/-- An operation that returns where its CMD_TOGGLED has returned (R195, R196). -/
theorem toggledOnly_completes (code : BitVec 4) {c a0 a a1 : Byte} {f : Frame} {s : State}
    {xs rest : List Sample} {t' : Time} (hf : ∀ s, frameStep f s = return' s) (hb : s.busy = false)
    (hin : s.inputs = xs ++ rest) (h : talkSeg s.cfg (toggledTalk s c a0 a a1) (now s) xs t') :
    ∃ k : Scratch, start (some code) (callThen (toggledStart c) f return') s =
      .next { afterExchange s (toggledTalk s c a0 a a1) rest k with
        resumeLatch := toggles s
        reportingEnabled := toggles s || s.reportingEnabled
        err := .none } := by
  obtain ⟨k, st, -, hrun⟩ := toggled_runs (k := [f]) (s := accepted (some code) s) h rfl
  refine ⟨k, ?_⟩
  rw [start_idle hb hin (callThen_inputs (toggledStart_inputs _ _) fun _ => rfl),
    conclude_callThen (K := return') fun _ => by rw [hf], hrun, latchGuard_eq, resume_cons, hf, return', op_returns]
  rfl

/-- SET_REMOTE_MODE and SET_STREAM_MODE: CMD_TOGGLED, the mode, the settle wait if initialized (R192 to R194). -/
theorem modeChange_completes {code : BitVec 4} {m : Mode} {c a0 a a1 : Byte} {f g : Frame} {s : State}
    {xs rest : List Sample} {t' : Time} (hg : ∀ s, frameStep g s = finishMode m f s)
    (hf : ∀ s, frameStep f s = waitThen s.cfg.tModeSettle f return' s) (hb : s.busy = false)
    (hin : s.inputs = xs ++ rest)
    (h : segSeq (talkSeg s.cfg (toggledTalk s c a0 a a1)) (settleSeg s) (now s) xs t') :
    ∃ k : Scratch, start (some code) (callThen (toggledStart c) g (finishMode m f)) s =
      .next { afterExchange s (toggledTalk s c a0 a a1) rest k with
        mode := m
        resumeLatch := toggles s
        reportingEnabled := toggles s || s.reportingEnabled
        err := .none } := by
  obtain ⟨ys, zs, u, rfl, htalk, hsettle⟩ := h
  let s0 : State := accepted (some code) s
  obtain ⟨k1, st1, e1, hrun1⟩ := toggled_runs (k := [g]) (s := s0) htalk rfl
  obtain ⟨k2, st2, -, hrun2⟩ := finishMode_runs (m := m) (f := f) (k := [])
    (s := setReporting (toggles s0 || s0.reportingEnabled) (reached (toggledTalk s0 c a0 a a1) k1 st1 (latchGuard s0)))
    hsettle e1 rfl hf
  refine ⟨k2, ?_⟩
  rw [start_idle hb hin (callThen_inputs (toggledStart_inputs _ _) fun _ => finishMode_inputs _ _ _),
    conclude_callThen (K := finishMode m f) fun _ => by rw [hg], List.append_assoc, hrun1, resume_cons, hg, hrun2,
    op_finishes, latchGuard_eq]
  rfl

/-- Settles O17: the helper is the whole operation. -/
theorem commandToggledCompletes : Obligations.CommandToggledCompletes := by
  intro c a0 a a1 s xs rest t' hc hb hin h
  obtain ⟨k, st, -, hrun⟩ := toggled_runs (k := []) (s := accepted none s) h rfl
  refine ⟨k, ?_⟩
  have he : exec (.cmdToggled c) s = start none (toggledStart c) s := execCmdToggled_eq_start hc
  rw [he, start_idle hb hin (toggledStart_inputs _ _), hrun, op_finishes, latchGuard_eq]
  rfl

/-- Settles O18: a mode change by 0xF0. -/
theorem setRemoteModeCompletes : Obligations.SetRemoteModeCompletes := fun _ _ _ _ _ _ _ _ hb hin h =>
  modeChange_completes (fun _ => rfl) (fun _ => rfl) hb hin h

/-- Settles O19: a mode change by 0xEA. -/
theorem setStreamModeCompletes : Obligations.SetStreamModeCompletes := fun _ _ _ _ _ _ _ _ hb hin h =>
  modeChange_completes (fun _ => rfl) (fun _ => rfl) hb hin h

/-- Settles O20: both scaling rows return with their CMD_TOGGLED. -/
theorem scalingCompletes : Obligations.ScalingCompletes := by
  intro arg a0 a a1 c i s xs rest t' hi hb hin h
  simp only [List.mem_cons, List.not_mem_nil, or_false, Prod.mk.injEq] at hi
  obtain ⟨rfl, rfl⟩ | ⟨rfl, rfl⟩ := hi
  · exact toggledOnly_completes 0x3#4 (f := .setScaling21) (fun _ => rfl) hb hin h
  · exact toggledOnly_completes 0x4#4 (f := .setScaling11) (fun _ => rfl) hb hin h

end Sys2Proof.Machine

/-! The reporting commands and the commands with an argument run to their ends. The two directions of the reporting
toggle are one argument: what ENABLE_DATA_REPORTING is to SET_RESOLUTION, DISABLE_DATA_REPORTING is to SET_SAMPLE_RATE,
and the other way round (R197 to R200, R202). -/

namespace Sys2Proof.Machine

/-- ENABLE_DATA_REPORTING or DISABLE_DATA_REPORTING: the one that makes `reporting_enabled` hold `b` (R199, R200). -/
def reportingStart (b : Bool) (s : State) : Ran := if b then enableStart s else disableStart s

/-- The command byte that it sends. -/
def reportingByte (b : Bool) : Byte := if b then 0xF4#8 else 0xF5#8

theorem reportingStart_done {b : Bool} {s : State} (h : s.reportingEnabled = b) : reportingStart b s = return' s := by
  cases b <;> simp [reportingStart, enableStart, disableStart, h]

theorem reporting_runs {b : Bool} {s : State} {k : List Frame} {t' : Time} {xs : List Sample} {a : Byte}
    (h : talkSeg s.cfg (command (reportingByte b) a) (now s) xs t') (hb : s.busy = true)
    (hr : s.reportingEnabled = !b) :
    ∃ c st, c.pins.nowUs = t' ∧ ∀ rest, continueWith (xs ++ rest) (conclude k (reportingStart b s)) =
      continueWith rest (resume k (setReporting b (reached (command (reportingByte b) a) c st s))) := by
  cases b with
  | false => exact disable_runs h hb hr
  | true => exact enable_runs h hb hr

/-- The first toggle of an operation with an argument, then `K` (R191, R197, R198). -/
def firstToggle (b : Bool) (f : Frame) (K : State → Ran) (s : State) : Ran :=
  if s.resumeLatch then callThen (reportingStart b) f K s else K s

/-- SET_RESOLUTION and SET_SAMPLE_RATE: the argument latch, the guard, the first toggle, and CMD(c) begins. -/
def argStart (b : Bool) (c : Byte) (F : ArgPos → Frame) (v : Byte) (s : State) : Ran :=
  firstToggle b (F .afterFirstToggle) (callTransmit c (F .afterCommand)) (latchGuard (latchArg v s))

/-- The rest of both operations, from the return of the first toggle on. -/
def argStep (b : Bool) (c : Byte) (F : ArgPos → Frame) (p : ArgPos) (s : State) : Ran :=
  match p with
  | .afterFirstToggle => callTransmit c (F .afterCommand) s
  | .afterCommand => callReceive (F .afterCommandAck) s
  | .afterCommandAck => callTransmit s.arg (F .afterArgument) s
  | .afterArgument => callReceive (F .afterArgumentAck) s
  | .afterArgumentAck =>
    if s.resumeLatch then callThen (reportingStart (!b)) (F .afterLastToggle) return' s else return' s
  | .afterLastToggle => return' s

theorem frameStep_setResolution (p : ArgPos) (s : State) :
    frameStep (.setResolution p) s = argStep true 0xE8#8 .setResolution p s := by cases p <;> rfl

theorem frameStep_setSampleRate (p : ArgPos) (s : State) :
    frameStep (.setSampleRate p) s = argStep false 0xF3#8 .setSampleRate p s := by cases p <;> rfl

theorem setResolutionStart_eq (r : Byte) (s : State) :
    setResolutionStart r s = argStart true 0xE8#8 .setResolution r s := rfl

theorem setSampleRateStart_eq (n : Byte) (s : State) :
    setSampleRateStart n s = argStart false 0xF3#8 .setSampleRate n s := rfl

/-- The first toggle's exchange, where the guard `g` holds and reporting is not as the toggle makes it. -/
def firstTalk (b g : Bool) (s : State) (a : Byte) : List WireEvent :=
  if g && (s.reportingEnabled != b) then command (reportingByte b) a else []

/-- The last toggle's exchange, where the guard `g` holds. -/
def lastTalk (b g : Bool) (a : Byte) : List WireEvent := if g then command (reportingByte (!b)) a else []

/-- All exchanges of an operation with the argument `v` (R197, R198, R202). -/
def argTalk (b : Bool) (c : Byte) (s : State) (v a0 a1 a2 a3 : Byte) : List WireEvent :=
  firstTalk b (toggles s) s a0 ++ ((command c a1 ++ command v a2) ++ lastTalk b (toggles s) a3)

theorem resolutionTalk_eq (s : State) (r a0 a1 a2 a3 : Byte) :
    resolutionTalk s r a0 a1 a2 a3 = argTalk true 0xE8#8 s r a0 a1 a2 a3 := by
  simp [resolutionTalk, argTalk, firstTalk, lastTalk, reportingByte]

theorem sampleRateTalk_eq (s : State) (n a0 a1 a2 a3 : Byte) :
    sampleRateTalk s n a0 a1 a2 a3 = argTalk false 0xF3#8 s n a0 a1 a2 a3 := by
  simp [sampleRateTalk, argTalk, suspension, resumption, firstTalk, lastTalk, reportingByte]

/-- `t` is `s` with the exchanges `es` done, as every later exchange shows it. Without exchanges it is `s` itself, whose
lines need not be held yet. -/
def Follows (es : List WireEvent) (s t : State) : Prop :=
  ∀ fs c st, reached fs c st t = reached (es ++ fs) c st s

theorem follows_nil (s : State) : Follows [] s s := fun _ _ _ => rfl

theorem follows_reached (es : List WireEvent) (c : Scratch) (st : List Frame) (s : State) :
    Follows es s (reached es c st s) := fun _ _ _ => reached_reached ..

/-- A register that no exchange writes is the same after the exchanges. -/
theorem Follows.read {α : Type} {es : List WireEvent} {s t : State} (h : Follows es s t) (r : State → α)
    (hr : ∀ fs c st u, r (reached fs c st u) = r u) : r t = r s := by
  have h' := congrArg r (h [] (scratchOf s) [])
  rwa [hr, hr] at h'

/-- The first toggle: reporting is as it makes it where the guard holds, and the operation goes on with CMD(c). -/
theorem firstToggle_runs {b g : Bool} {f : Frame} {K : State → Ran} {s : State} {k : List Frame} {t' : Time}
    {xs : List Sample} {a : Byte} (h : talkSeg s.cfg (firstTalk b g s a) (now s) xs t') (hb : s.busy = true)
    (hg : s.resumeLatch = g) (hf : ∀ s, frameStep f s = K s) :
    ∃ t, now t = t' ∧ Follows (firstTalk b g s a) (setReporting (if g then b else s.reportingEnabled) s) t ∧
      ∀ rest, continueWith (xs ++ rest) (conclude k (firstToggle b f K s)) = continueWith rest (conclude k (K t)) := by
  have hcall : g = true → conclude k (firstToggle b f K s) = conclude (f :: k) (reportingStart b s) := fun hg' => by
    rw [firstToggle, if_pos (hg.trans hg'), conclude_callThen fun _ => by rw [hf]]
  cases g with
  | false =>
    obtain ⟨rfl, rfl⟩ := talkSeg_nil h
    refine ⟨s, rfl, follows_nil s, fun rest => ?_⟩
    rw [firstToggle, if_neg (by simp [hg])]
    rfl
  | true =>
    by_cases hr : s.reportingEnabled = b
    · have htalk : firstTalk b true s a = [] := by simp [firstTalk, hr]
      rw [htalk] at h ⊢
      obtain ⟨rfl, rfl⟩ := talkSeg_nil h
      refine ⟨s, rfl, ?_, fun rest => ?_⟩
      · rw [if_pos rfl, setReporting_same hr]
        exact follows_nil s
      · rw [hcall rfl, reportingStart_done hr, return', conclude_ret, resume_cons, hf]
        rfl
    · have htalk : firstTalk b true s a = command (reportingByte b) a := by simp [firstTalk, hr]
      rw [htalk] at h ⊢
      obtain ⟨c, st, e, hrun⟩ := reporting_runs (k := f :: k) h hb (Bool.eq_not_iff.mpr hr)
      refine ⟨setReporting b (reached (command (reportingByte b) a) c st s), e,
        follows_reached _ c st (setReporting b s), fun rest => ?_⟩
      rw [hcall rfl, hrun, resume_cons, hf]

section argument
variable {b : Bool} {c : Byte} {F : ArgPos → Frame} (hF : ∀ p s, frameStep (F p) s = argStep b c F p s)
include hF

/-- CMD(c) and CMD(arg), up to the last toggle (R190, R197, R198). -/
theorem commandWithArg_runs {s : State} {k : List Frame} {t' : Time} {xs : List Sample} {a1 a2 : Byte}
    (h : talkSeg s.cfg (command c a1 ++ command s.arg a2) (now s) xs t') (hb : s.busy = true) :
    ∃ d st, d.pins.nowUs = t' ∧ ∀ rest, continueWith (xs ++ rest) (conclude k (callTransmit c (F .afterCommand) s)) =
      continueWith rest (conclude k (argStep b c F .afterArgumentAck
        (reached (command c a1 ++ command s.arg a2) d st s))) := by
  obtain ⟨ys, zs, u, rfl, hcmd, harg⟩ := talkSeg_append.mp h
  obtain ⟨d1, st1, e1, -, hrun1⟩ := command_runs (f := F .afterCommand) (g := F .afterCommandAck) (k := k) hcmd hb
    (hF .afterCommand)
  obtain ⟨d2, st2, e2, -, hrun2⟩ := command_runs (s := reached (command c a1) d1 st1 s) (f := F .afterArgument)
    (g := F .afterArgumentAck) (k := k) (by rw [now_reached e1]; exact harg) hb (hF .afterArgument)
  refine ⟨d2, st2, e2, fun rest => ?_⟩
  rw [conclude_callTransmit, List.append_assoc, hrun1, hF, argStep, conclude_callTransmit]
  refine (hrun2 rest).trans ?_
  rw [hF]
  exact congrArg (fun t => continueWith rest (conclude k (argStep b c F .afterArgumentAck t))) (reached_reached ..)

/-- The last toggle, where the guard's toggle has gone the other way before: it always sends its command. -/
theorem lastToggle_runs {g : Bool} {s : State} {k : List Frame} {t' : Time} {xs : List Sample} {a : Byte}
    (h : talkSeg s.cfg (lastTalk b g a) (now s) xs t') (hb : s.busy = true) (hg : s.resumeLatch = g)
    (hr : g = true → s.reportingEnabled = b) (hc : s.clockDrv = .low) (hd : s.dataDrv = .rel) :
    ∃ d st, d.pins.nowUs = t' ∧ ∀ rest, continueWith (xs ++ rest) (conclude k (argStep b c F .afterArgumentAck s)) =
      continueWith rest (resume k (setReporting (if g then !b else s.reportingEnabled)
        (reached (lastTalk b g a) d st s))) := by
  cases g with
  | false =>
    obtain ⟨rfl, rfl⟩ := talkSeg_nil h
    refine ⟨scratchOf s, s.stack, rfl, fun rest => ?_⟩
    rw [argStep, if_neg (by simp [hg]), return', conclude_ret]
    exact congrArg (fun t => continueWith rest (resume k t)) (reached_nil hc hd).symm
  | true =>
    obtain ⟨d, st, e, hrun⟩ := reporting_runs (b := !b) (k := F .afterLastToggle :: k) h hb (by simpa using hr rfl)
    refine ⟨d, st, e, fun rest => ?_⟩
    rw [argStep, if_pos hg, conclude_callThen (K := return') fun _ => by rw [hF, argStep], hrun, resume_cons, hF]
    rfl

/-- An operation with an argument runs to its end: both toggles where the guard holds, the argument sent as it was
handed over (R197, R198, R202). -/
theorem argStart_completes (code : BitVec 4) {v a0 a1 a2 a3 : Byte} {s : State} {xs : List Sample} {t' : Time}
    (h : talkSeg s.cfg (argTalk b c s v a0 a1 a2 a3) (now s) xs t') (rest : List Sample) :
    ∃ k : Scratch, continueWith (xs ++ rest) (conclude [] (argStart b c F v (accepted (some code) s))) =
      .next { afterExchange s (argTalk b c s v a0 a1 a2 a3) rest k with
        arg := v
        resumeLatch := toggles s
        reportingEnabled := if toggles s then !b else s.reportingEnabled
        err := .none } := by
  let s0 : State := latchGuard (latchArg v (accepted (some code) s))
  have hl : s0.resumeLatch = toggles s := guardG_eq _
  obtain ⟨xs, _, u, rfl, hfirst, hrest⟩ := talkSeg_append.mp h
  obtain ⟨ys, zs, w, rfl, hcmd, hlast⟩ := talkSeg_append.mp hrest
  obtain ⟨s1, e1, hs1, hrun1⟩ := firstToggle_runs (s := s0) (k := []) (f := F .afterFirstToggle)
    (K := callTransmit c (F .afterCommand)) hfirst rfl hl (hF .afterFirstToggle)
  have harg : s1.arg = v := hs1.read State.arg fun _ _ _ _ => rfl
  have hcfg : s1.cfg = s.cfg := hs1.read State.cfg fun _ _ _ _ => rfl
  have hbusy : s1.busy = true := hs1.read State.busy fun _ _ _ _ => rfl
  have hlatch : s1.resumeLatch = toggles s := (hs1.read State.resumeLatch fun _ _ _ _ => rfl).trans hl
  have hrep : s1.reportingEnabled = if toggles s then b else s.reportingEnabled :=
    hs1.read State.reportingEnabled fun _ _ _ _ => rfl
  obtain ⟨d2, st2, e2, hrun2⟩ := commandWithArg_runs hF (s := s1) (k := [])
    (by rw [e1, hcfg, harg]; exact hcmd) hbusy
  let s2 : State := reached (command c a1 ++ command s1.arg a2) d2 st2 s1
  obtain ⟨d3, st3, -, hrun3⟩ := lastToggle_runs hF (s := s2) (k := [])
    (by rw [show now s2 = w from e2, show s2.cfg = s.cfg from hcfg]; exact hlast) hbusy hlatch
    (fun hg => hrep.trans (if_pos hg)) rfl rfl
  have hlastRep : (if toggles s then !b else s2.reportingEnabled) = if toggles s then !b else s.reportingEnabled := by
    show (if toggles s then !b else s1.reportingEnabled) = _
    rw [hrep]
    split <;> rfl
  refine ⟨d3, ?_⟩
  rw [List.append_assoc, List.append_assoc, argStart, hrun1, hrun2]
  refine (hrun3 rest).trans ?_
  rw [op_finishes, hlastRep, reached_reached, hs1, harg, show s0 = latchGuard _ from rfl, latchGuard_eq]
  rfl

end argument

/-- Settles O21: SET_RESOLUTION enables first and disables last. -/
theorem setResolutionCompletes : Obligations.SetResolutionCompletes := by
  intro r a0 a1 a2 a3 s xs rest t' hb hin h
  rw [resolutionTalk_eq] at h ⊢
  obtain ⟨k, hk⟩ := argStart_completes frameStep_setResolution 0x5#4 h rest
  have hrep : (if toggles s then !true else s.reportingEnabled) = (!toggles s && s.reportingEnabled) := by
    cases toggles s <;> rfl
  rw [hrep] at hk
  refine ⟨k, Eq.trans ?_ hk⟩
  rw [← setResolutionStart_eq]
  exact start_idle hb hin (setResolutionStart_inputs _ r)

/-- Settles O22: SET_SAMPLE_RATE disables first and enables last. -/
theorem setSampleRateCompletes : Obligations.SetSampleRateCompletes := by
  intro n a0 a1 a2 a3 s xs rest t' hb hin h
  rw [sampleRateTalk_eq] at h ⊢
  obtain ⟨k, hk⟩ := argStart_completes frameStep_setSampleRate 0x6#4 h rest
  have hrep : (if toggles s then !false else s.reportingEnabled) = (toggles s || s.reportingEnabled) := by
    cases toggles s <;> rfl
  rw [hrep] at hk
  refine ⟨k, Eq.trans ?_ hk⟩
  rw [← setSampleRateStart_eq]
  exact start_idle hb hin (setSampleRateStart_inputs _ n)

/-- ENABLE_ and DISABLE_DATA_REPORTING where reporting is as they make it: nothing but `err` is written (R199, R200; log
entry 20). -/
theorem reporting_idles {b : Bool} {code : BitVec 4} {s : State} (hb : s.busy = false)
    (hr : s.reportingEnabled = b) :
    start (some code) (reportingStart b) s = .next { idleWith s.inputs s with err := .none } := by
  have hdone : reportingStart b (accepted (some code) s) = return' (accepted (some code) s) := reportingStart_done hr
  rw [start_idle hb rfl (by rw [hdone]; rfl), hdone, return', op_returns]
  rfl

/-- ENABLE_ and DISABLE_DATA_REPORTING where it is not: the command, its ack, the flag (R199, R200). -/
theorem reporting_completes {b : Bool} {code : BitVec 4} {a : Byte} {s : State} {xs rest : List Sample} {t' : Time}
    (hb : s.busy = false) (hr : s.reportingEnabled = !b) (hin : s.inputs = xs ++ rest)
    (h : talkSeg s.cfg (command (reportingByte b) a) (now s) xs t') :
    ∃ k : Scratch, start (some code) (reportingStart b) s =
      .next { afterExchange s (command (reportingByte b) a) rest k with reportingEnabled := b, err := .none } := by
  have hinputs : ∀ u, (reportingStart b u).1.inputs = u.inputs := by
    cases b
    · exact disableStart_inputs
    · exact enableStart_inputs
  obtain ⟨k, st, -, hrun⟩ := reporting_runs (s := accepted (some code) s) (k := []) h rfl hr
  refine ⟨k, ?_⟩
  rw [start_idle hb hin (hinputs _), hrun, op_finishes]
  rfl

/-- Settles O23: both cases of the toggle towards 1. -/
theorem enableDataReportingCompletes : Obligations.EnableDataReportingCompletes := fun _ _ _ _ _ _ hb =>
  ⟨reporting_idles (b := true) hb, reporting_completes (b := true) hb⟩

/-- Settles O24: both cases of the toggle towards 0. -/
theorem disableDataReportingCompletes : Obligations.DisableDataReportingCompletes := fun _ _ _ _ _ _ hb =>
  ⟨reporting_idles (b := false) hb, reporting_completes (b := false) hb⟩

end Sys2Proof.Machine

/-! The mode as a two-state machine (R201). `M` says which modes the machine may come to; what a step writes of the mode,
and what the operations that it leaves under way will write, is among them. -/

namespace Sys2Proof.Machine

/-- The mode that the operation at `f` has still to write is one of `M`. INITIALIZE writes none of its own: it calls
SET_REMOTE_MODE, in Remote mode only (R186). -/
def writesWithin (M : Mode → Prop) (f : Frame) : Prop :=
  match f with
  | .setRemoteMode .afterHelper => M .remote
  | .setStreamMode .afterHelper => M .stream
  | _ => True

/-- A step comes to a mode of `M`, and so will what it leaves under way. -/
def StaysWithin (M : Mode → Prop) (r : Ran) : Prop :=
  M r.1.mode ∧ ∀ fs, r.2 = .block fs → ∀ f ∈ fs, writesWithin M f

theorem steady_mode (M : Mode → Prop) : Steady (fun s => M s.mode) := fun _ _ h hs =>
  (congrArg (fun u => M u.mode) h).mpr hs

/-- The first step of an instruction whose updates respect `Q` keeps it, and so will the operations that it leaves under
way. -/
theorem Begins.keeps_of_harmless {Q : State → Prop} {s u : State} {i : Instr} {code : Option (BitVec 4)}
    {op : State → Ran} (hb : Begins s i code op) (hst : Steady Q) (hi : InstrHarmless Q i) (hu : Q u) :
    Keeps Q (op u) := by
  have hm (h : writesMode i = true) (m : Mode) : Closed Q (setMode m) := hi (.mode m) h
  have hr (h : writesReporting i = true) : ReportingClosed Q := fun b => hi (.reporting b) h
  have hl : writesLatch i = true → Closed Q latchGuard := hi .latch
  have hp (h : writesStatus i = true) (hx : writesDx i = true) (hy : writesDy i = true) (p : ReportPos) :
      Harmless Q (.report p) := ⟨hi .status h, hi .dx hx, hi .dy hy⟩
  cases hb with
  | initializeLink =>
    exact initStart_keeps hst (fun _ => ⟨hi .bat rfl, hi .fail rfl, hi .pass rfl, hm rfl, hl rfl, hr rfl⟩) hu
  | setRemoteMode => exact setRemoteModeStart_keeps hst ⟨hm rfl, hl rfl, hr rfl⟩ hu
  | setStreamMode => exact setStreamModeStart_keeps hst ⟨hm rfl, hl rfl, hr rfl⟩ hu
  | setScaling21 => exact setScaling21Start_keeps hst ⟨hl rfl, hr rfl⟩ hu
  | setScaling11 => exact setScaling11Start_keeps hst ⟨hl rfl, hr rfl⟩ hu
  | setResolution r => exact setResolutionStart_keeps hst (hr rfl) r (hi (.arg r) rfl) (hl rfl) hu
  | setSampleRate n => exact setSampleRateStart_keeps hst (hr rfl) n (hi (.arg n) rfl) (hl rfl) hu
  | enableDataReporting => exact enableStart_keeps hst (hr rfl) hu
  | disableDataReporting => exact disableStart_keeps hst (hr rfl) hu
  | report => exact reportStart_keeps hst (hp rfl rfl rfl) hu
  | wireReset | wireSetRemoteMode | wireSetStreamMode | wireSetScaling21 | wireSetScaling11
  | wireEnableDataReporting | wireDisableDataReporting | wireReadData | cmd => exact cmdStart_keeps hst _ hu
  | wireSetResolution v | wireSetSampleRate v => exact cmdThenArgStart_keeps hst _ v hu
  | respBatPass => exact batResponseStart_keeps hst (hi .bat rfl) hu
  | respAck | respDeviceId | frameD2H | receiveByte => exact receiveStart_keeps hst hu
  | frameH2D v | transmitByte v => exact transmitStart_keeps hst v hu
  | movementReport => exact reportRead_keeps hst (hp rfl rfl rfl) hu
  | readBit => exact readBitStart_keeps hst hu
  | decodeX => exact decodeStart_keeps hst .x (hi .dx rfl) hu
  | decodeY => exact decodeStart_keeps hst .y (hi .dy rfl) hu
  | cmdToggled c => exact toggledStart_keeps hst ⟨hl rfl, hr rfl⟩ c hu

section within
variable {M : Mode → Prop} {s t : State} {f : Frame} {k callee : State → Ran}

theorem writesWithin_of_harmless (hs : M s.mode) (h : Harmless (fun s => M s.mode) f) : writesWithin M f := by
  unfold writesWithin
  split
  · exact h.1 .remote s hs
  · exact h.1 .stream s hs
  · trivial

theorem staysWithin_of_keeps {r : Ran} (h : Keeps (fun s => M s.mode) r) : StaysWithin M r :=
  ⟨h.1, fun fs hfs f hf => writesWithin_of_harmless h.1 (h.2 fs hfs f hf)⟩

/-! The position combinators. -/

theorem goto_within (hf : writesWithin M f) (h : M s.mode) : StaysWithin M (goto f s) :=
  ⟨h, by rintro _ ⟨⟩; simpa using hf⟩

theorem return'_within (h : M s.mode) : StaysWithin M (return' s) := ⟨h, by rintro _ ⟨⟩⟩

theorem waitThen_within {n : Time} (hf : writesWithin M f) (h : M s.mode) (hk : StaysWithin M (k s)) :
    StaysWithin M (waitThen n f k s) := by
  obtain ⟨e, -⟩ | ⟨e, -⟩ := waitThen_cases n f k s <;> rw [e]
  · exact goto_within hf h
  · exact hk

theorem callThen_within (hf : writesWithin M f) (hc : StaysWithin M (callee s))
    (hk : ∀ s, M s.mode → StaysWithin M (k s)) : StaysWithin M (callThen callee f k s) := by
  unfold callThen
  generalize callee s = r at hc
  obtain ⟨s', fs | _ | _ | _ | _⟩ := r <;> obtain ⟨hs, hfs⟩ := hc
  case block =>
    refine ⟨hs, ?_⟩
    rintro _ ⟨⟩
    exact List.forall_mem_append.mpr ⟨hfs fs rfl, by simpa using hf⟩
  case ret => exact hk s' hs
  case hold => exact goto_within hf hs
  all_goals exact ⟨hs, by rintro _ ⟨⟩⟩

/-! The operations that write the mode, and INITIALIZE (R186, R193, R194). -/

theorem toggleClosed_mode : ToggleClosed (fun s => M s.mode) := ⟨fun _ h => h, fun _ _ h => h⟩

theorem finishMode_within {m : Mode} (hm : M m) (hf : writesWithin M f) : StaysWithin M (finishMode m f s) := by
  unfold finishMode
  dsimp only
  split
  · exact goto_within hf hm
  · exact return'_within hm

theorem modeStart_within {m : Mode} {c : Byte} {g : Frame} (hm : M m) (hg : writesWithin M g) (hf : writesWithin M f)
    (h : M s.mode) : StaysWithin M (callThen (toggledStart c) g (finishMode m f) s) :=
  callThen_within hg (staysWithin_of_keeps (toggledStart_keeps (steady_mode M) toggleClosed_mode c h))
    fun _ _ => finishMode_within hm hf

theorem initFinal_within (h : M s.mode) : StaysWithin M (initFinal s) := goto_within trivial h

theorem initSetUp_within (h : M s.mode) : StaysWithin M (initSetUp s) := by
  unfold initSetUp
  split
  next hm =>
    have hr : M .remote := hm ▸ h
    exact callThen_within trivial (modeStart_within hr hr trivial h) fun _ => initFinal_within
  next =>
    exact callThen_within trivial
      (staysWithin_of_keeps (enableStart_keeps (steady_mode M) toggleClosed_mode.2 h)) fun _ => initFinal_within

theorem initTest_within (h : M s.mode) : StaysWithin M (initTest s) := by
  unfold initTest
  split
  · exact initSetUp_within h
  · exact return'_within h

theorem callReceive_within (hf : writesWithin M f) (h : M s.mode) : StaysWithin M (callReceive f s) :=
  callThen_within hf (staysWithin_of_keeps (receiveStart_keeps (steady_mode M) h)) fun _ => return'_within

theorem initStep_within (p : InitPos) (h : M s.mode) : StaysWithin M (initStep p s) := by
  cases p with
  | powerup =>
    exact waitThen_within trivial h (callThen_within trivial
      (staysWithin_of_keeps (transmitStart_keeps (steady_mode M) _ h)) fun _ => return'_within)
  | afterReset | afterAck => exact callReceive_within trivial h
  | afterBat => exact callReceive_within (s := keepBat s) trivial h
  | afterId => exact goto_within trivial h
  | postBat => exact waitThen_within trivial h (initTest_within h)
  | afterSetUp => exact initFinal_within h
  | final => exact waitThen_within trivial h (return'_within h)

theorem frameStep_within (hf : writesWithin M f) (h : M s.mode) : StaysWithin M (frameStep f s) := by
  have hkeeps (hh : Harmless (fun s => M s.mode) f) : StaysWithin M (frameStep f s) :=
    staysWithin_of_keeps (frameStep_keeps (steady_mode M) hh h)
  cases f with
  | initLink p => exact initStep_within p h
  | setRemoteMode p | setStreamMode p =>
    cases p with
    | afterHelper => exact finishMode_within hf trivial
    | settle => exact waitThen_within trivial h (return'_within h)
  | setScaling21 | setScaling11 | toggled => exact hkeeps toggleClosed_mode
  | setResolution | setSampleRate | enableReporting | disableReporting => exact hkeeps toggleClosed_mode.2
  | report => exact hkeeps ⟨fun _ h => h, fun _ h => h, fun _ h => h⟩
  | decode a => exact hkeeps (by cases a <;> exact fun _ h => h)
  | batResponse => exact hkeeps fun _ h => h
  | transmit | receive | readBit | cmd | cmdThenArg => exact hkeeps trivial

/-- The mode is one of `M`, and the frames that go on will write no other. -/
def Within (M : Mode → Prop) (s : State) (k : List Frame) : Prop := M s.mode ∧ ∀ f ∈ k, writesWithin M f

theorem onward_of_within {k : List Frame} {r : Ran} (hk : ∀ f ∈ k, writesWithin M f) (h : StaysWithin M r) :
    Onward (Within M) (fun s => M s.mode) k r := by
  obtain ⟨s, fs | _ | _ | _ | _⟩ := r
  · exact ⟨h.1, List.forall_mem_append.mpr ⟨h.2 fs rfl, hk⟩⟩
  · exact ⟨h.1, hk⟩
  · exact ⟨h.1, hk⟩
  · exact h.1
  · trivial

theorem carries_within : Carries (Within M) (fun s => M s.mode) where
  step h := by
    obtain ⟨hs, hk⟩ := h
    obtain ⟨hf, hk⟩ := List.forall_mem_cons.mp hk
    exact onward_of_within hk (frameStep_within hf hs)
  sampled _ h := h
  stacked _ h := h
  ends h := h.1
  known h := h.1
  queued _ h := h

/-- The mode that an instruction sets is one of `M` (R193, R194). -/
def setsWithin (M : Mode → Prop) (i : Instr) : Prop :=
  match i with
  | .setRemoteMode _ => M .remote
  | .setStreamMode _ => M .stream
  | _ => True

theorem instrHarmless_modes {i : Instr} (hw : writesMode i = false) : InstrHarmless (fun s => M s.mode) i := by
  intro u hu
  cases u with
  | mode => simp [makes, hw] at hu
  | _ => exact fun _ h => h

/-- The first step of an instruction leaves the mode alone, and under way only what `M` admits. -/
theorem Begins.staysWithin {i : Instr} {code : Option (BitVec 4)} {op : State → Ran} (hb : Begins s i code op)
    (hi : setsWithin M i) (h : M t.mode) : StaysWithin M (op (accepted code t)) := by
  have hu : M (accepted code t).mode := h
  have hkeeps (hw : writesMode i = false) : StaysWithin M (op (accepted code t)) :=
    staysWithin_of_keeps (hb.keeps_of_harmless (steady_mode M) (instrHarmless_modes hw) hu)
  cases hb with
  | initializeLink => exact goto_within trivial hu
  | setRemoteMode | setStreamMode => exact modeStart_within hi hi trivial hu
  | _ => exact hkeeps rfl

/-- An instruction comes to a mode of `M`, if what a reset among the queued samples sets is one. -/
theorem exec_within {i : Instr} (hi : setsWithin M i) (hx : ∀ x ∈ s.inputs, x.rst = true → M x.cfgMode)
    (hs : M s.mode) (h : exec i s = .next t) : M t.mode :=
  exec_carries carries_within (fun x hmem hr _ => hx x hmem hr) hs hs
    (fun _ _ hb => onward_of_within (by simp) (hb.staysWithin hi hs)) h

theorem execWord_within {w : PortWord} (hi : ∀ i, selected w = some i → setsWithin M i)
    (hx : ∀ x ∈ s.inputs, x.rst = true → M x.cfgMode) (hs : M s.mode) (h : execWord w s = .next t) : M t.mode := by
  unfold execWord at h
  cases hd : decode w with
  | instr i =>
    rw [hd] at h
    exact exec_within (hi i (by rw [selected, hd])) hx hs h
  | reject r => simp [hd] at h

theorem mem_samples_of_mem_inputs {x : Sample} (h : x ∈ s.inputs) : x ∈ (nextSample s).1 :: (nextSample s).2 := by
  cases hin : s.inputs with
  | nil => simp [hin] at h
  | cons y ys => rwa [nextSample_cons hin, ← hin]

/-- A step comes to a mode of `M`, if `M` holds of the mode before it, of what a reset sets, and of what the operation
that is running or that the step starts has still to write. -/
theorem step_within (hs : M s.mode) (hx : ∀ x ∈ (nextSample s).1 :: (nextSample s).2, x.rst = true → M x.cfgMode)
    (hk : s.busy = true → ∀ f ∈ s.stack, writesWithin M f) (hi : ∀ i, started s = some i → setsWithin M i)
    (h : step s = .next t) : M t.mode := by
  obtain ⟨hxfirst, hxrest⟩ := List.forall_mem_cons.mp hx
  obtain ⟨hb, he⟩ | ⟨hb, w, hsel, he⟩ | ⟨hb, hsel, hr, he⟩ | ⟨hb, hsel, hr, hv, he⟩ | ⟨hb, hsel, hr, hv, he⟩ :=
    step_cases s <;> rw [he] at h
  · obtain ⟨hr, he⟩ | ⟨-, he⟩ := edge_cases (nextSample s).1 { s with inputs := (nextSample s).2 } <;> rw [he] at h
    · cases h
      exact hxfirst hr
    · obtain h | ⟨-, h⟩ := resume_carries carries_within
        (s := sampled (nextSample s).1 { s with inputs := (nextSample s).2 }) ⟨hs, hk hb⟩ h
      · exact h.1
      · exact h
  · have hw : started s = selected w := by simp [started, hb, hsel]
    exact execWord_within (s := { s with sel := none }) (fun i h => hi i (hw.trans h))
      (fun x hmem => hx x (mem_samples_of_mem_inputs hmem)) hs h
  · cases h
    exact hxfirst hr
  · have hw : started s = selected ⟨.op12, (idleSampled s).pins.op.setWidth 24⟩ := by
      have hr : (nextSample s).1.rst = false := hr
      have hv : (nextSample s).1.opValid = true := hv
      simp only [started, hb, hsel, hr, presented, hv]
      rfl
    exact execWord_within (s := idleSampled s) (fun i h => hi i (hw.trans h)) hxrest hs h
  · cases h
    exact hs

end within

/-- The modes of R201's transitions from `s`: as it was, reset, SET_REMOTE_MODE, SET_STREAM_MODE. -/
def TransitionTarget (s : State) (m : Mode) : Prop :=
  m = s.mode ∨
  (∃ x ∈ (nextSample s).1 :: (nextSample s).2, x.rst = true ∧ m = x.cfgMode) ∨
  (m = .remote ∧ ((s.busy = true ∧ .setRemoteMode .afterHelper ∈ s.stack) ∨
    ∃ arg, started s = some (.setRemoteMode arg))) ∨
  (m = .stream ∧ ((s.busy = true ∧ .setStreamMode .afterHelper ∈ s.stack) ∨
    ∃ arg, started s = some (.setStreamMode arg)))

/-- Settles O53: every step comes to a mode that one of the transitions gives. -/
theorem modeTransitions : Obligations.ModeTransitions := by
  intro s t h hne
  have hstack : s.busy = true → ∀ f ∈ s.stack, writesWithin (TransitionTarget s) f := by
    intro hb f hf
    unfold writesWithin
    split
    · exact .inr (.inr (.inl ⟨rfl, .inl ⟨hb, hf⟩⟩))
    · exact .inr (.inr (.inr ⟨rfl, .inl ⟨hb, hf⟩⟩))
    · trivial
  have hstart : ∀ i, started s = some i → setsWithin (TransitionTarget s) i := by
    intro i hi
    unfold setsWithin
    split
    · exact .inr (.inr (.inl ⟨rfl, .inr ⟨_, hi⟩⟩))
    · exact .inr (.inr (.inr ⟨rfl, .inr ⟨_, hi⟩⟩))
    · trivial
  have htarget : TransitionTarget s t.mode :=
    step_within (.inl rfl) (fun x hmem hr => .inr (.inl ⟨x, hmem, hr, rfl⟩)) hstack hstart h
  exact htarget.resolve_left hne

end Sys2Proof.Machine

/-! The movement-report decoders and REPORT against a device that meets its contract (R220 to R223). -/

namespace Sys2Proof.Machine

/-- A decoder run on its own: one exchange, whose byte is kept as a movement (R222, R223). -/
theorem decode_completes (a : Axis) {m : Byte} {s : State} {xs rest : List Sample} {t' : Time} (hb : s.busy = false)
    (hin : s.inputs = xs ++ rest) (h : talkSeg s.cfg [.d2h m] (now s) xs t') :
    ∃ k : Scratch, k.tResult = m ∧ start none (decodeStart a) s =
      .next (keepMovement a (afterExchange s [.d2h m] rest k)) := by
  obtain ⟨ys, _, u, rfl, hbyte, hnil⟩ := talkSeg_cons h
  obtain ⟨rfl, rfl⟩ := talkSeg_nil hnil
  obtain ⟨k, st, -, hres, hrun⟩ := exchange_runs (s := accepted none s) (f := .decode a) (k := []) (.d2h m) hbyte rfl
  refine ⟨k, hres m rfl, ?_⟩
  rw [start_idle hb hin rfl, List.append_nil, decodeStart, conclude_callReceive]
  refine (hrun rest).trans ?_
  rw [frameStep, decodeStep, return', op_returns]
  cases a <;> rfl

/-- Settles O25: each decoder keeps the byte received, extended by its axis's bit of `status`. -/
theorem decodersComplete : Obligations.DecodersComplete := by
  intro m s xs rest t' hb hin h
  constructor
  · obtain ⟨k, rfl, hrun⟩ := decode_completes .x hb hin h
    exact ⟨k, hrun⟩
  · obtain ⟨k, rfl, hrun⟩ := decode_completes .y hb hin h
    exact ⟨k, hrun⟩

/-- Settles O26: the poll of Remote mode, then the report's three bytes read and decoded. -/
theorem reportCompletes : Obligations.ReportCompletes := by
  intro arg a status x y s xs rest t' hb hin h
  exact report_completes arg hb hin h

end Sys2Proof.Machine

/-! A `WaitWhile` at one poll: with the level lacking it stays or, past the limit, raises Timeout; with the level
present the operation goes on, and the caller operation is under way still (R133, R242, R247, R250). -/

namespace Sys2Proof.Machine

theorem sampling_of_polling {f : Frame} (h : polling f = true) : sampling f = true := by
  unfold polling at h
  split at h <;> simp_all [sampling]

/-- What the operation does once the level awaited at `f` is there: at RB.3 READ_BIT returns (R139 to R143, R148, R153). -/
def afterPoll (f : Frame) : State → Ran :=
  match f with
  | .transmit .grant => enterSlot 0#4
  | .transmit .slotLow => enterPoll (.transmit .slotHigh)
  | .transmit .slotHigh => nextSlot
  | .transmit .ack => transmitDone
  | .receive .eat => readSlot 0#4
  | .readBit .waitLow => goto (.readBit .sample)
  | _ => return'

/-- The step at a `WaitWhile` is one poll for the DEVICE's level, since the HOST has released the lines that it reads. -/
theorem frameStep_polling {f : Frame} {s : State} (hf : polling f = true) (hc : s.clockDrv = .rel)
    (hd : f = .transmit .ack → s.dataDrv = .rel) :
    frameStep f s = pollThen (lacking f s.pins) f (afterPoll f) s := by
  cases f with
  | transmit p =>
    cases p with
    | settle | inhibit | start | post => cases hf
    | grant | slotLow | slotHigh => rw [frameStep, transmitStep, level_clock hc]; rfl
    | ack => rw [frameStep, transmitStep, level_clock hc, level_data (hd rfl)]; rfl
  | receive p =>
    cases p with
    | eat => rw [frameStep, receiveStep, level_clock hc]; rfl
    | _ => cases hf
  | readBit p =>
    cases p with
    | waitLow | waitHigh => rw [frameStep, readBitStep, level_clock hc]; rfl
    | sample => cases hf
  | _ => cases hf

/-- An edge of a sound HOST at a `WaitWhile` is one poll on the levels of that edge. -/
theorem edge_polling {f : Frame} {k : List Frame} {x : Sample} {s : State} (hs : Sound s) (hk : s.stack = f :: k)
    (hx : x.rst = false) (hf : polling f = true) :
    edge x s = conclude k (pollThen (lacking f x) f (afterPoll f) (sampled x s)) := by
  obtain ⟨hc, hd⟩ := released_of_sampling hs hk (sampling_of_polling hf)
  obtain ⟨hr, -⟩ | ⟨-, he⟩ := edge_cases x s
  · simp [hx] at hr
  · have hstep := frameStep_polling (s := sampled x s) hf hc fun h => hd (.inl h)
    rw [he, hk, resume_cons, hstep, sampled_pins]

/-- Settles O34: the limit has not passed, so the poll stays, on the stack as it was. -/
theorem missingLevelHolds : Obligations.MissingLevelHolds := by
  intro f k x s hs hk _ hx hf hlack hlim
  have hexp : expired (sampled x s) = false := by
    rw [← Bool.not_eq_true, expired_iff]
    exact fun ⟨hp, hlt⟩ => absurd hlt (BitVec.not_lt.mpr (hlim hp))
  rw [edge_polling hs hk hx hf, pollThen, if_pos hlack, hexp, if_neg Bool.false_ne_true, goto, conclude_block,
    List.singleton_append, ← hk]
  rfl

/-- Settles O35: the limit has passed, and what Timeout writes are the registers that R250 names. -/
theorem timeoutRaised : Obligations.TimeoutRaised := by
  intro f k x s hs hk _ hx hf hlack hp hlt
  have hexp : expired (sampled x s) = true := (expired_iff _).mpr ⟨hp, hlt⟩
  rw [edge_polling hs hk hx hf, pollThen, if_pos hlack, if_pos hexp, conclude_timeout]
  rfl

/-- A busy HOST's step that neither returns nor times out. -/
def Continues (r : Ran) : Prop := r.1.busy = true ∧ r.2 ≠ .ret ∧ r.2 ≠ .timeout

/-- A callee's step that continues leaves the HOST busy. -/
theorem busy_of_continues {k : List Frame} {r : Ran} {t : State} (hr : Continues r) (hk : k ≠ [])
    (h : conclude k r = .next t) : t.busy = true := by
  obtain ⟨hb, hret, htimeout⟩ := hr
  obtain ⟨s, fs, rfl, rfl⟩ | ⟨s, rfl, -⟩ | ⟨s, rfl, hnil, -⟩ | ⟨s, rfl, -, rfl⟩ | ⟨s, rfl, -⟩ := conclude_cases h
  · exact hb
  · exact absurd rfl hret
  · exact absurd hnil hk
  · exact hb
  · exact absurd rfl htimeout

theorem enterSlot_continues {i : BitVec 4} {s : State} (hb : s.busy = true) : Continues (enterSlot i s) := by
  simpa [Continues, enterSlot, enterPoll, goto] using hb

theorem nextSlot_continues {s : State} (hb : s.busy = true) : Continues (nextSlot s) := by
  unfold nextSlot
  split_ifs
  · exact enterSlot_continues hb
  · simpa [Continues, enterWait, goto] using hb
  · simpa [Continues] using hb

theorem readSlot_continues {i : BitVec 4} {s : State} (hb : s.busy = true) : Continues (readSlot i s) := by
  simpa [Continues, readSlot, callThen, readBitStart, enterPoll, goto] using hb

theorem slotRead_continues {s : State} (hb : s.busy = true) : Continues (slotRead s) := by
  unfold slotRead
  split_ifs
  · exact readSlot_continues (by simpa using hb)
  · simpa [Continues, receiveDone] using hb
  · simpa [Continues] using hb

/-- Every awaited level but READ_BIT's last lets the same operation go on or end a byte exchange (R160). -/
theorem afterPoll_continues {f : Frame} {s : State} (hf : polling f = true) (hne : f ≠ .readBit .waitHigh)
    (hb : s.busy = true) : Continues (afterPoll f s) := by
  unfold afterPoll
  split
  · exact enterSlot_continues hb
  · simpa [Continues, enterPoll, goto] using hb
  · exact nextSlot_continues hb
  · simpa [Continues, transmitDone] using hb
  · exact readSlot_continues hb
  · simpa [Continues, goto] using hb
  · unfold polling at hf
    split at hf <;> simp_all

/-- On a legal chain an operation that is no caller operation has been called (R28). -/
theorem caller_of_legalChain {code : Option (BitVec 4)} {f : Frame} {k : List Frame}
    (h : legalChain code (f :: k) = true) (hf : callerCode f = none) :
    ∃ g k', k = g :: k' ∧ awaits g f = true ∧ legalChain code (g :: k') = true := by
  cases k with
  | nil => simp [legalChain, hf] at h
  | cons g k' => exact ⟨g, k', rfl, by simpa [legalChain] using h⟩

theorem callerCode_of_polling {f : Frame} (h : polling f = true) : callerCode f = none := by
  unfold polling at h
  split at h <;> simp_all [callerCode]

/-- Only RECEIVE_BYTE, at RX.4 and RX.5, calls READ_BIT (R149, R150). -/
theorem eq_bit_of_awaits_readBit {g : Frame} {p : RbPos} (h : awaits g (.readBit p) = true) : g = .receive .bit := by
  unfold awaits at h
  split at h <;> simp_all

/-- Where the awaited level is there, what the operation goes on with leaves the HOST busy: a READ_BIT returns to
RECEIVE_BYTE, which takes its next slot or ends the exchange. -/
theorem busy_of_afterPoll {code : Option (BitVec 4)} {f : Frame} {k : List Frame} {s t : State} (hf : polling f = true)
    (hchain : legalChain code (f :: k) = true) (hb : s.busy = true) (h : conclude k (afterPoll f s) = .next t) :
    t.busy = true := by
  obtain ⟨g, k', rfl, hcall, hrest⟩ := caller_of_legalChain hchain (callerCode_of_polling hf)
  by_cases hlast : f = .readBit .waitHigh
  · subst hlast
    obtain rfl := eq_bit_of_awaits_readBit hcall
    obtain ⟨c, k'', rfl, -, -⟩ := caller_of_legalChain hrest rfl
    have h' : conclude (c :: k'') (slotRead s) = .next t := h
    exact busy_of_continues (slotRead_continues hb) (by simp) h'
  · exact busy_of_continues (afterPoll_continues hf hlast hb) (by simp) h

/-- Settles O36: the poll passes to what follows it whatever the time, and the HOST is busy still. -/
theorem awaitedLevelWins : Obligations.AwaitedLevelWins := by
  intro f k x s hs hk hb hx hf hlack
  obtain ⟨t, ht, -⟩ := edge_goes (x := x) hb (underWay_of_sound hs)
  obtain ⟨hchain, -⟩ := hs.busy hb
  have hnext : conclude k (afterPoll f (sampled x s)) = .next t := by
    rw [← ht, edge_polling hs hk hx hf, pollThen, if_neg (by simp [hlack])]
  exact ⟨t, ht, .inl (busy_of_afterPoll (s := sampled x s) hf (hk ▸ hchain) hb hnext)⟩

end Sys2Proof.Machine

/-! A step on a queued sample where no operation starts: `rst` resets a busy or an idle block, a busy block takes its clock
edge, and an idle block with nothing presented samples its ports (R280, R281). -/

namespace Sys2Proof.Machine

section queued
variable {x : Sample} {xs : List Sample} {s : State}

theorem idleSampled_cons (hin : s.inputs = x :: xs) : idleSampled s = sampled x { s with inputs := xs } := by
  rw [idleSampled, nextSample_cons hin]

theorem edge_of_rst (hr : x.rst = true) : edge x s = .next (resetEdge (sampled x s)) := if_pos hr

theorem step_of_busy (hb : s.busy = true) (hin : s.inputs = x :: xs) : step s = edge x { s with inputs := xs } := by
  rw [step, if_pos hb, busyStep, nextSample_cons hin]

theorem step_of_idle_rst (hb : s.busy = false) (hs : s.sel = none) (hin : s.inputs = x :: xs) (hr : x.rst = true) :
    step s = .next (resetEdge (sampled x { s with inputs := xs })) := by
  have hx := idleSampled_cons hin
  obtain ⟨h, -⟩ | ⟨-, w, h, -⟩ | ⟨-, -, -, he⟩ | ⟨-, -, h, -⟩ | ⟨-, -, h, -⟩ := step_cases s
  case inr.inr.inl => rw [he, hx]
  all_goals simp [hx, hb, hs, hr] at h

theorem step_of_idle_noOp (hb : s.busy = false) (hs : s.sel = none) (hin : s.inputs = x :: xs) (hr : x.rst = false)
    (hv : x.opValid = false) : step s = .next (sampled x { s with inputs := xs }) := by
  have hx := idleSampled_cons hin
  obtain ⟨h, -⟩ | ⟨-, w, h, -⟩ | ⟨-, -, h, -⟩ | ⟨-, -, -, h, -⟩ | ⟨-, -, -, -, he⟩ := step_cases s
  case inr.inr.inr.inr => rw [he, hx]
  all_goals simp [hx, hb, hs, hr, hv] at h

end queued

/-- Settles O33: a busy block resets at its clock edge, an idle one when it samples its ports. -/
theorem resetAtAnEdge : Obligations.ResetAtAnEdge := by
  intro x xs s hr hin hidle
  have hreset : step s = .next (resetEdge (sampled x { s with inputs := xs })) := by
    obtain hb | hb := Bool.eq_false_or_eq_true s.busy
    · exact (step_of_busy hb hin).trans (edge_of_rst hr)
    · exact step_of_idle_rst hb (hidle.resolve_left (by simp [hb])) hin hr
  rw [hreset, resetEdge_eq]
  rfl

/-- Settles O47: with nothing presented an idle block's step is the sampling alone, and a busy block's step is the edge. -/
theorem stepWithoutAnOpWord : Obligations.StepWithoutAnOpWord := fun _ _ _ hin =>
  ⟨fun hb hs hr hv => step_of_idle_noOp hb hs hin hr hv, fun hb => step_of_busy hb hin⟩

end Sys2Proof.Machine
